-- ==== Sys2Proof/Word.lean ====
section
/-! DEFINITION. The words of the block: what 10_state.md R20 and 00_scope.md R10, R11 call command word,
register word, symbol, count, byte and bit string. -/

namespace Sys2Proof

/-- A 64-bit command word (30_encoding.md R90). -/
abbrev CommandWord := BitVec 64

/-- A 32-bit word: the operand `arg`, a word address and a word of the register space
(30_encoding.md R90; 20_memory.md R62). -/
abbrev Word := BitVec 32

/-- A packed byte (20_memory.md R69). -/
abbrev Byte := BitVec 8

/-- A Symbol. The block's symbols have `SYMW` bits, 1 to 32 (00_scope.md R8). The model holds each in 32
bits, zero-extended, and `Sys2Proof.Machine.State.Inv` says that it is below `2^SYMW` (log 7). -/
abbrev Symbol := BitVec 32

/-- A frequency count, `TOTAL` or a group weight: `CNTW` bits, 1 to 32 (00_scope.md R8), held in 32 bits,
zero-extended (log 7). -/
abbrev Count := BitVec 32

/-- A bit string (00_scope.md R11): its first element is the first bit of the code. -/
abbrev BitString := List Bool

end Sys2Proof
end

