-- ==== Sys2Proof/Config.lean ====
section
/-! DEFINITION. The implementation parameters of the block (00_scope.md R8) with the proofs of their ranges
(93_implementation_defined.md U10), its two named configurations, and the one free value the spec leaves
(20_memory.md R68). -/

namespace Sys2Proof

/-- The three implementation parameters (00_scope.md R8). No block exists outside the ranges
(93_implementation_defined.md U10), so the type carries their proofs. -/
structure Config where
  /-- `SYMW`: width of a Symbol in bits. -/
  symw : Nat
  /-- `CNTW`: width of a count, of `TOTAL` and of a group weight in bits. -/
  cntw : Nat
  /-- `NSYM`: capacity of the Frequency Table and of the Codebook in entries. -/
  nsym : Nat
  symw_range : 1 ≤ symw ∧ symw ≤ 32
  cntw_range : 1 ≤ cntw ∧ cntw ≤ 32
  nsym_range : 1 ≤ nsym ∧ nsym ≤ 65535
deriving DecidableEq, Repr

namespace Config

/-- The reference configuration REF (00_scope.md R8). -/
def ref : Config := ⟨32, 32, 256, by decide, by decide, by decide⟩

/-- The small test configuration TINY (00_scope.md R8). -/
def tiny : Config := ⟨8, 4, 4, by decide, by decide, by decide⟩

/-- FREE VALUE (20_memory.md R68; 93_implementation_defined.md U1; log 5): the word the `n`-th read of an
invalid table slot returns. It has no body, so nothing can be proved of its value. -/
opaque freeWord : Nat → Word

end Config

end Sys2Proof
end

