-- ==== Sys2Proof/Syntax.lean ====
section
/-! DEFINITION. The command set: one constructor for each row of the opcode table (30_encoding.md R92). -/

namespace Sys2Proof

/-- The fourteen commands (30_encoding.md R92). A command with an operand carries the raw 32-bit field `arg`
(30_encoding.md R90): whether it lies in the command's legal range is checked when the command is
processed (R94 step 5), not when it is decoded. -/
inductive Instr where
  | nop
  | clear
  | cntSym (arg : Word)
  | build
  | packBegin
  | packSym (arg : Word)
  | packEnd
  | decBegin (arg : Word)
  | decByte (arg : Word)
  | decEnd
  | cblOpen (arg : Word)
  | cblBit (arg : Word)
  | cblClose
  | cblEnd
deriving DecidableEq, Repr

end Sys2Proof
end

