-- ==== Sys2Proof/WellFormed.lean ====
section
/-! DEFINITION. Well-formed commands: the operand lies in the range 30_encoding.md R91 calls legal. Every
command of the type `Instr` has an encoding; an ill-formed one is the command the block refuses with
`BAD_OPERAND` (R97). -/

namespace Sys2Proof

/-- The operand is in the command's legal range (30_encoding.md R91). A command without operand has
nothing to check. -/
def Instr.wellFormed (c : Config) : Instr → Bool
  | .nop => true
  | .clear => true
  | .cntSym arg => decide (arg.toNat < 2 ^ c.symw)
  | .build => true
  | .packBegin => true
  | .packSym arg => decide (arg.toNat < 2 ^ c.symw)
  | .packEnd => true
  | .decBegin arg => decide (arg.toNat ≤ 7)
  | .decByte arg => decide (arg.toNat ≤ 255)
  | .decEnd => true
  | .cblOpen arg => decide (arg.toNat < 2 ^ c.symw)
  | .cblBit arg => decide (arg.toNat ≤ 1)
  | .cblClose => true
  | .cblEnd => true

end Sys2Proof
end

