-- ==== Sys2Proof/Decode.lean ====
section
/-! DEFINITION. Decoding a command word by the opcode map of 30_encoding.md R92, and encoding a command by
the format of R90. -/

namespace Sys2Proof

/-- One row of the opcode map (30_encoding.md R92). -/
structure OpcodeRow where
  mnemonic : String
  /-- The column `match`. -/
  pattern : CommandWord
  mask : CommandWord
  /-- The command the row stands for, given the field `arg`. -/
  make : Word → Instr

/-- The field `op`, bits [63:56] (30_encoding.md R90). -/
def opField (w : CommandWord) : BitVec 8 := w.extractLsb' 56 8

/-- The field `rsv`, bits [55:32] (30_encoding.md R90). -/
def rsvField (w : CommandWord) : BitVec 24 := w.extractLsb' 32 24

/-- The field `arg`, bits [31:0] (30_encoding.md R90). -/
def argField (w : CommandWord) : Word := w.extractLsb' 0 32

/-- The opcode map, in the order of 30_encoding.md R92. -/
def opcodeTable : List OpcodeRow :=
  [ ⟨"NOP", 0x0000000000000000#64, 0xFFFFFFFFFFFFFFFF#64, fun _ => .nop⟩,
    ⟨"CLEAR", 0x0100000000000000#64, 0xFFFFFFFFFFFFFFFF#64, fun _ => .clear⟩,
    ⟨"CNT_SYM", 0x1000000000000000#64, 0xFFFFFFFF00000000#64, .cntSym⟩,
    ⟨"BUILD", 0x2000000000000000#64, 0xFFFFFFFFFFFFFFFF#64, fun _ => .build⟩,
    ⟨"PACK_BEGIN", 0x3000000000000000#64, 0xFFFFFFFFFFFFFFFF#64, fun _ => .packBegin⟩,
    ⟨"PACK_SYM", 0x3100000000000000#64, 0xFFFFFFFF00000000#64, .packSym⟩,
    ⟨"PACK_END", 0x3200000000000000#64, 0xFFFFFFFFFFFFFFFF#64, fun _ => .packEnd⟩,
    ⟨"DEC_BEGIN", 0x4000000000000000#64, 0xFFFFFFFF00000000#64, .decBegin⟩,
    ⟨"DEC_BYTE", 0x4100000000000000#64, 0xFFFFFFFF00000000#64, .decByte⟩,
    ⟨"DEC_END", 0x4200000000000000#64, 0xFFFFFFFFFFFFFFFF#64, fun _ => .decEnd⟩,
    ⟨"CBL_OPEN", 0x5000000000000000#64, 0xFFFFFFFF00000000#64, .cblOpen⟩,
    ⟨"CBL_BIT", 0x5100000000000000#64, 0xFFFFFFFF00000000#64, .cblBit⟩,
    ⟨"CBL_CLOSE", 0x5200000000000000#64, 0xFFFFFFFFFFFFFFFF#64, fun _ => .cblClose⟩,
    ⟨"CBL_END", 0x5300000000000000#64, 0xFFFFFFFFFFFFFFFF#64, fun _ => .cblEnd⟩ ]

/-- A word matches a row when `w & mask = match` (30_encoding.md R92). -/
def OpcodeRow.accepts (r : OpcodeRow) (w : CommandWord) : Bool := w &&& r.mask == r.pattern

/-- Why a word is no command (30_encoding.md R95). -/
inductive IllegalWord where
  /-- `op` is none of the assigned opcodes. -/
  | unassignedOp
  /-- `rsv` is not 0. -/
  | reservedNotZero
  /-- `arg` is not 0 on a command without operand. -/
  | operandNotZero
deriving DecidableEq, Repr

/-- The reason a word that matches no row is refused with (30_encoding.md R95). -/
def illegalReason (w : CommandWord) : IllegalWord :=
  if opcodeTable.any (fun r => opField r.pattern == opField w) then
    if rsvField w = 0 then .operandNotZero else .reservedNotZero
  else .unassignedOp

/-- Decoding (30_encoding.md R92, R94 step 3): the row the word matches gives the command. A word that
matches no row is rejected by name. -/
def decode (w : CommandWord) : Except IllegalWord Instr :=
  match opcodeTable.find? (fun r => r.accepts w) with
  | some r => .ok (r.make (argField w))
  | none => .error (illegalReason w)

/-- The opcode of a command (30_encoding.md R92, column `op`). -/
def Instr.op : Instr → BitVec 8
  | .nop => 0x00#8
  | .clear => 0x01#8
  | .cntSym _ => 0x10#8
  | .build => 0x20#8
  | .packBegin => 0x30#8
  | .packSym _ => 0x31#8
  | .packEnd => 0x32#8
  | .decBegin _ => 0x40#8
  | .decByte _ => 0x41#8
  | .decEnd => 0x42#8
  | .cblOpen _ => 0x50#8
  | .cblBit _ => 0x51#8
  | .cblClose => 0x52#8
  | .cblEnd => 0x53#8

/-- The field `arg` of a command: its operand, or 0 for a command without operand (30_encoding.md R90). -/
def Instr.arg : Instr → Word
  | .cntSym arg => arg
  | .packSym arg => arg
  | .decBegin arg => arg
  | .decByte arg => arg
  | .cblOpen arg => arg
  | .cblBit arg => arg
  | .nop => 0#32
  | .clear => 0#32
  | .build => 0#32
  | .packBegin => 0#32
  | .packEnd => 0#32
  | .decEnd => 0#32
  | .cblClose => 0#32
  | .cblEnd => 0#32

/-- The command word `op ++ 0x000000 ++ arg` (30_encoding.md R90, R100). -/
def encode (i : Instr) : CommandWord := i.op ++ 0x000000#24 ++ i.arg

/-- The command the decoder reads from a word given as a number, bit 0 its least significant bit. Every
command is one 64-bit word carried in parallel (30_encoding.md R90; 20_memory.md R70), so the number is
the word and a number that does not fit is no command (log 20). -/
def decodeTableWord (nbits w : Nat) : Option Instr :=
  if nbits ≤ 64 ∧ w < 2 ^ 64 then (decode (BitVec.ofNat 64 w)).toOption else none

end Sys2Proof
end

