-- ==== Sys2Proof/Machine/State.lean ====
section
/-! DEFINITION. The state of the block as plain data: every element of 10_state.md R20, the configuration it
is built with, and the model's own fields for the host's side of the ports. Also the reset state (R46). -/

namespace Sys2Proof.Machine

/-- The six phases (10_state.md R23). The values 6 and 7 are never written and are left out of the type
(93_implementation_defined.md U5; log 8). -/
inductive Phase where
  | idle
  | count
  | load
  | ready
  | pack
  | decode
deriving DecidableEq, Repr

/-- The eight faults of the block (60_exceptions.md R210). A fault is a next state of the model: see
`State.raise`. The codes 9 to 15 are never written and are left out of the type (log 8). -/
inductive FaultCode where
  | illegalCmd
  | badPhase
  | badOperand
  | tableFull
  | countOverflow
  | badCodebook
  | missingCode
  | malformedStream
deriving DecidableEq, Repr

/-- A slot of the Frequency Table (10_state.md R35). -/
structure FtSlot where
  sym : Symbol
  count : Count
deriving DecidableEq, Repr

/-- A symbol with the bit string assigned to it: a slot of the Codebook (10_state.md R38), and a member of
a Code Tree Group, where the bit string may still be empty (R41). -/
structure CodeEntry where
  sym : Symbol
  code : BitString
deriving DecidableEq, Repr

/-- A Code Tree Group (10_state.md R41): a weight and an ordered member list, which is never empty. -/
structure Group where
  w : Count
  first : CodeEntry
  others : List CodeEntry
deriving DecidableEq, Repr

/-- What the host does at the ports between two commands (20_memory.md R60, R75; 70_reset_and_hazards.md
R253): it hands over a command word, reads a word of the register space, or asserts reset. -/
inductive HostAction where
  | command (w : CommandWord)
  | read (address : Word)
  | reset
deriving DecidableEq, Repr

/-- The state of the machine. -/
structure State where
  /-- The configuration (00_scope.md R8). It is constant: no step writes it (log 1). -/
  cfg : Config
  /-- `PHASE` (10_state.md R23). -/
  phase : Phase
  /-- `FAULT`: `none` is the value 0 (10_state.md R28). -/
  fault : Option FaultCode
  /-- `FCMD`: the command word that faulted, 0 if none (10_state.md R29). -/
  fcmd : CommandWord
  /-- `FT`: the slots written since reset, slot 0 first (10_state.md R35; log 6). -/
  ft : List FtSlot
  /-- `FTN`: the number of valid slots of `FT` (10_state.md R30). -/
  ftn : BitVec 17
  /-- `TOTAL` (10_state.md R30). -/
  total : Count
  /-- `GL`: the Code Tree Groups, empty outside `BUILD` (10_state.md R41). -/
  gl : List Group
  /-- `CB`: the slots written since reset, slot 0 first (10_state.md R38; log 6). -/
  cb : List CodeEntry
  /-- `CBN`: the number of valid slots of `CB` (10_state.md R31). -/
  cbn : BitVec 17
  /-- `PAD` (10_state.md R31). -/
  pad : BitVec 3
  /-- `PACC` (10_state.md R32, R42). -/
  pacc : Byte
  /-- `PCNT` (10_state.md R32, R42). -/
  pcnt : BitVec 3
  /-- `HOLD` (10_state.md R32, R43). -/
  hold : Byte
  /-- `HOLDV` (10_state.md R25). -/
  holdv : Bool
  /-- `ACC` (10_state.md R43). -/
  acc : BitString
  /-- `OSYM` (10_state.md R33, R43). -/
  osym : Symbol
  /-- `OCODE` (10_state.md R43). -/
  ocode : BitString
  /-- `OPENV` (10_state.md R25). -/
  openv : Bool
  /-- `BYTE_OUT`: all bytes emitted since reset, first one first (10_state.md R44). -/
  byteOut : List Byte
  /-- `SYM_OUT`: all symbols emitted since reset, first one first (10_state.md R44). -/
  symOut : List Symbol
  /-- The model's own: the host's actions not yet carried out, the next one first (log 2). -/
  host : List HostAction
  /-- The model's own: the words the read port has returned, first one first (log 4). -/
  rdOut : List Word
  /-- The model's own: how many free draws reads of invalid slots have taken (log 5). -/
  draws : Nat
deriving DecidableEq, Repr

/-- The reasons a step could end in a stop. There is none: in every state every command word has a defined
outcome, executed, faulted or discarded (70_reset_and_hazards.md R252), and every fault of the block is a
next state (60_exceptions.md R212; log 16). -/
inductive Fault
deriving DecidableEq, Repr

/-- The reasons the model could refuse an instruction. -/
inductive Refusal where
  /-- Raised by an arm of `exec` whose instruction has no meaning yet (safe). No arm raises it. -/
  | notModelled (mnemonic : String)
deriving DecidableEq, Repr

/-- How far a command's own rule has come: it completed, or it executed `raise` with a fault code in a
state (00_scope.md R12). The fault entry itself is `State.raise`. -/
inductive Progress where
  | done (s : State)
  | raised (f : FaultCode) (s : State)
deriving DecidableEq, Repr

/-- The reset state of a block of configuration `c` (10_state.md R46). The spec leaves the table slots
unspecified: none is listed (log 6). -/
def State.resetOf (c : Config) : State where
  cfg := c
  phase := .idle
  fault := none
  fcmd := 0#64
  ft := []
  ftn := 0#17
  total := 0#32
  gl := []
  cb := []
  cbn := 0#17
  pad := 0#3
  pacc := 0#8
  pcnt := 0#3
  hold := 0#8
  holdv := false
  acc := []
  osym := 0#32
  ocode := []
  openv := false
  byteOut := []
  symOut := []
  host := []
  rdOut := []
  draws := 0

/-- The machine right after reset, in the reference configuration REF (00_scope.md R8; 10_state.md R46;
log 1). -/
def State.reset : State := State.resetOf Config.ref

end Sys2Proof.Machine
end

