-- ==== Sys2Proof/Machine/Operands.lean ====
section
/-! DEFINITION. The constants derived from the parameters (00_scope.md R8), the operand forms (30_encoding.md
R91) and the arithmetic of the block (00_scope.md R16). -/

namespace Sys2Proof

/-- `MAXLEN = max(1, NSYM - 1)`: the longest code the block stores, in bits (00_scope.md R8). -/
def Config.maxLen (c : Config) : Nat := max 1 (c.nsym - 1)

/-- `CW = ceil(MAXLEN / 32)`: the words of a stored code (00_scope.md R8). -/
def Config.cw (c : Config) : Nat := (c.maxLen + 31) / 32

/-- `CBSTRIDE = 2 + CW`: the words of a Codebook slot in the read space (00_scope.md R8). -/
def Config.cbStride (c : Config) : Nat := 2 + c.cw

/-- `CNTMAX = 2^CNTW - 1` (00_scope.md R8). -/
def Config.cntMax (c : Config) : Count := BitVec.ofNat 32 (2 ^ c.cntw - 1)

/-- Addition of counts and weights at `CNTW` bits (00_scope.md R16 (a), (b)). That it never drops a carry in
a reachable state is a theorem about the machine, not part of the adder. -/
def Config.addCount (c : Config) (a b : Count) : Count :=
  BitVec.ofNat 32 ((a.toNat + b.toNat) % 2 ^ c.cntw)

namespace Machine

/-- A symbol operand: `arg[SYMW-1:0]` (30_encoding.md R91). -/
def symbolOperand (c : Config) (arg : Word) : Symbol := BitVec.ofNat 32 (arg.toNat % 2 ^ c.symw)

/-- The operand of `CBL_BIT`: `arg[0]` (45_codebook_load.md R191). -/
def bitOperand (arg : Word) : Bool := arg.getLsbD 0

/-- The operand of `DEC_BYTE`: `arg[7:0]` (44_unpacker_decoder.md R174). -/
def byteOperand (arg : Word) : Byte := arg.extractLsb' 0 8

/-- The operand of `DEC_BEGIN`: `arg[2:0]` (44_unpacker_decoder.md R170). -/
def paddingOperand (arg : Word) : BitVec 3 := arg.extractLsb' 0 3

/-- The operand forms (30_encoding.md R91, R92). -/
inductive OperandKind where
  | noOperand
  | symbol
  | bit
  | byte
  | padding
deriving DecidableEq, Repr

/-- The operand form of each command (30_encoding.md R92, column `operand`). -/
def operandKind : Instr → OperandKind
  | .nop => .noOperand
  | .clear => .noOperand
  | .cntSym _ => .symbol
  | .build => .noOperand
  | .packBegin => .noOperand
  | .packSym _ => .symbol
  | .packEnd => .noOperand
  | .decBegin _ => .padding
  | .decByte _ => .byte
  | .decEnd => .noOperand
  | .cblOpen _ => .symbol
  | .cblBit _ => .bit
  | .cblClose => .noOperand
  | .cblEnd => .noOperand

/-- The number of values an operand form has: its legal range is the numbers below it. `none` for a
command without operand, which has nothing to check (30_encoding.md R91, R97). -/
def operandBound (c : Config) : OperandKind → Option Nat
  | .noOperand => none
  | .symbol => some (2 ^ c.symw)
  | .bit => some 2
  | .byte => some 256
  | .padding => some 8

/-- The operand check of 30_encoding.md R94 step 5. -/
def operandLegal (c : Config) (i : Instr) : Bool :=
  match operandBound c (operandKind i) with
  | none => true
  | some bound => decide (i.arg.toNat < bound)

end Machine

end Sys2Proof
end

