-- ==== Sys2Proof/Machine/Ops.lean ====
section
/-! DEFINITION. The operations every command shares: taking a fault and the way out of it, emitting, the
tables and their searches, the admission table, and the processing order of a command. -/

namespace Sys2Proof.Machine

/-! ### Fault entry, and the return from the faulted state -/

/-- `raise f` while processing the command word `cmd` (60_exceptions.md R212): `FAULT` and `FCMD` are written,
and nothing else. -/
def State.raise (f : FaultCode) (cmd : CommandWord) (s : State) : State :=
  { s with fault := some f, fcmd := cmd }

/-- What `CLEAR` does, the only way out of the faulted state besides reset (40_control.md R111;
60_exceptions.md R220). The slots of `FT` and `CB` and the two streams are left as they are. -/
def State.clear (s : State) : State :=
  { s with
    phase := .idle, fault := none, fcmd := 0#64,
    ftn := 0#17, total := 0#32, cbn := 0#17, pad := 0#3, gl := [],
    pacc := 0#8, pcnt := 0#3,
    hold := 0#8, holdv := false, acc := [],
    osym := 0#32, ocode := [], openv := false }

/-- The reset pin (70_reset_and_hazards.md R240): every element of 10_state.md R20 takes its reset value. What
the host has still to do and has already read is the host's and stays; the draws go on (log 5, log 10). -/
def State.resetPin (s : State) : State :=
  { State.resetOf s.cfg with host := s.host, rdOut := s.rdOut, draws := s.draws }

/-! ### Output streams -/

/-- `Emit(BYTE_OUT, v)` (10_state.md R44). -/
def State.emitByte (v : Byte) (s : State) : State := { s with byteOut := s.byteOut ++ [v] }

/-- `Emit(SYM_OUT, v)` (10_state.md R44). -/
def State.emitSym (v : Symbol) (s : State) : State := { s with symOut := s.symOut ++ [v] }

/-! ### The tables -/

/-- The valid slots of `FT`: the slots below `FTN` (10_state.md R35). -/
def State.ftValid (s : State) : List FtSlot := s.ft.take s.ftn.toNat

/-- The valid slots of `CB`: the slots below `CBN` (10_state.md R38). -/
def State.cbValid (s : State) : List CodeEntry := s.cb.take s.cbn.toNat

/-- `FTFind(sym)`: the valid slot of `FT` that holds `sym`, or `none` (00_scope.md R13; first match, log 18). -/
def State.ftFind (s : State) (sym : Symbol) : Option Nat := s.ftValid.findIdx? (fun x => x.sym == sym)

/-- `CBFindSym(sym)` (00_scope.md R13). The index serves only to read the slot, so the search answers the
slot's content (first match, log 18). -/
def State.cbFindSym (s : State) (sym : Symbol) : Option CodeEntry := s.cbValid.find? (fun x => x.sym == sym)

/-- `CBFindCode(code)` (00_scope.md R13), the content of the slot found. The comparison is equality of bit
strings, length included (R11). -/
def State.cbFindCode (s : State) (code : BitString) : Option CodeEntry :=
  s.cbValid.find? (fun x => x.code == code)

/-- `T[i] <- x` for a slot of a table: the other slots keep their contents (20_memory.md R67). The commands
write at an index of at most the number of slots written so far (log 14). -/
def writeSlot {α : Type} (table : List α) (i : Nat) (x : α) : List α := table.take i ++ x :: table.drop (i + 1)

/-! ### Admission -/

/-- The phase transition table (10_state.md R24): the phase after the command completes without fault, or
`none` where the table has no entry. -/
def nextPhase (i : Instr) (p : Phase) : Option Phase :=
  match i, p with
  | .nop, .idle => some .idle
  | .nop, .count => some .count
  | .nop, .load => some .load
  | .nop, .ready => some .ready
  | .nop, .pack => some .pack
  | .nop, .decode => some .decode
  | .clear, .idle | .clear, .count | .clear, .load => some .idle
  | .clear, .ready | .clear, .pack | .clear, .decode => some .idle
  | .cntSym _, .idle | .cntSym _, .count => some .count
  | .cntSym _, .load | .cntSym _, .ready | .cntSym _, .pack | .cntSym _, .decode => none
  | .build, .idle | .build, .count => some .ready
  | .build, .load | .build, .ready | .build, .pack | .build, .decode => none
  | .packBegin, .ready => some .pack
  | .packBegin, .idle | .packBegin, .count | .packBegin, .load | .packBegin, .pack | .packBegin, .decode => none
  | .packSym _, .pack => some .pack
  | .packSym _, .idle | .packSym _, .count | .packSym _, .load | .packSym _, .ready | .packSym _, .decode => none
  | .packEnd, .pack => some .ready
  | .packEnd, .idle | .packEnd, .count | .packEnd, .load | .packEnd, .ready | .packEnd, .decode => none
  | .decBegin _, .ready => some .decode
  | .decBegin _, .idle | .decBegin _, .count | .decBegin _, .load | .decBegin _, .pack | .decBegin _, .decode => none
  | .decByte _, .decode => some .decode
  | .decByte _, .idle | .decByte _, .count | .decByte _, .load | .decByte _, .ready | .decByte _, .pack => none
  | .decEnd, .decode => some .ready
  | .decEnd, .idle | .decEnd, .count | .decEnd, .load | .decEnd, .ready | .decEnd, .pack => none
  | .cblOpen _, .idle | .cblOpen _, .load => some .load
  | .cblOpen _, .count | .cblOpen _, .ready | .cblOpen _, .pack | .cblOpen _, .decode => none
  | .cblBit _, .load => some .load
  | .cblBit _, .idle | .cblBit _, .count | .cblBit _, .ready | .cblBit _, .pack | .cblBit _, .decode => none
  | .cblClose, .load => some .load
  | .cblClose, .idle | .cblClose, .count | .cblClose, .ready | .cblClose, .pack | .cblClose, .decode => none
  | .cblEnd, .idle | .cblEnd, .load => some .ready
  | .cblEnd, .count | .cblEnd, .ready | .cblEnd, .pack | .cblEnd, .decode => none

/-- The value of `OPENV` a command needs (10_state.md R24); `none` where the table asks for none. -/
def neededOpenv : Instr → Option Bool
  | .cblOpen _ => some false
  | .cblBit _ => some true
  | .cblClose => some true
  | .cblEnd => some false
  | .nop => none
  | .clear => none
  | .cntSym _ => none
  | .build => none
  | .packBegin => none
  | .packSym _ => none
  | .packEnd => none
  | .decBegin _ => none
  | .decByte _ => none
  | .decEnd => none

/-- The command is admitted in the current `PHASE` and `OPENV` (10_state.md R24; 30_encoding.md R94 step 4). -/
def admitted (i : Instr) (s : State) : Bool :=
  (nextPhase i s.phase).isSome && (match neededOpenv i with | none => true | some v => s.openv == v)

/-! ### Processing a command -/

/-- Goes on with a command's rule after a part of it, unless the part executed `raise` (00_scope.md R12). -/
def Progress.andThen (p : Progress) (k : State → Progress) : Progress :=
  match p with
  | .done s => k s
  | .raised f s => .raised f s

/-- The end of a command's rule: it completed, or the fault it raised is entered with the command's word
(60_exceptions.md R212). -/
def Progress.finish (cmd : CommandWord) : Progress → State
  | .done s => s
  | .raised f s => s.raise f cmd

/-- What every command but `CLEAR` has in common (30_encoding.md R94): discard while faulted (step 2),
admission (step 4), operand range (step 5), and then the command's own rule `body` (step 6). Step 3, the
decoding, gave the command `i`. -/
def processCommand (i : Instr) (body : State → Progress) (s : State) : State :=
  if s.fault.isSome then s
  else if admitted i s = false then s.raise .badPhase (encode i)
  else if operandLegal s.cfg i = false then s.raise .badOperand (encode i)
  else (body s).finish (encode i)

end Sys2Proof.Machine
end

