-- ==== Sys2Proof/Machine/BitPacker.lean ====
section
/-! DEFINITION. The Bit Packer, commands `PACK_BEGIN`, `PACK_SYM`, `PACK_END` (43_bit_packer.md). -/

namespace Sys2Proof.Machine

/-- `PushBit(b)` (43_bit_packer.md R154): the bit enters `PACC` at the bottom; the eighth bit completes the
byte, which is emitted. -/
def State.pushBit (s : State) (b : Bool) : State :=
  let packed : Byte := (s.pacc <<< 1) ||| (BitVec.ofBool b).zeroExtend 8
  if s.pcnt.toNat + 1 = 8 then { s.emitByte packed with pacc := 0#8, pcnt := 0#3 }
  else { s with pacc := packed, pcnt := s.pcnt + 1#3 }

/-- `PushBit` for each bit of a code, the first bit of the code first (43_bit_packer.md R152). -/
def State.pushBits (s : State) (code : BitString) : State := code.foldl State.pushBit s

/-- `PACK_BEGIN` (43_bit_packer.md R150). -/
def execPackBegin (s : State) : Host.Outcome State Fault Refusal :=
  .next (processCommand .packBegin
    (fun t => .done { t with pacc := 0#8, pcnt := 0#3, phase := .pack }) s)

/-- The rule of `PACK_SYM` (43_bit_packer.md R152). -/
def packSymbol (sym : Symbol) (s : State) : Progress :=
  match s.cbFindSym sym with
  | none => .raised .missingCode s
  | some e => .done (s.pushBits e.code)

/-- `PACK_SYM sym` (43_bit_packer.md R152). -/
def execPackSym (arg : Word) (s : State) : Host.Outcome State Fault Refusal :=
  .next (processCommand (.packSym arg) (fun t => packSymbol (symbolOperand t.cfg arg) t) s)

/-- The Padding Count of a bit string whose length modulo 8 is `pcnt` (43_bit_packer.md R156). -/
def paddingFor (pcnt : BitVec 3) : BitVec 3 := BitVec.ofNat 3 ((8 - pcnt.toNat) % 8)

/-- The rule of `PACK_END` (43_bit_packer.md R156): the pending bits are filled up with zeros. -/
def finishPacking (s : State) : State :=
  if s.pcnt.toNat > 0 then
    { (s.emitByte (s.pacc <<< (8 - s.pcnt.toNat))) with
      pad := paddingFor s.pcnt, pacc := 0#8, pcnt := 0#3, phase := .ready }
  else { s with pad := paddingFor s.pcnt, phase := .ready }

/-- `PACK_END` (43_bit_packer.md R156). -/
def execPackEnd (s : State) : Host.Outcome State Fault Refusal :=
  .next (processCommand .packEnd (fun t => .done (finishPacking t)) s)

end Sys2Proof.Machine
end

