-- ==== Sys2Proof/Machine/CodebookLoad.lean ====
section
/-! DEFINITION. Loading a codebook, commands `CBL_OPEN`, `CBL_BIT`, `CBL_CLOSE`, `CBL_END`
(45_codebook_load.md). -/

namespace Sys2Proof.Machine

/-- The rule of `CBL_OPEN` (45_codebook_load.md R190): check 1 is the full table, check 2 the repeated symbol. -/
def openEntry (sym : Symbol) (s : State) : Progress :=
  if s.cbn.toNat = s.cfg.nsym then .raised .tableFull s
  else if (s.cbFindSym sym).isSome then .raised .badCodebook s
  else .done { s with osym := sym, ocode := [], openv := true, phase := .load }

/-- `CBL_OPEN sym` (45_codebook_load.md R190). -/
def execCblOpen (arg : Word) (s : State) : Host.Outcome State Fault Refusal :=
  .next (processCommand (.cblOpen arg) (fun t => openEntry (symbolOperand t.cfg arg) t) s)

/-- The rule of `CBL_BIT` (45_codebook_load.md R191). -/
def appendCodeBit (b : Bool) (s : State) : Progress :=
  if s.ocode.length = s.cfg.maxLen then .raised .badCodebook s
  else .done { s with ocode := s.ocode ++ [b] }

/-- `CBL_BIT b` (45_codebook_load.md R191). -/
def execCblBit (arg : Word) (s : State) : Host.Outcome State Fault Refusal :=
  .next (processCommand (.cblBit arg) (fun t => appendCodeBit (bitOperand arg) t) s)

/-- The rule of `CBL_CLOSE` (45_codebook_load.md R192): check 1 is the empty code, check 2 the repeated code. -/
def closeEntry (s : State) : Progress :=
  if s.ocode = [] then .raised .badCodebook s
  else if (s.cbFindCode s.ocode).isSome then .raised .badCodebook s
  else
    .done { s with
      cb := writeSlot s.cb s.cbn.toNat ⟨s.osym, s.ocode⟩
      cbn := s.cbn + 1#17
      openv := false }

/-- `CBL_CLOSE` (45_codebook_load.md R192). -/
def execCblClose (s : State) : Host.Outcome State Fault Refusal :=
  .next (processCommand .cblClose closeEntry s)

/-- `CBL_END` (45_codebook_load.md R193). -/
def execCblEnd (s : State) : Host.Outcome State Fault Refusal :=
  .next (processCommand .cblEnd (fun t => .done { t with phase := .ready }) s)

end Sys2Proof.Machine
end

