-- ==== Sys2Proof/Machine/Control.lean ====
section
/-! DEFINITION. The control commands `NOP` and `CLEAR` (40_control.md). -/

namespace Sys2Proof.Machine

/-- `NOP` (40_control.md R110): nothing. -/
def execNop (s : State) : Host.Outcome State Fault Refusal :=
  .next (processCommand .nop (fun t => .done t) s)

/-- `CLEAR` (40_control.md R111), executed whatever `FAULT` holds (30_encoding.md R94 step 1). -/
def execClear (s : State) : Host.Outcome State Fault Refusal :=
  .next s.clear

end Sys2Proof.Machine
end

