-- ==== Sys2Proof/Machine/Decoder.lean ====
section
/-! DEFINITION. The Bit Unpacker and the decode walk engine, commands `DEC_BEGIN`, `DEC_BYTE`, `DEC_END`
(44_unpacker_decoder.md). -/

namespace Sys2Proof.Machine

/-- The bits of a byte, most-significant bit first (20_memory.md R69). -/
def byteBits (v : Byte) : BitString := [7, 6, 5, 4, 3, 2, 1, 0].map fun k => v.getLsbD k

/-- `FeedBit(b)` (44_unpacker_decoder.md R172). -/
def State.feedBit (b : Bool) (s : State) : Progress :=
  if s.acc.length = s.cfg.maxLen then .raised .malformedStream s
  else
    match s.cbFindCode (s.acc ++ [b]) with
    | some e => .done { s.emitSym e.sym with acc := [] }
    | none => .done { s with acc := s.acc ++ [b] }

/-- `FeedBit` for each bit in order; a fault ends the loop at that bit (44_unpacker_decoder.md R174). -/
def State.feedBits : BitString → State → Progress
  | [], s => .done s
  | b :: bs, s => (s.feedBit b).andThen (State.feedBits bs)

/-- `DEC_BEGIN pad` (44_unpacker_decoder.md R170). -/
def execDecBegin (arg : Word) (s : State) : Host.Outcome State Fault Refusal :=
  .next (processCommand (.decBegin arg)
    (fun t => .done { t with
      pad := paddingOperand arg, hold := 0#8, holdv := false, acc := [], phase := .decode }) s)

/-- The rule of `DEC_BYTE` (44_unpacker_decoder.md R174): the held byte is fed, then the new one is held. -/
def decodeByte (v : Byte) (s : State) : Progress :=
  (if s.holdv then s.feedBits (byteBits s.hold) else .done s).andThen
    fun t => .done { t with hold := v, holdv := true }

/-- `DEC_BYTE byte` (44_unpacker_decoder.md R174). -/
def execDecByte (arg : Word) (s : State) : Host.Outcome State Fault Refusal :=
  .next (processCommand (.decByte arg) (fun t => decodeByte (byteOperand arg) t) s)

/-- Steps 1 and 2 of 44_unpacker_decoder.md R176: the held byte without its padding is fed, or, with no byte at
all, declared padding is malformed. -/
def feedLastByte (s : State) : Progress :=
  if s.holdv then
    (s.feedBits ((byteBits s.hold).take (8 - s.pad.toNat))).andThen fun t => .done { t with holdv := false }
  else if s.pad.toNat > 0 then .raised .malformedStream s
  else .done s

/-- The rule of `DEC_END` (44_unpacker_decoder.md R176). -/
def finishDecoding (s : State) : Progress :=
  (feedLastByte s).andThen fun t =>
    if t.acc = [] then .done { t with phase := .ready } else .raised .malformedStream t

/-- `DEC_END` (44_unpacker_decoder.md R176). -/
def execDecEnd (s : State) : Host.Outcome State Fault Refusal :=
  .next (processCommand .decEnd finishDecoding s)

end Sys2Proof.Machine
end

