-- ==== Sys2Proof/Machine/FrequencyCounter.lean ====
section
/-! DEFINITION. The Frequency Counter, command `CNT_SYM` (41_frequency_counter.md). -/

namespace Sys2Proof.Machine

/-- The rule of `CNT_SYM` (41_frequency_counter.md R120): check 1 is the overflow, check 2 the full table. -/
def countSymbol (sym : Symbol) (s : State) : Progress :=
  if s.total = s.cfg.cntMax then .raised .countOverflow s
  else
    match s.ftFind sym with
    | none =>
      if s.ftn.toNat = s.cfg.nsym then .raised .tableFull s
      else
        .done { s with
          ft := writeSlot s.ft s.ftn.toNat ⟨sym, 1#32⟩
          ftn := s.ftn + 1#17
          total := s.cfg.addCount s.total 1#32
          phase := .count }
    | some i =>
      .done { s with
        ft := s.ft.modify i (fun x => { x with count := s.cfg.addCount x.count 1#32 })
        total := s.cfg.addCount s.total 1#32
        phase := .count }

/-- `CNT_SYM sym` (41_frequency_counter.md R120). -/
def execCntSym (arg : Word) (s : State) : Host.Outcome State Fault Refusal :=
  .next (processCommand (.cntSym arg) (fun t => countSymbol (symbolOperand t.cfg arg) t) s)

end Sys2Proof.Machine
end

