-- ==== Sys2Proof/Machine/TreeBuilder.lean ====
section
/-! DEFINITION. The Code Tree Builder, command `BUILD` (42_tree_builder.md). -/

namespace Sys2Proof.Machine

/-- The ordered member list of a group (10_state.md R41). -/
def Group.members (g : Group) : List CodeEntry := g.first :: g.others

/-- The selection order (42_tree_builder.md R131): lower weight, or equal weights and a lower first symbol,
both compared as unsigned numbers (log 13). -/
def Group.precedes (x y : Group) : Bool :=
  decide (x.w.toNat < y.w.toNat ∨ (x.w.toNat = y.w.toNat ∧ x.first.sym.toNat < y.first.sym.toNat))

/-- The least group of `g` and `gs` under the selection order, and the groups that remain
(42_tree_builder.md R130 steps 2a and 2b; log 15). -/
def takeLeast (g : Group) : List Group → Group × List Group
  | [] => (g, [])
  | h :: gs =>
    if h.precedes g then ((takeLeast h gs).1, g :: (takeLeast h gs).2)
    else ((takeLeast g gs).1, h :: (takeLeast g gs).2)

/-- `(s, b :: c)` for a member `(s, c)` (42_tree_builder.md R130 step 2c). -/
def prependBit (b : Bool) (e : CodeEntry) : CodeEntry := { e with code := b :: e.code }

/-- The group that replaces A and B (42_tree_builder.md R130 step 2c, R132): the sum of the weights at `CNTW`
bits; A's members with 0 in front of their codes, then B's with 1. -/
def mergeGroups (c : Config) (a b : Group) : Group where
  w := c.addCount a.w b.w
  first := prependBit false a.first
  others := a.others.map (prependBit false) ++ b.members.map (prependBit true)

/-- One pass of the loop (42_tree_builder.md R130 step 2, R132) on a list with more than one group. -/
def mergeLowestTwo (c : Config) : List Group → List Group
  | g :: h :: gs =>
    match takeLeast g (h :: gs) with
    | (a, []) => [a]
    | (a, r :: rs) => mergeGroups c a (takeLeast r rs).1 :: (takeLeast r rs).2
  | gs => gs

/-- The loop of 42_tree_builder.md R130 step 2: it runs while more than one group remains. `fuel` bounds the
number of passes, and as many passes as there are groups are enough (R133). -/
def mergeLoop (c : Config) : Nat → List Group → List Group
  | 0, gl => gl
  | fuel + 1, gl => if gl.length > 1 then mergeLoop c fuel (mergeLowestTwo c gl) else gl

/-- Step 1 of 42_tree_builder.md R130: one group for each valid slot of `FT`, its weight the count, the code so
far empty. -/
def initialGroups (slots : List FtSlot) : List Group :=
  slots.map fun x => ⟨x.count, ⟨x.sym, []⟩, []⟩

/-- Step 3 of 42_tree_builder.md R130: the members of the one group left become the slots of `CB` in their
order (R135). -/
def State.commitCodebook (s : State) : State :=
  { s with
    cb := s.gl.flatMap Group.members ++ s.cb.drop (s.gl.flatMap Group.members).length
    cbn := s.ftn
    gl := [] }

/-- The rule of `BUILD` (42_tree_builder.md R130): empty input (R136), single-symbol alphabet (R134), or the
greedy merge. The three cases are those of `FTN` = 0, 1 and more (log 14). -/
def buildCodebook (s : State) : State :=
  match s.ftValid with
  | [] => { s with cbn := 0#17, phase := .ready }
  | [x] => { s with cb := writeSlot s.cb 0 ⟨x.sym, [false]⟩, cbn := 1#17, phase := .ready }
  | x :: y :: slots =>
    let s := { s with gl := initialGroups (x :: y :: slots) }
    let s := { s with gl := mergeLoop s.cfg s.gl.length s.gl }
    let s := s.commitCodebook
    { s with phase := .ready }

/-- `BUILD` (42_tree_builder.md R130). -/
def execBuild (s : State) : Host.Outcome State Fault Refusal :=
  .next (processCommand .build (fun t => .done (buildCodebook t)) s)

end Sys2Proof.Machine
end

