-- ==== Sys2Proof/Machine/Dispatch.lean ====
section
/-! DEFINITION. One arm for each command of the opcode table (30_encoding.md R92). -/

namespace Sys2Proof.Machine

/-- The meaning of a decoded command in a state (30_encoding.md R94 steps 1, 2, 4, 5 and 6). -/
def exec (i : Instr) (s : State) : Host.Outcome State Fault Refusal :=
  match i with
  | .nop => Sys2Proof.Machine.execNop s
  | .clear => Sys2Proof.Machine.execClear s
  | .cntSym arg => Sys2Proof.Machine.execCntSym arg s
  | .build => Sys2Proof.Machine.execBuild s
  | .packBegin => Sys2Proof.Machine.execPackBegin s
  | .packSym arg => Sys2Proof.Machine.execPackSym arg s
  | .packEnd => Sys2Proof.Machine.execPackEnd s
  | .decBegin arg => Sys2Proof.Machine.execDecBegin arg s
  | .decByte arg => Sys2Proof.Machine.execDecByte arg s
  | .decEnd => Sys2Proof.Machine.execDecEnd s
  | .cblOpen arg => Sys2Proof.Machine.execCblOpen arg s
  | .cblBit arg => Sys2Proof.Machine.execCblBit arg s
  | .cblClose => Sys2Proof.Machine.execCblClose s
  | .cblEnd => Sys2Proof.Machine.execCblEnd s

end Sys2Proof.Machine
end

