-- ==== Sys2Proof/Machine/Flags.lean ====
section
/-! DEFINITION. The flags (10_state.md R25), the codes of phases and faults (R23; 60_exceptions.md R210), the
word `STATUS` (R27) and the pin `fault_o` (20_memory.md R60). -/

namespace Sys2Proof.Machine

/-- The value of `PHASE` (10_state.md R23). -/
def Phase.code : Phase → BitVec 3
  | .idle => 0#3
  | .count => 1#3
  | .load => 2#3
  | .ready => 3#3
  | .pack => 4#3
  | .decode => 5#3

/-- The code of a fault (60_exceptions.md R210). -/
def FaultCode.code : FaultCode → BitVec 4
  | .illegalCmd => 1#4
  | .badPhase => 2#4
  | .badOperand => 3#4
  | .tableFull => 4#4
  | .countOverflow => 5#4
  | .badCodebook => 6#4
  | .missingCode => 7#4
  | .malformedStream => 8#4

/-- `FAULT[3:0]`: 0 while there is no fault (10_state.md R28). -/
def State.faultValue (s : State) : BitVec 4 :=
  match s.fault with
  | none => 0#4
  | some f => f.code

/-- The phases in which the codebook is complete (10_state.md R23, R25). -/
def Phase.codebookComplete : Phase → Bool
  | .idle => false
  | .count => false
  | .load => false
  | .ready => true
  | .pack => true
  | .decode => true

/-- The flag `EMPTY` (10_state.md R25): the codebook is complete and has no entry. -/
def State.emptyFlag (s : State) : Bool := s.phase.codebookComplete && s.cbn == 0#17

/-- The flag `FAULTED` (10_state.md R25): `FAULT` is not 0. -/
def State.faultedFlag (s : State) : Bool := s.faultValue != 0#4

/-- The output pin `fault_o` (20_memory.md R60; 60_exceptions.md R216). -/
def State.faultPin (s : State) : Bool := s.faultedFlag

/-- `STATUS` (10_state.md R27): bits [2:0] `PHASE`, [3] `OPENV`, [4] `HOLDV`, [5] `EMPTY`, [6] `FAULTED`. -/
def State.statusWord (s : State) : Word :=
  0#25 ++ BitVec.ofBool s.faultedFlag ++ BitVec.ofBool s.emptyFlag ++ BitVec.ofBool s.holdv
    ++ BitVec.ofBool s.openv ++ s.phase.code

end Sys2Proof.Machine
end

