-- ==== Sys2Proof/Machine/RegisterSpace.lean ====
section
/-! DEFINITION. The read-only register space `RS` (20_memory.md R62 to R68; 10_state.md R26 to R39) and the
host's side of the output streams (20_memory.md R60). -/

namespace Sys2Proof.Machine

/-- The fifteen control and status registers by word address (10_state.md R26 to R34); `none` above 0xE. -/
def registerWord (s : State) (address : Nat) : Option Word :=
  match address with
  | 0x0 => some s.statusWord
  | 0x1 => some (s.faultValue.zeroExtend 32)
  | 0x2 => some (s.fcmd.extractLsb' 0 32)
  | 0x3 => some (s.fcmd.extractLsb' 32 32)
  | 0x4 => some (s.ftn.zeroExtend 32)
  | 0x5 => some s.total
  | 0x6 => some (s.cbn.zeroExtend 32)
  | 0x7 => some (s.pad.zeroExtend 32)
  | 0x8 => some (0#21 ++ s.pcnt ++ s.pacc)
  | 0x9 => some (s.hold.zeroExtend 32)
  | 0xA => some (BitVec.ofNat 32 s.acc.length)
  | 0xB => some s.osym
  | 0xC => some (BitVec.ofNat 32 s.ocode.length)
  | 0xD => some (0#18 ++ BitVec.ofNat 6 s.cfg.cntw ++ 0#2 ++ BitVec.ofNat 6 s.cfg.symw)
  | 0xE => some (BitVec.ofNat 16 s.cfg.maxLen ++ BitVec.ofNat 16 s.cfg.nsym)
  | _ => none

/-- The first word address of the `FT` window (20_memory.md R62). -/
def ftBase : Nat := 0x00010000

/-- The first word address of the `CB` window (20_memory.md R62). -/
def cbBase : Nat := 0x01000000

/-- The word at `offset` (0 or 1) of a slot in the `FT` window (10_state.md R36). -/
def ftSlotWord (x : FtSlot) (offset : Nat) : Word := if offset = 0 then x.sym else x.count

/-- Word `+2+k` of a slot in the `CB` window (10_state.md R39): code bit `32*k + r` is bit `31 - r`, and a
position beyond the code reads 0. -/
def codeWord (code : BitString) (k : Nat) : Word :=
  BitVec.ofFnLE fun p : Fin 32 => code.getD (32 * k + (31 - p.val)) false

/-- The word at `offset` (0 to `CBSTRIDE - 1`) of a slot in the `CB` window (10_state.md R39). -/
def cbSlotWord (e : CodeEntry) (offset : Nat) : Word :=
  if offset = 0 then e.sym
  else if offset = 1 then BitVec.ofNat 32 e.code.length
  else codeWord e.code (offset - 2)

/-- The word the spec gives for a read of word address `a`, or `none` where it leaves the word unspecified:
the words of a slot beyond the valid count (20_memory.md R64, R66, R68). -/
def registerRead (s : State) (a : Word) : Option Word :=
  let n := a.toNat
  if n ≤ 0xE then registerWord s n
  else if ftBase ≤ n ∧ n < ftBase + 2 * s.cfg.nsym then
    s.ftValid[(n - ftBase) / 2]?.map fun x => ftSlotWord x ((n - ftBase) % 2)
  else if cbBase ≤ n ∧ n < cbBase + s.cfg.nsym * s.cfg.cbStride then
    s.cbValid[(n - cbBase) / s.cfg.cbStride]?.map fun e => cbSlotWord e ((n - cbBase) % s.cfg.cbStride)
  else some 0#32

/-- `RegRead(a)` (20_memory.md R64). An unspecified word is the free draw of the current number (R68;
log 5). -/
def regRead (s : State) (a : Word) : Word := (registerRead s a).getD (Config.freeWord s.draws)

/-- A transfer at the read port (20_memory.md R60, R74): the word is handed to the host. No element of the
block's state changes (R65); a free draw is used up (log 5). -/
def serveRead (a : Word) (s : State) : State :=
  { s with
    rdOut := s.rdOut ++ [regRead s a]
    draws := if (registerRead s a).isSome then s.draws else s.draws + 1 }

/-- The byte a host that has already taken `taken` bytes takes next from the stream port `BYTE_OUT`
(20_memory.md R60); `none` while the port offers nothing. -/
def byteOutItem (s : State) (taken : Nat) : Option Byte := s.byteOut[taken]?

/-- The symbol a host that has already taken `taken` symbols takes next from the stream port `SYM_OUT`
(20_memory.md R60); `none` while the port offers nothing. -/
def symOutItem (s : State) (taken : Nat) : Option Symbol := s.symOut[taken]?

end Sys2Proof.Machine
end

