-- ==== Sys2Proof/Machine/Ports.lean ====
section
/-! DEFINITION. What the block does with a command word, and with each action of the host
(30_encoding.md R94; 20_memory.md R60, R74, R75). -/

namespace Sys2Proof.Machine

/-- A word that matches no row (30_encoding.md R94 steps 2 and 3): discarded while faulted, otherwise
`ILLEGAL_CMD` (R95). -/
def refuseWord (w : CommandWord) (s : State) : State :=
  if s.fault.isSome then s else s.raise .illegalCmd w

/-- The processing of a command word the command port accepted (30_encoding.md R94). A word that decodes is
executed as the command it stands for; `exec` performs the steps 1, 2, 4, 5 and 6 (log 17). -/
def acceptCommand (w : CommandWord) (s : State) : Host.Outcome State Fault Refusal :=
  match decode w with
  | .ok i => exec i s
  | .error _ => .next (refuseWord w s)

/-- One action of the host, carried out (20_memory.md R75). -/
def serve (a : HostAction) (s : State) : Host.Outcome State Fault Refusal :=
  match a with
  | .command w => acceptCommand w s
  | .read address => .next (serveRead address s)
  | .reset => .next s.resetPin

/-- The block with nothing to do waits and keeps all state (60_exceptions.md R230; log 3). -/
def waitForHost (s : State) : Host.Outcome State Fault Refusal := .next s

/-- The command word `w` placed as the host's next action (log 2). -/
def placeCommand (w : CommandWord) (s : State) : State := { s with host := .command w :: s.host }

end Sys2Proof.Machine
end

