-- ==== Sys2Proof/Machine/Step.lean ====
section
/-! DEFINITION. One step: the host's next action is taken from the pending ones and carried out completely
(00_scope.md R7; 20_memory.md R73, R74). -/

namespace Sys2Proof.Machine

/-- One step of the machine (00_scope.md R7). -/
def step (s : State) : Host.Outcome State Fault Refusal :=
  match s.host with
  | [] => waitForHost s
  | a :: rest => serve a { s with host := rest }

/-- The state with the command word `w` waiting at the command port, so that the next step accepts it. A
command is one 64-bit word, so the number of its table bits does not matter (log 2, log 20). -/
def State.withFetchWord (s : State) (_nbits w : Nat) : State := placeCommand (BitVec.ofNat 64 w) s

end Sys2Proof.Machine
end

