-- ==== Sys2Proof/Machine/Pseudo.lean ====
section
/-! DEFINITION. The pseudo-instructions of the assembler notation, as their exact expansions (30_encoding.md
R101), and the canonical sequences made of them (70_reset_and_hazards.md R243). The block sees only the
commands they expand to. -/

namespace Sys2Proof.Pseudo

/-- `CNT_STR "s1 ... sn"` (30_encoding.md R101). -/
def cntStr (text : List Word) : List Instr := text.map .cntSym

/-- `PACK_STR "s1 ... sn"` (30_encoding.md R101). -/
def packStr (text : List Word) : List Instr := text.map .packSym

/-- `DEC_BYTES b1, ..., bn` (30_encoding.md R101). -/
def decBytes (bytes : List Byte) : List Instr := bytes.map fun v => .decByte (v.zeroExtend 32)

/-- `CBL_BIT b` for a bit of a code. -/
def cblBit (b : Bool) : Instr := .cblBit ((BitVec.ofBool b).zeroExtend 32)

/-- `CBL_ENTRY sym, "c0 ... ck"` (30_encoding.md R101). -/
def cblEntry (sym : Word) (code : BitString) : List Instr := .cblOpen sym :: code.map cblBit ++ [.cblClose]

/-- `ENCODE "text"` (30_encoding.md R101). -/
def encodeText (text : List Word) : List Instr :=
  cntStr text ++ .build :: .packBegin :: packStr text ++ [.packEnd]

/-- `DECODE pad, b1, ..., bn` (30_encoding.md R101). -/
def decodeBytes (pad : BitVec 3) (bytes : List Byte) : List Instr :=
  .decBegin (pad.zeroExtend 32) :: decBytes bytes ++ [.decEnd]

/-- The load of a codebook: `CBL_ENTRY` for every pair, then `CBL_END` (45_codebook_load.md R196). -/
def loadCodebook (entries : List Sys2Proof.Machine.CodeEntry) : List Instr :=
  entries.flatMap (fun e => cblEntry e.sym e.code) ++ [.cblEnd]

end Sys2Proof.Pseudo
end

