-- ==== Sys2Proof/Safety.lean ====
section
/-! DEFINITION. The terms claims are stated in: runs of command words, the invariants the spec calls true in
every reachable state (10_state.md R37, R40, R41, R47), the bit strings behind the packer and the decoder,
and the groups of state elements that frames speak of. -/

namespace Sys2Proof.Machine

/-! ### Runs -/

/-- The command words, accepted one after another (20_memory.md R73). A fault of the block is a next state, so
the run goes on; the words after it are discarded (60_exceptions.md R214). -/
def runWords : List CommandWord → State → Host.Outcome State Fault Refusal
  | [], s => .next s
  | w :: ws, s =>
    match acceptCommand w s with
    | .next t => runWords ws t
    | .fault r => .fault r
    | .refused r => .refused r

/-- The words of a list of commands, accepted one after another. -/
def runInstrs (is : List Instr) (s : State) : Host.Outcome State Fault Refusal := runWords (is.map encode) s

/-- A safe run: the commands complete and leave no fault (70_reset_and_hazards.md R250). -/
def RunsWithoutFault (is : List Instr) (s t : State) : Prop := runInstrs is s = .next t ∧ t.fault = none

/-! ### Bit strings -/

/-- No code is a prefix of another one (42_tree_builder.md R137). -/
abbrev PrefixFree (codes : List BitString) : Prop := codes.Pairwise fun c d => ¬ c <+: d ∧ ¬ d <+: c

/-- The bits collected since the last emitted byte, first one first: the low `PCNT` bits of `PACC`
(10_state.md R32). -/
def State.pendingBits (s : State) : BitString := (byteBits s.pacc).drop (8 - s.pcnt.toNat)

/-- The bitstream of the packer: the bits of all emitted bytes and then the pending ones (20_memory.md R69). -/
def State.packedBits (s : State) : BitString := s.byteOut.flatMap byteBits ++ s.pendingBits

/-- The bits of the held byte that a decode command feeds when it drops the last `dropped` of them: `DEC_BYTE` drops
none, `DEC_END` drops `PAD`; none at all while no byte is held (44_unpacker_decoder.md R174, R176). -/
def State.heldBits (s : State) (dropped : Nat) : BitString :=
  if s.holdv then (byteBits s.hold).take (8 - dropped) else []

/-- The greedy parse of a bit string into codebook entries (44_unpacker_decoder.md R172): the shortest entry
that equals a prefix of the remaining bits wins, and at the end at most `maxLen` bits are left that no
entry is a prefix of. `GreedyParse book maxLen bits syms left`: the parse of `bits` gives the symbols
`syms` and leaves the bits `left`. -/
inductive GreedyParse (book : List CodeEntry) (maxLen : Nat) : BitString → List Symbol → BitString → Prop where
  | rest (left : BitString) (fits : left.length ≤ maxLen) (unmatched : ∀ e ∈ book, ¬ e.code <+: left) :
      GreedyParse book maxLen left [] left
  | symbol (e : CodeEntry) (bits : BitString) (syms : List Symbol) (left : BitString) (entry : e ∈ book)
      (shortest : ∀ d ∈ book, d.code <+: e.code → d.code = e.code)
      (tail : GreedyParse book maxLen bits syms left) :
      GreedyParse book maxLen (e.code ++ bits) (e.sym :: syms) left

/-! ### The head of a command's rule -/

/-- The head of the rule of a command: its word, the phases and the values of `OPENV` that admit it, and the
number of values of its operand (40_control.md, template of the command rules; 30_encoding.md R96, R97). A
command without operand is never out of range. -/
structure CommandHeader (i : Instr) (w : CommandWord) (phases : List Phase) (openv : List Bool)
    (bound : Config → Nat) : Prop where
  word : encode i = w
  admission : ∀ s : State, s.fault = none → ¬ (s.phase ∈ phases ∧ s.openv ∈ openv) →
    exec i s = .next { s with fault := some .badPhase, fcmd := w }
  operand : ∀ s : State, s.fault = none → s.phase ∈ phases → s.openv ∈ openv → bound s.cfg ≤ i.arg.toNat →
    exec i s = .next { s with fault := some .badOperand, fcmd := w }

/-! ### The merge -/

/-- The selection order of 42_tree_builder.md R131, as the rule words it. -/
def SelectedBefore (x y : Group) : Prop :=
  x.w.toNat < y.w.toNat ∨ (x.w.toNat = y.w.toNat ∧ x.first.sym.toNat < y.first.sym.toNat)

/-- The greedy merge as 42_tree_builder.md R130 words it, with no order of the groups in the list:
`GreedyMerge c groups final`: while more than one group remains, the least group A and then the least group B of the
rest are taken out, and the merged group is put in; `final` is the one group left. -/
inductive GreedyMerge (c : Config) : List Group → Group → Prop where
  | last (g : Group) : GreedyMerge c [g] g
  | merge (groups : List Group) (a b merged : Group) (rest : List Group) (final : Group)
      (removed : groups.Perm (a :: b :: rest)) (leastA : ∀ x ∈ b :: rest, SelectedBefore a x)
      (leastB : ∀ x ∈ rest, SelectedBefore b x) (weight : merged.w.toNat = a.w.toNat + b.w.toNat)
      (members : merged.members = a.members.map (fun e => ⟨e.sym, false :: e.code⟩) ++
        b.members.map (fun e => ⟨e.sym, true :: e.code⟩))
      (next : GreedyMerge c (merged :: rest) final) : GreedyMerge c groups final

/-! ### Invariants -/

/-- The model's tables reach at least to the valid count (log 6). -/
structure TablesStored (s : State) : Prop where
  ft : s.ftn.toNat ≤ s.ft.length
  cb : s.cbn.toNat ≤ s.cb.length
  ftCapacity : s.ft.length ≤ s.cfg.nsym
  cbCapacity : s.cb.length ≤ s.cfg.nsym

/-- The Frequency Table (10_state.md R37 (a) to (d)). -/
structure FrequencyTableOk (s : State) : Prop where
  distinct : (s.ftValid.map FtSlot.sym).Nodup
  counts : ∀ x ∈ s.ftValid, 1 ≤ x.count.toNat ∧ x.count.toNat ≤ s.total.toNat
  sum : (s.ftValid.map fun x => x.count.toNat).sum = s.total.toNat
  size : s.ftn.toNat ≤ min s.cfg.nsym s.total.toNat
  empty : s.ftn = 0#17 ↔ s.total = 0#32

/-- The Codebook (10_state.md R40 (a) to (c)), and what `CBL_OPEN` has checked for the open entry
(45_codebook_load.md R190, R192). -/
structure CodebookOk (s : State) : Prop where
  distinctSyms : (s.cbValid.map CodeEntry.sym).Nodup
  distinctCodes : (s.cbValid.map CodeEntry.code).Nodup
  lengths : ∀ e ∈ s.cbValid, e.code ≠ [] ∧ e.code.length ≤ s.cfg.maxLen
  size : s.cbn.toNat ≤ s.cfg.nsym
  openEntry : s.openv = true → s.cbn.toNat < s.cfg.nsym ∧ ∀ e ∈ s.cbValid, e.sym ≠ s.osym

/-- A codebook that `BUILD` produced (10_state.md R40 (d)). After a load `FTN` is 0 (R47). -/
structure BuiltCodebookOk (s : State) : Prop where
  size : s.phase.codebookComplete = true → s.ftn ≠ 0#17 → s.cbn = s.ftn
  sameSyms : s.phase.codebookComplete = true → s.ftn ≠ 0#17 →
    (s.cbValid.map CodeEntry.sym).Perm (s.ftValid.map FtSlot.sym)
  prefixFree : s.phase.codebookComplete = true → s.ftn ≠ 0#17 → PrefixFree (s.cbValid.map CodeEntry.code)

/-- The phase invariants (10_state.md R47). -/
structure PhaseOk (s : State) : Prop where
  packer : s.phase ≠ .pack → s.pcnt = 0#3 ∧ s.pacc = 0#8
  unpacker : s.phase ≠ .decode → s.holdv = false ∧ s.acc = []
  load : s.phase ≠ .load → s.openv = false
  frequency : s.phase = .idle ∨ s.phase = .load → s.ftn = 0#17 ∧ s.total = 0#32
  codebook : s.phase = .idle ∨ s.phase = .count → s.cbn = 0#17
  pending : s.pacc.toNat < 2 ^ s.pcnt.toNat

/-- Every value fits its register (10_state.md R20; log 7). -/
structure WidthsOk (s : State) : Prop where
  total : s.total.toNat < 2 ^ s.cfg.cntw
  ftSyms : ∀ x ∈ s.ftValid, x.sym.toNat < 2 ^ s.cfg.symw
  cbSyms : ∀ e ∈ s.cbValid, e.sym.toNat < 2 ^ s.cfg.symw
  osym : s.osym.toNat < 2 ^ s.cfg.symw
  symOut : ∀ v ∈ s.symOut, v.toNat < 2 ^ s.cfg.symw
  acc : s.acc.length ≤ s.cfg.maxLen
  ocode : s.ocode.length ≤ s.cfg.maxLen

/-- The latches the tables of 10_state.md do not mention: `GL` is empty between commands (R41), `FCMD` is 0
while there is no fault (R29), and no entry is a prefix of the accumulator (44_unpacker_decoder.md R172). -/
structure LatchesOk (s : State) : Prop where
  groups : s.gl = []
  fcmd : s.fault = none → s.fcmd = 0#64
  unmatched : ∀ e ∈ s.cbValid, ¬ e.code <+: s.acc

/-- The invariant of the machine. -/
structure State.Inv (s : State) : Prop where
  stored : TablesStored s
  frequencyTable : FrequencyTableOk s
  codebook : CodebookOk s
  built : BuiltCodebookOk s
  phase : PhaseOk s
  widths : WidthsOk s
  latches : LatchesOk s

/-! ### Groups of state elements, for frames -/

/-- The configuration and the host's side of the ports are the same. -/
def SameHostSide (s t : State) : Prop :=
  t.cfg = s.cfg ∧ t.host = s.host ∧ t.rdOut = s.rdOut ∧ t.draws = s.draws

/-- `FT`, `FTN` and `TOTAL` are the same. -/
def SameFrequencyTable (s t : State) : Prop := t.ft = s.ft ∧ t.ftn = s.ftn ∧ t.total = s.total

/-- `CB` and `CBN` are the same. -/
def SameCodebook (s t : State) : Prop := t.cb = s.cb ∧ t.cbn = s.cbn

/-- `PACC` and `PCNT` are the same. -/
def SamePacker (s t : State) : Prop := t.pacc = s.pacc ∧ t.pcnt = s.pcnt

/-- `HOLD`, `HOLDV` and `ACC` are the same. -/
def SameUnpacker (s t : State) : Prop := t.hold = s.hold ∧ t.holdv = s.holdv ∧ t.acc = s.acc

/-- `OSYM`, `OCODE` and `OPENV` are the same. -/
def SameLoadLatches (s t : State) : Prop := t.osym = s.osym ∧ t.ocode = s.ocode ∧ t.openv = s.openv

/-- `BYTE_OUT` and `SYM_OUT` are the same. -/
def SameStreams (s t : State) : Prop := t.byteOut = s.byteOut ∧ t.symOut = s.symOut

/-- `FAULT` and `FCMD` are the same. -/
def SameFaultRegisters (s t : State) : Prop := t.fault = s.fault ∧ t.fcmd = s.fcmd

end Sys2Proof.Machine
end

