-- ==== Sys2Proof/Certificates/Slice0/Obligations.lean ====
section
/-! DEFINITION. The statements for the provers. Each docstring names the rule of spec/ it follows. -/

section

open Sys2Proof Sys2Proof.Machine

/-! ### Decoding and encoding -/

/-- Words written out from 30_encoding.md R90 and R92 decode to the commands they stand for, one for each
family. -/
def Obligations.CommandWordsDecodeToTheirCommands : Prop :=
  decode 0x0000000000000000#64 = .ok .nop ∧
  decode 0x0100000000000000#64 = .ok .clear ∧
  decode 0x1000000000000061#64 = .ok (.cntSym 0x61#32) ∧
  decode 0x2000000000000000#64 = .ok .build ∧
  decode 0x31000000FFFFFFFF#64 = .ok (.packSym 0xFFFFFFFF#32) ∧
  decode 0x4000000000000004#64 = .ok (.decBegin 4#32) ∧
  decode 0x4200000000000000#64 = .ok .decEnd ∧
  decode 0x5100000000000001#64 = .ok (.cblBit 1#32) ∧
  decode 0x0200000000000000#64 = .error .unassignedOp ∧
  decode 0x1000000100000061#64 = .error .reservedNotZero ∧
  decode 0x2000000000000001#64 = .error .operandNotZero

/-- 30_encoding.md R92: a word decodes to a command exactly when it matches the command's row by mask and
pattern, with `arg` the low 32 bits, and no word matches two rows. -/
def Obligations.DecodingFollowsTheOpcodeMap : Prop :=
  (∀ w : CommandWord,
    (decode w = .ok .nop ↔ w &&& 0xFFFFFFFFFFFFFFFF#64 = 0x0000000000000000#64) ∧
    (decode w = .ok .clear ↔ w &&& 0xFFFFFFFFFFFFFFFF#64 = 0x0100000000000000#64) ∧
    (∀ a, decode w = .ok (.cntSym a) ↔
      w &&& 0xFFFFFFFF00000000#64 = 0x1000000000000000#64 ∧ a = w.extractLsb' 0 32) ∧
    (decode w = .ok .build ↔ w &&& 0xFFFFFFFFFFFFFFFF#64 = 0x2000000000000000#64) ∧
    (decode w = .ok .packBegin ↔ w &&& 0xFFFFFFFFFFFFFFFF#64 = 0x3000000000000000#64) ∧
    (∀ a, decode w = .ok (.packSym a) ↔
      w &&& 0xFFFFFFFF00000000#64 = 0x3100000000000000#64 ∧ a = w.extractLsb' 0 32) ∧
    (decode w = .ok .packEnd ↔ w &&& 0xFFFFFFFFFFFFFFFF#64 = 0x3200000000000000#64) ∧
    (∀ a, decode w = .ok (.decBegin a) ↔
      w &&& 0xFFFFFFFF00000000#64 = 0x4000000000000000#64 ∧ a = w.extractLsb' 0 32) ∧
    (∀ a, decode w = .ok (.decByte a) ↔
      w &&& 0xFFFFFFFF00000000#64 = 0x4100000000000000#64 ∧ a = w.extractLsb' 0 32) ∧
    (decode w = .ok .decEnd ↔ w &&& 0xFFFFFFFFFFFFFFFF#64 = 0x4200000000000000#64) ∧
    (∀ a, decode w = .ok (.cblOpen a) ↔
      w &&& 0xFFFFFFFF00000000#64 = 0x5000000000000000#64 ∧ a = w.extractLsb' 0 32) ∧
    (∀ a, decode w = .ok (.cblBit a) ↔
      w &&& 0xFFFFFFFF00000000#64 = 0x5100000000000000#64 ∧ a = w.extractLsb' 0 32) ∧
    (decode w = .ok .cblClose ↔ w &&& 0xFFFFFFFFFFFFFFFF#64 = 0x5200000000000000#64) ∧
    (decode w = .ok .cblEnd ↔ w &&& 0xFFFFFFFFFFFFFFFF#64 = 0x5300000000000000#64)) ∧
  opcodeTable.Pairwise fun r q => ∀ w : CommandWord, ¬ (w &&& r.mask = r.pattern ∧ w &&& q.mask = q.pattern)

/-- 30_encoding.md R90, R92: every command, with every operand, decodes from its own word. -/
def Obligations.EncodedCommandsDecodeToThemselves : Prop :=
  ∀ i : Instr, decode (encode i) = .ok i

/-- 30_encoding.md R98: no command has two words. -/
def Obligations.EveryCommandHasOneWord : Prop :=
  ∀ (w : CommandWord) (i : Instr), decode w = .ok i → encode i = w

/-- 30_encoding.md R95: `ILLEGAL_CMD` is raised for an unassigned `op`, a non-zero `rsv`, or a non-zero `arg` on
a command without operand, for no other word, and changes nothing but `FAULT` and `FCMD`. -/
def Obligations.IllegalWordsRaiseIllegalCmd : Prop :=
  (∀ w : CommandWord,
    (∃ e, decode w = .error e) ↔
      w.extractLsb' 56 8 ∉ [0x00#8, 0x01#8, 0x10#8, 0x20#8, 0x30#8, 0x31#8, 0x32#8, 0x40#8, 0x41#8, 0x42#8,
        0x50#8, 0x51#8, 0x52#8, 0x53#8] ∨
      w.extractLsb' 32 24 ≠ 0#24 ∨
      (w.extractLsb' 56 8 ∈ [0x00#8, 0x01#8, 0x20#8, 0x30#8, 0x32#8, 0x42#8, 0x52#8, 0x53#8] ∧
        w.extractLsb' 0 32 ≠ 0#32)) ∧
  (∀ (w : CommandWord) (s : State), (∃ e, decode w = .error e) → s.fault = none →
    acceptCommand w s = .next { s with fault := some .illegalCmd, fcmd := w })

/-! ### Steps and the processing of a command -/

/-- 00_scope.md R7, 20_memory.md R73: when the host's next action is a command word that decodes, the step is
`exec` of that command on the state with the action taken; `withFetchWord` places such a word. -/
def Obligations.StepRunsTheDecodedCommand : Prop :=
  (∀ (s : State) (w : CommandWord) (rest : List HostAction) (i : Instr),
    s.host = .command w :: rest → decode w = .ok i → step s = exec i { s with host := rest }) ∧
  (∀ (s : State) (nbits w : Nat) (i : Instr),
    decodeTableWord nbits w = some i → step (s.withFetchWord nbits w) = exec i s)

/-- 20_memory.md R65, R74, 70_reset_and_hazards.md R240, 60_exceptions.md R230: a step that serves a read hands the
word of `RegRead` to the host and changes no element of the block's state; a reset gives the reset state; with
nothing to do the block keeps its state. That the host's pending actions, the words read and the draws are part of
the state is the model's choice (log 2, log 4, log 5), as is that they outlive reset (log 5, log 10). -/
def Obligations.StepServesReadsResetAndIdling : Prop :=
  (∀ (s : State) (a : Word) (rest : List HostAction), s.host = .read a :: rest →
    ∃ n, step s = .next { s with host := rest, rdOut := s.rdOut ++ [regRead s a], draws := n } ∧
      ((registerRead s a).isSome → n = s.draws)) ∧
  (∀ (s : State) (rest : List HostAction), s.host = .reset :: rest →
    step s = .next { State.resetOf s.cfg with host := rest, rdOut := s.rdOut, draws := s.draws }) ∧
  (∀ s : State, SameHostSide s s.resetPin) ∧
  (∀ s : State, s.host = [] → step s = .next s)

/-- 20_memory.md R73: the pending command words run in the order the host gave them, one a step. -/
def Obligations.QueuedCommandsRunInOrder : Prop :=
  ∀ (ws : List CommandWord) (s t : State), s.host = [] → runWords ws s = .next t →
    core.run ws.length { s with host := ws.map .command } = .next t

/-- 30_encoding.md R94: the six steps of the processing of a word, in their order. -/
def Obligations.CommandProcessingOrder : Prop :=
  ∀ (w : CommandWord) (s : State),
    (w = 0x0100000000000000#64 → acceptCommand w s = exec .clear s ∧ acceptCommand w s = .next s.clear) ∧
    (w ≠ 0x0100000000000000#64 → s.fault ≠ none → acceptCommand w s = .next s) ∧
    (w ≠ 0x0100000000000000#64 → s.fault = none →
      ((∃ e, decode w = .error e) → acceptCommand w s = .next (s.raise .illegalCmd w)) ∧
      (∀ i, decode w = .ok i →
        (¬ admitted i s → acceptCommand w s = .next (s.raise .badPhase w)) ∧
        (admitted i s → ¬ operandLegal s.cfg i → acceptCommand w s = .next (s.raise .badOperand w)) ∧
        (admitted i s → operandLegal s.cfg i → acceptCommand w s = exec i s)))

/-- 10_state.md R24: the table entry by entry in the order IDLE, COUNT, LOAD, READY, PACK, DECODE; a command
without an entry, or with the wrong `OPENV`, raises `BAD_PHASE`; a command that completes without fault
leaves the phase of its entry, and one that faults leaves `PHASE` unchanged. -/
def Obligations.PhaseFollowsTheTransitionTable : Prop :=
  (∀ a : Word,
    let row := fun i : Instr => [Phase.idle, .count, .load, .ready, .pack, .decode].map (nextPhase i)
    row .nop = [some .idle, some .count, some .load, some .ready, some .pack, some .decode] ∧
    row .clear = [some .idle, some .idle, some .idle, some .idle, some .idle, some .idle] ∧
    row (.cntSym a) = [some .count, some .count, none, none, none, none] ∧
    row .build = [some .ready, some .ready, none, none, none, none] ∧
    row .packBegin = [none, none, none, some .pack, none, none] ∧
    row (.packSym a) = [none, none, none, none, some .pack, none] ∧
    row .packEnd = [none, none, none, none, some .ready, none] ∧
    row (.decBegin a) = [none, none, none, some .decode, none, none] ∧
    row (.decByte a) = [none, none, none, none, none, some .decode] ∧
    row .decEnd = [none, none, none, none, none, some .ready] ∧
    row (.cblOpen a) = [some .load, none, some .load, none, none, none] ∧
    row (.cblBit a) = [none, none, some .load, none, none, none] ∧
    row .cblClose = [none, none, some .load, none, none, none] ∧
    row .cblEnd = [some .ready, none, some .ready, none, none, none]) ∧
  (∀ (i : Instr) (s : State), s.fault = none →
    (nextPhase i s.phase = none ∨
      ((∃ a, i = .cblOpen a) ∨ i = .cblEnd) ∧ s.openv = true ∨
      ((∃ a, i = .cblBit a) ∨ i = .cblClose) ∧ s.openv = false) →
    exec i s = .next { s with fault := some .badPhase, fcmd := encode i }) ∧
  (∀ (i : Instr) (s t : State), s.fault = none → exec i s = .next t →
    (t.fault = none → nextPhase i s.phase = some t.phase) ∧ (t.fault ≠ none → t.phase = s.phase))

/-- 30_encoding.md R97: a command whose operand is out of range raises `BAD_OPERAND` if it is admitted and
`BAD_PHASE` if it is not, and changes nothing but `FAULT` and `FCMD`. -/
def Obligations.OperandOutOfRangeRaisesBadOperand : Prop :=
  ∀ (i : Instr) (s : State) (a : Word), s.fault = none →
    ((i = .cntSym a ∨ i = .packSym a ∨ i = .cblOpen a) ∧ 2 ^ s.cfg.symw ≤ a.toNat ∨
      i = .cblBit a ∧ 2 ≤ a.toNat ∨ i = .decByte a ∧ 256 ≤ a.toNat ∨ i = .decBegin a ∧ 8 ≤ a.toNat) →
    (admitted i s → exec i s = .next { s with fault := some .badOperand, fcmd := encode i }) ∧
    (¬ admitted i s → exec i s = .next { s with fault := some .badPhase, fcmd := encode i })

/-- 70_reset_and_hazards.md R252: in every state every command word, and every other action of the host, has a
defined outcome; no step stops the machine. For a command that emits this
rests on the host taking the items (R247; log 9). -/
def Obligations.EveryStepHasANextState : Prop :=
  (∀ s : State, ∃ t, step s = .next t) ∧
  (∀ (w : CommandWord) (s : State), ∃ t, acceptCommand w s = .next t)

/-! ### Faults, CLEAR and reset -/

/-- 60_exceptions.md R212, 10_state.md R28: the fault entry writes `FAULT` and `FCMD` and nothing else; `FAULTED`
and the pin read 1 from then on. -/
def Obligations.FaultEntryWritesFaultAndFcmdOnly : Prop :=
  ∀ (f : FaultCode) (cmd : CommandWord) (s : State),
    let t := s.raise f cmd
    t.fault = some f ∧ t.fcmd = cmd ∧ t.faultValue = f.code ∧ t.faultPin = true ∧
    t.statusWord.getLsbD 6 = true ∧ t.phase = s.phase ∧ t.gl = s.gl ∧ t.pad = s.pad ∧
    SameFrequencyTable s t ∧ SameCodebook s t ∧ SamePacker s t ∧ SameUnpacker s t ∧ SameLoadLatches s t ∧
    SameStreams s t ∧ SameHostSide s t

/-- 60_exceptions.md R210: which command raises which fault, and the code it leaves in `FAULT`. -/
def Obligations.FaultsComeFromTheirCommands : Prop :=
  (FaultCode.illegalCmd.code = 1#4 ∧ FaultCode.badPhase.code = 2#4 ∧ FaultCode.badOperand.code = 3#4 ∧
    FaultCode.tableFull.code = 4#4 ∧ FaultCode.countOverflow.code = 5#4 ∧ FaultCode.badCodebook.code = 6#4 ∧
    FaultCode.missingCode.code = 7#4 ∧ FaultCode.malformedStream.code = 8#4) ∧
  ∀ (i : Instr) (s t : State) (f : FaultCode), s.fault = none → exec i s = .next t → t.fault = some f →
    t.fcmd = encode i ∧ f ≠ .illegalCmd ∧
    (f = .badPhase → i ≠ .nop ∧ i ≠ .clear) ∧
    (f = .badOperand → ∃ a, i = .cntSym a ∨ i = .packSym a ∨ i = .cblOpen a ∨ i = .cblBit a ∨
      i = .decByte a ∨ i = .decBegin a) ∧
    (f = .tableFull → ∃ a, i = .cntSym a ∨ i = .cblOpen a) ∧
    (f = .countOverflow → ∃ a, i = .cntSym a) ∧
    (f = .badCodebook → (∃ a, i = .cblOpen a ∨ i = .cblBit a) ∨ i = .cblClose) ∧
    (f = .missingCode → ∃ a, i = .packSym a) ∧
    (f = .malformedStream → (∃ a, i = .decByte a) ∨ i = .decEnd)

/-- 60_exceptions.md R213: the faults 1 to 7 leave everything but `FAULT` and `FCMD` as it was. Fault 8 leaves what
feeding the earlier bits left: `SYM_OUT` with the symbols they emitted and `ACC` with the unmatched bits (that feeding
is the greedy parse is the statement FeedingBitsIsTheGreedyParse). It comes at the bit that finds the accumulator full,
with `HOLD` and `HOLDV` as they were, or, in `DEC_END`, after the last bit, with `HOLDV` 0. It touches no table, no other
latch but `HOLDV`, not the phase and not the other stream. -/
def Obligations.FaultsArePrecise : Prop :=
  ∀ (i : Instr) (s t : State) (f : FaultCode), s.fault = none → exec i s = .next t → t.fault = some f →
    (f ≠ .malformedStream → t = { s with fault := some f, fcmd := encode i }) ∧
    (f = .malformedStream →
      (∃ syms, t = { s with symOut := s.symOut ++ syms, acc := t.acc, holdv := t.holdv,
                            fault := some f, fcmd := encode i }) ∧
      (t.holdv ≠ s.holdv → i = .decEnd ∧ t.acc ≠ []) ∧
      ∃ (bits : BitString) (k : Nat) (u : State),
        ((∃ a, i = .decByte a) ∧ bits = s.heldBits 0 ∨ i = .decEnd ∧ bits = s.heldBits s.pad.toNat) ∧
        s.feedBits (bits.take k) = .done u ∧
        (k < bits.length ∧ u.acc.length = s.cfg.maxLen ∧ t = { u with fault := some f, fcmd := encode i } ∨
          k = bits.length ∧ i = .decEnd ∧ (u.acc ≠ [] ∨ s.holdv = false ∧ s.pad ≠ 0#3) ∧
            t = { u with holdv := false, fault := some f, fcmd := encode i }))

/-- 60_exceptions.md R214, R220, 10_state.md R28: a faulted block discards every word but the exact `CLEAR`, and
the first fault and its command stay until `CLEAR` or reset. -/
def Obligations.FaultStaysUntilClearOrReset : Prop :=
  (∀ (w : CommandWord) (s : State), s.fault ≠ none → w ≠ 0x0100000000000000#64 → acceptCommand w s = .next s) ∧
  (∀ (s t : State) (f : FaultCode), s.fault = some f → step s = .next t →
    t.fault = some f ∧ t.fcmd = s.fcmd ∨
    s.host.head? = some (.command 0x0100000000000000#64) ∨ s.host.head? = some .reset)

/-- 40_control.md R110: `NOP` changes nothing and emits nothing, in every phase, faulted or not. -/
def Obligations.NopChangesNothing : Prop :=
  encode .nop = 0x0000000000000000#64 ∧ ∀ s : State, exec .nop s = .next s

/-- 40_control.md R111: `CLEAR`, in every phase and also while faulted; the slot contents and the streams are not
touched. A word with its `op` that is not `CLEAR` is illegal, or discarded by a faulted block. -/
def Obligations.ClearReturnsToTheInitialState : Prop :=
  encode .clear = 0x0100000000000000#64 ∧
  (∀ (w : CommandWord) (s : State), w.extractLsb' 56 8 = 0x01#8 → w ≠ 0x0100000000000000#64 →
    (s.fault = none → acceptCommand w s = .next { s with fault := some .illegalCmd, fcmd := w }) ∧
    (s.fault ≠ none → acceptCommand w s = .next s)) ∧
  ∀ s : State, ∃ t, exec .clear s = .next t ∧
    t.phase = .idle ∧ t.fault = none ∧ t.fcmd = 0#64 ∧ t.ftn = 0#17 ∧ t.total = 0#32 ∧ t.cbn = 0#17 ∧
    t.pad = 0#3 ∧ t.gl = [] ∧ t.pacc = 0#8 ∧ t.pcnt = 0#3 ∧ t.hold = 0#8 ∧ t.holdv = false ∧ t.acc = [] ∧
    t.osym = 0#32 ∧ t.ocode = [] ∧ t.openv = false ∧
    t.ft = s.ft ∧ t.cb = s.cb ∧ SameStreams s t ∧ SameHostSide s t ∧
    t.emptyFlag = false ∧ t.faultedFlag = false ∧ t.statusWord = 0#32 ∧ t.faultPin = false

/-- 10_state.md R46, 70_reset_and_hazards.md R240: the values after reset, in `State.reset`, in the reset state of
every configuration and after the reset pin; `CLEAR` leaves the same values but for the streams, which it leaves as
they are. What reset does to the model's own fields is said by the statement StepServesReadsResetAndIdling. -/
def Obligations.ResetGivesTheResetValues : Prop :=
  (∀ t : State, (t = State.reset ∨ (∃ c, t = State.resetOf c) ∨ ∃ s : State, t = s.resetPin) →
    t.phase = .idle ∧ t.fault = none ∧ t.fcmd = 0#64 ∧ t.ftn = 0#17 ∧ t.total = 0#32 ∧ t.gl = [] ∧
    t.cbn = 0#17 ∧ t.pad = 0#3 ∧ t.pacc = 0#8 ∧ t.pcnt = 0#3 ∧ t.hold = 0#8 ∧ t.holdv = false ∧ t.acc = [] ∧
    t.osym = 0#32 ∧ t.ocode = [] ∧ t.openv = false ∧ t.byteOut = [] ∧ t.symOut = [] ∧
    t.ftValid = [] ∧ t.cbValid = [] ∧ t.statusWord = 0#32 ∧ t.faultPin = false) ∧
  (∀ s : State,
    let t := s.resetPin
    let u := s.clear
    u.phase = t.phase ∧ SameFaultRegisters t u ∧ u.ftn = t.ftn ∧ u.total = t.total ∧ u.ftValid = t.ftValid ∧
    u.gl = t.gl ∧ u.cbn = t.cbn ∧ u.cbValid = t.cbValid ∧ u.pad = t.pad ∧ SamePacker t u ∧ SameUnpacker t u ∧
    SameLoadLatches t u ∧ u.statusWord = t.statusWord ∧ u.faultPin = t.faultPin ∧ SameStreams s u)

/-! ### Frequency Counter -/

/-- 41_frequency_counter.md R120: `CNT_SYM` in IDLE or COUNT with a symbol in range: the two checks in their
order, a new symbol, a known symbol. -/
def Obligations.CntSymCountsOneSymbol : Prop :=
  (∀ a : Word, CommandHeader (.cntSym a) (0x1000000000000000#64 ||| a.zeroExtend 64) [.idle, .count] [false, true]
    (fun c => 2 ^ c.symw)) ∧
  ∀ (s : State) (a : Word), s.Inv → s.fault = none → (s.phase = .idle ∨ s.phase = .count) →
    a.toNat < 2 ^ s.cfg.symw →
    (s.total.toNat = 2 ^ s.cfg.cntw - 1 →
      exec (.cntSym a) s = .next { s with fault := some .countOverflow, fcmd := encode (.cntSym a) }) ∧
    (s.total.toNat ≠ 2 ^ s.cfg.cntw - 1 → (∀ x ∈ s.ftValid, x.sym ≠ a) → s.ftn.toNat = s.cfg.nsym →
      exec (.cntSym a) s = .next { s with fault := some .tableFull, fcmd := encode (.cntSym a) }) ∧
    (s.total.toNat ≠ 2 ^ s.cfg.cntw - 1 → (∀ x ∈ s.ftValid, x.sym ≠ a) → s.ftn.toNat ≠ s.cfg.nsym →
      ∃ t, exec (.cntSym a) s = .next t ∧
        t = { s with ft := t.ft, ftn := t.ftn, total := t.total, phase := .count } ∧
        t.ftn.toNat = s.ftn.toNat + 1 ∧ t.total.toNat = s.total.toNat + 1 ∧
        t.ft[s.ftn.toNat]? = some ⟨a, 1#32⟩ ∧ ∀ j, j ≠ s.ftn.toNat → t.ft[j]? = s.ft[j]?) ∧
    (∀ (i : Nat) (x : FtSlot), s.total.toNat ≠ 2 ^ s.cfg.cntw - 1 → s.ftValid[i]? = some x → x.sym = a →
      ∃ t y, exec (.cntSym a) s = .next t ∧
        t = { s with ft := t.ft, total := t.total, phase := .count } ∧
        t.total.toNat = s.total.toNat + 1 ∧
        t.ft[i]? = some y ∧ y.sym = a ∧ y.count.toNat = x.count.toNat + 1 ∧
        ∀ j, j ≠ i → t.ft[j]? = s.ft[j]?)

/-- 41_frequency_counter.md R121: after `CNT_SYM` for each symbol of a text, all without fault from IDLE, the
valid slots are the distinct symbols in order of first occurrence, each with its number of occurrences. -/
def Obligations.CountingPassBuildsTheFrequencyTable : Prop :=
  ∀ (s t : State) (text : List Symbol), s.Inv → s.phase = .idle →
    RunsWithoutFault (Pseudo.cntStr text) s t →
    t.ftValid.map FtSlot.sym = text.eraseDups ∧
    (∀ x ∈ t.ftValid, x.count.toNat = text.count x.sym) ∧
    t.ftn.toNat = text.eraseDups.length ∧ t.total.toNat = text.length ∧
    t.phase = (if text = [] then Phase.idle else Phase.count) ∧
    SameCodebook s t ∧ SamePacker s t ∧ SameUnpacker s t ∧ SameLoadLatches s t ∧ SameStreams s t ∧
    SameHostSide s t ∧ SameFaultRegisters s t ∧ t.pad = s.pad ∧ t.gl = s.gl

/-! ### Code Tree Builder -/

/-- 42_tree_builder.md R136: `BUILD` on the empty table. -/
def Obligations.BuildOfTheEmptyTable : Prop :=
  ∀ s : State, s.fault = none → (s.phase = .idle ∨ s.phase = .count) → s.ftn = 0#17 →
    ∃ t, exec .build s = .next t ∧ t = { s with cbn := 0#17, phase := .ready } ∧ t.emptyFlag = true

/-- 42_tree_builder.md R134: `BUILD` on a single-symbol alphabet assigns the code "0", whatever the count. -/
def Obligations.BuildOfASingleSymbol : Prop :=
  ∀ (s : State) (x : FtSlot), s.fault = none → (s.phase = .idle ∨ s.phase = .count) → s.ftn = 1#17 →
    s.ft[0]? = some x →
    ∃ t, exec .build s = .next t ∧ t = { s with cb := t.cb, cbn := 1#17, phase := .ready } ∧
      t.cb[0]? = some ⟨x.sym, [false]⟩ ∧ ∀ j, j ≠ 0 → t.cb[j]? = s.cb[j]?

/-- 42_tree_builder.md R130: `BUILD` in IDLE or COUNT always completes and goes to READY, for no symbol, one symbol,
and two or more symbols, of which the greedy merge of the rule, from one group for each valid slot, gives the
codebook slots in order; it changes nothing else but those slots. -/
def Obligations.BuildRunsTheGreedyMerge : Prop :=
  CommandHeader .build 0x2000000000000000#64 [.idle, .count] [false, true] (fun _ => 2 ^ 32) ∧
  ∀ s : State, s.Inv → s.fault = none → (s.phase = .idle ∨ s.phase = .count) →
    ∃ t, exec .build s = .next t ∧ t = { s with cb := t.cb, cbn := s.ftn, phase := .ready } ∧
      (∀ j, s.ftn.toNat ≤ j → t.cb[j]? = s.cb[j]?) ∧
      (t.emptyFlag = true ↔ s.ftn = 0#17) ∧
      (∀ x, s.ftn = 1#17 → s.ft[0]? = some x → t.cbValid = [⟨x.sym, [false]⟩]) ∧
      (2 ≤ s.ftn.toNat → ∃ final,
        GreedyMerge s.cfg (s.ftValid.map fun x => ⟨x.count, ⟨x.sym, []⟩, []⟩) final ∧ t.cbValid = final.members)

/-- 42_tree_builder.md R132, R131: one merge takes the least group A and the least group B of the rest, puts 0 in
front of A's codes and 1 in front of B's, lists A's members before B's, adds the weights, and leaves every
other group as it is; the symbol sets stay disjoint and cover the same symbols. -/
def Obligations.MergeReplacesTheTwoLeastGroups : Prop :=
  (∀ x y : Group, x.precedes y ↔
    x.w.toNat < y.w.toNat ∨ (x.w.toNat = y.w.toNat ∧ x.first.sym.toNat < y.first.sym.toNat)) ∧
  ∀ (c : Config) (gl : List Group), 2 ≤ gl.length →
    ((gl.flatMap Group.members).map CodeEntry.sym).Nodup →
    ∃ (a b g : Group) (others : List Group),
      gl.Perm (a :: b :: others) ∧
      (∀ x ∈ b :: others, a.precedes x) ∧ (∀ x ∈ others, b.precedes x) ∧
      mergeLowestTwo c gl = g :: others ∧
      g.w = c.addCount a.w b.w ∧
      g.members = a.members.map (fun e => ⟨e.sym, false :: e.code⟩) ++
        b.members.map (fun e => ⟨e.sym, true :: e.code⟩) ∧
      a.w.toNat ≤ b.w.toNat ∧ (∀ x ∈ others, b.w.toNat ≤ x.w.toNat) ∧
      (((g :: others).flatMap Group.members).map CodeEntry.sym).Perm
        ((gl.flatMap Group.members).map CodeEntry.sym)

/-- 42_tree_builder.md R133: the loop ends with one group, whose weight is `TOTAL`; each merge keeps the sum of the
weights, so no addition overflows. -/
def Obligations.MergeWeightsNeverOverflow : Prop :=
  (∀ (c : Config) (gl : List Group), 2 ≤ gl.length → (gl.map fun g => g.w.toNat).sum < 2 ^ c.cntw →
    (mergeLowestTwo c gl).length + 1 = gl.length ∧
    ((mergeLowestTwo c gl).map fun g => g.w.toNat).sum = (gl.map fun g => g.w.toNat).sum) ∧
  (∀ s : State, s.Inv → 2 ≤ s.ftn.toNat →
    ∃ g, mergeLoop s.cfg (s.ftn.toNat - 1) (initialGroups s.ftValid) = [g] ∧
      mergeLoop s.cfg s.ftn.toNat (initialGroups s.ftValid) = [g] ∧ g.w = s.total)

/-- 42_tree_builder.md R137: after `BUILD` no valid code is a prefix of the code of a different valid slot. -/
def Obligations.BuiltCodebookIsPrefixFree : Prop :=
  ∀ s t : State, s.Inv → s.fault = none → (s.phase = .idle ∨ s.phase = .count) →
    exec .build s = .next t → PrefixFree (t.cbValid.map CodeEntry.code)

/-- 10_state.md R40 (d): after `BUILD` the codebook has exactly the counted symbols, each once. -/
def Obligations.BuiltCodebookCoversTheCountedSymbols : Prop :=
  ∀ s t : State, s.Inv → s.fault = none → (s.phase = .idle ∨ s.phase = .count) →
    exec .build s = .next t →
    t.cbn = s.ftn ∧ (t.cbValid.map CodeEntry.sym).Perm (s.ftValid.map FtSlot.sym)

/-- 42_tree_builder.md R138, 00_scope.md R9: with `n >= 2` symbols every code has 1 to `n - 1` bits, the sum of
`2^(-len)` is 1 (here times `2^(n-1)`), and every bit string is a prefix of a code or has one as a prefix; with
one symbol the string "1" is neither. -/
def Obligations.BuiltCodesFillTheTree : Prop :=
  ∀ s t : State, s.Inv → s.fault = none → (s.phase = .idle ∨ s.phase = .count) →
    exec .build s = .next t →
    (2 ≤ s.ftn.toNat →
      (∀ e ∈ t.cbValid, 1 ≤ e.code.length ∧ e.code.length ≤ s.ftn.toNat - 1 ∧ e.code.length ≤ s.cfg.maxLen) ∧
      (t.cbValid.map fun e => 2 ^ (s.ftn.toNat - 1 - e.code.length)).sum = 2 ^ (s.ftn.toNat - 1) ∧
      (∀ bits : BitString, ∃ e ∈ t.cbValid, bits <+: e.code ∨ e.code <+: bits)) ∧
    (s.ftn = 1#17 → ∀ e ∈ t.cbValid, e.code = [false] ∧ ¬ [true] <+: e.code ∧ ¬ e.code <+: [true])

/-- 42_tree_builder.md R135: after `BUILD` the slots are the members of the final group, sorted by code in
lexicographic bit order, 0 before 1. -/
def Obligations.BuiltCodebookIsSortedByCode : Prop :=
  ∀ s t : State, s.Inv → s.fault = none → (s.phase = .idle ∨ s.phase = .count) →
    exec .build s = .next t →
    (2 ≤ s.ftn.toNat → ∃ final,
      GreedyMerge s.cfg (s.ftValid.map fun x => ⟨x.count, ⟨x.sym, []⟩, []⟩) final ∧ t.cbValid = final.members) ∧
    t.cbValid.Pairwise fun d e => List.Lex (fun x y => x = false ∧ y = true) d.code e.code

/-- 42_tree_builder.md R139: `BUILD` depends on the set of pairs of symbol and count alone, not on the order in
which the symbols first occurred; two inputs with the same symbol counts give the same codebook, and two runs over
the same input the same codebook, bytes and padding. -/
def Obligations.BuildDependsOnlyOnTheSetOfCounts : Prop :=
  ∀ s s' t t' : State, s.Inv → s'.Inv → s.cfg = s'.cfg → s.fault = none → s'.fault = none →
    ((s.phase = .idle ∨ s.phase = .count) → (s'.phase = .idle ∨ s'.phase = .count) →
      s.ftValid.Perm s'.ftValid → exec .build s = .next t → exec .build s' = .next t' →
      t.cbValid = t'.cbValid ∧ t.cbn = t'.cbn) ∧
    (∀ text text' : List Symbol, s.phase = .idle → s'.phase = .idle → text.Perm text' →
      RunsWithoutFault (Pseudo.cntStr text ++ [.build]) s t →
      RunsWithoutFault (Pseudo.cntStr text' ++ [.build]) s' t' → t.cbValid = t'.cbValid) ∧
    (∀ text : List Symbol, s.phase = .idle → s'.phase = .idle →
      RunsWithoutFault (Pseudo.encodeText text) s t → RunsWithoutFault (Pseudo.encodeText text) s' t' →
      ∃ bytes, t.byteOut = s.byteOut ++ bytes ∧ t'.byteOut = s'.byteOut ++ bytes ∧ t.pad = t'.pad ∧
        t.cbValid = t'.cbValid)

/-- 42_tree_builder.md R140: the worked trace "abracadabra". -/
def Obligations.BuildOfAbracadabra : Prop :=
  ∀ s : State, s.cfg = Config.ref → s.fault = none → s.phase = .count → s.ftn = 5#17 →
    s.ft.take 5 = [⟨97#32, 5#32⟩, ⟨98#32, 2#32⟩, ⟨114#32, 2#32⟩, ⟨99#32, 1#32⟩, ⟨100#32, 1#32⟩] →
    ∃ t, exec .build s = .next t ∧ t.cbn = 5#17 ∧
      t.cb.take 5 = [⟨97#32, [false]⟩, ⟨114#32, [true, false]⟩, ⟨98#32, [true, true, false]⟩,
        ⟨99#32, [true, true, true, false]⟩, ⟨100#32, [true, true, true, true]⟩]

/-! ### Bit Packer -/

/-- 43_bit_packer.md R150: `PACK_BEGIN` in READY. -/
def Obligations.PackBeginOpensAPackRun : Prop :=
  CommandHeader .packBegin 0x3000000000000000#64 [.ready] [false, true] (fun _ => 2 ^ 32) ∧
  ∀ s : State, s.fault = none → s.phase = .ready →
    exec .packBegin s = .next { s with pacc := 0#8, pcnt := 0#3, phase := .pack }

/-- 43_bit_packer.md R154, 20_memory.md R69: `PushBit` appends one bit to the bitstream, most-significant bit of
a byte first; the eighth bit emits the byte and leaves both latches 0; `PACC < 2^PCNT` is kept; nothing
else changes. -/
def Obligations.PushBitAppendsOneBit : Prop :=
  ∀ (s : State) (b : Bool),
    (s.pushBit b).packedBits = s.packedBits ++ [b] ∧
    (s.pushBit b).pcnt.toNat = (s.pcnt.toNat + 1) % 8 ∧
    (s.pushBit b).byteOut.length = s.byteOut.length + (s.pcnt.toNat + 1) / 8 ∧
    (s.pacc.toNat < 2 ^ s.pcnt.toNat → (s.pushBit b).pacc.toNat < 2 ^ (s.pushBit b).pcnt.toNat) ∧
    s.pushBit b = { s with byteOut := (s.pushBit b).byteOut, pacc := (s.pushBit b).pacc,
                           pcnt := (s.pushBit b).pcnt }

/-- 43_bit_packer.md R152: `PACK_SYM` in PACK with a symbol in range: without an entry `MISSING_CODE`; with an
entry its code goes to the bitstream, first bit first, and `floor((PCNT + |c|) / 8)` bytes are emitted. -/
def Obligations.PackSymPushesTheCode : Prop :=
  (∀ a : Word, CommandHeader (.packSym a) (0x3100000000000000#64 ||| a.zeroExtend 64) [.pack] [false, true]
    (fun c => 2 ^ c.symw)) ∧
  ∀ (s : State) (a : Word), s.Inv → s.fault = none → s.phase = .pack → a.toNat < 2 ^ s.cfg.symw →
    ((∀ e ∈ s.cbValid, e.sym ≠ a) →
      exec (.packSym a) s = .next { s with fault := some .missingCode, fcmd := encode (.packSym a) }) ∧
    (∀ e ∈ s.cbValid, e.sym = a →
      ∃ t, exec (.packSym a) s = .next t ∧
        t = { s with byteOut := t.byteOut, pacc := t.pacc, pcnt := t.pcnt } ∧
        s.byteOut <+: t.byteOut ∧ t.packedBits = s.packedBits ++ e.code ∧
        t.pcnt.toNat = (s.pcnt.toNat + e.code.length) % 8 ∧ t.pacc.toNat < 2 ^ t.pcnt.toNat ∧
        t.byteOut.length = s.byteOut.length + (s.pcnt.toNat + e.code.length) / 8)

/-- 43_bit_packer.md R156: `PACK_END` in PACK: the Padding Count, the filled-up last byte, READY. -/
def Obligations.PackEndPadsTheLastByte : Prop :=
  CommandHeader .packEnd 0x3200000000000000#64 [.pack] [false, true] (fun _ => 2 ^ 32) ∧
  ∀ s : State, s.fault = none → s.phase = .pack →
    ∃ t, exec .packEnd s = .next t ∧ t.pad.toNat = (8 - s.pcnt.toNat) % 8 ∧
      t.packedBits = s.packedBits ++ List.replicate t.pad.toNat false ∧
      (s.pcnt = 0#3 → t = { s with pad := 0#3, phase := .ready }) ∧
      (s.pcnt ≠ 0#3 → ∃ v, t = { s with pad := t.pad, byteOut := s.byteOut ++ [v], pacc := 0#8, pcnt := 0#3,
                                        phase := .ready })

/-- 43_bit_packer.md R157: what a pack run over a text produces, with `codes` the codes of its symbols in the
codebook. That the run finishes
rests on the host taking the items (70_reset_and_hazards.md R247; log 9). -/
def Obligations.PackRunProducesThePaddedBitstream : Prop :=
  ∀ (s : State) (text : List Symbol) (codes : List BitString), s.Inv → s.fault = none → s.phase = .ready →
    List.Forall₂ (fun x c => (⟨x, c⟩ : CodeEntry) ∈ s.cbValid) text codes →
    (∀ k, k ≤ text.length → ∃ u, RunsWithoutFault (.packBegin :: Pseudo.packStr (text.take k)) s u ∧
      u.pcnt.toNat = (codes.take k).flatten.length % 8) ∧
    ∃ t bytes, RunsWithoutFault (.packBegin :: Pseudo.packStr text ++ [.packEnd]) s t ∧ t.phase = .ready ∧
      t.pad.toNat = (8 - codes.flatten.length % 8) % 8 ∧
      t.byteOut = s.byteOut ++ bytes ∧ 8 * bytes.length = codes.flatten.length + t.pad.toNat ∧
      bytes.flatMap byteBits = codes.flatten ++ List.replicate t.pad.toNat false

/-! ### Bit Unpacker and decode walk engine -/

/-- 44_unpacker_decoder.md R170: `DEC_BEGIN` in READY with a padding count in range. -/
def Obligations.DecBeginOpensADecodeRun : Prop :=
  (∀ a : Word, CommandHeader (.decBegin a) (0x4000000000000000#64 ||| a.zeroExtend 64) [.ready] [false, true]
    (fun _ => 8)) ∧
  ∀ (s : State) (p : BitVec 3), s.fault = none → s.phase = .ready →
    exec (.decBegin (p.zeroExtend 32)) s =
      .next { s with pad := p, hold := 0#8, holdv := false, acc := [], phase := .decode }

/-- 44_unpacker_decoder.md R172: feeding bits is the greedy parse in which the shortest entry that equals a prefix
of the remaining bits wins; a bit that finds `MAXLEN` unmatched bits raises `MALFORMED_STREAM`. -/
def Obligations.FeedingBitsIsTheGreedyParse : Prop :=
  ∀ (s : State) (bits : BitString), s.Inv →
    (∀ t, s.feedBits bits = .done t ↔
      ∃ syms left, GreedyParse s.cbValid s.cfg.maxLen (s.acc ++ bits) syms left ∧
        t = { s with symOut := s.symOut ++ syms, acc := left }) ∧
    (∀ f t, s.feedBits bits = .raised f t →
      f = .malformedStream ∧ t.acc.length = s.cfg.maxLen ∧
      ∃ k syms, k < bits.length ∧ GreedyParse s.cbValid s.cfg.maxLen (s.acc ++ bits.take k) syms t.acc ∧
        t = { s with symOut := s.symOut ++ syms, acc := t.acc })

/-- 44_unpacker_decoder.md R181: no command, faulting or not, emits the symbol of an entry that has another entry as
a proper prefix; such a codebook was loaded, since `FTN` is not 0 after a `BUILD` with symbols. -/
def Obligations.ShadowedEntriesAreNeverEmitted : Prop :=
  (∀ s : State, s.Inv → s.phase.codebookComplete = true →
    (∃ d ∈ s.cbValid, ∃ e ∈ s.cbValid, d.code <+: e.code ∧ d.code ≠ e.code) → s.ftn = 0#17) ∧
  ∀ (i : Instr) (s t : State), s.Inv → exec i s = .next t →
    ∃ syms, t.symOut = s.symOut ++ syms ∧
      ∀ d ∈ s.cbValid, ∀ e ∈ s.cbValid, d.code <+: e.code → d.code ≠ e.code → e.sym ∉ syms

/-- 44_unpacker_decoder.md R174: `DEC_BYTE` in DECODE with a byte in range: the first byte is only held; a later
one feeds the held byte and takes its place, or raises `MALFORMED_STREAM` at the bit that does not fit and
leaves the old byte held. -/
def Obligations.DecByteDecodesTheHeldByte : Prop :=
  (∀ a : Word, CommandHeader (.decByte a) (0x4100000000000000#64 ||| a.zeroExtend 64) [.decode] [false, true]
    (fun _ => 256)) ∧
  ∀ (s : State) (v : Byte), s.Inv → s.fault = none → s.phase = .decode →
    (s.holdv = false →
      exec (.decByte (v.zeroExtend 32)) s = .next { s with hold := v, holdv := true }) ∧
    (s.holdv = true →
      (∀ syms left, GreedyParse s.cbValid s.cfg.maxLen (s.acc ++ byteBits s.hold) syms left →
        exec (.decByte (v.zeroExtend 32)) s =
          .next { s with symOut := s.symOut ++ syms, acc := left, hold := v }) ∧
      ((¬ ∃ syms left, GreedyParse s.cbValid s.cfg.maxLen (s.acc ++ byteBits s.hold) syms left) →
        ∃ t k syms, exec (.decByte (v.zeroExtend 32)) s = .next t ∧
          k < 8 ∧ GreedyParse s.cbValid s.cfg.maxLen (s.acc ++ (byteBits s.hold).take k) syms t.acc ∧
          t.acc.length = s.cfg.maxLen ∧
          t = { s with symOut := s.symOut ++ syms, acc := t.acc, fault := some .malformedStream,
                       fcmd := encode (.decByte (v.zeroExtend 32)) }))

/-- 44_unpacker_decoder.md R176, R178: `DEC_END` in DECODE: the held byte less its padding is fed and the run
completes when nothing is left over; the three cases of `MALFORMED_STREAM`. -/
def Obligations.DecEndClosesTheDecodeRun : Prop :=
  CommandHeader .decEnd 0x4200000000000000#64 [.decode] [false, true] (fun _ => 2 ^ 32) ∧
  ∀ s : State, s.Inv → s.fault = none → s.phase = .decode →
    let last := (byteBits s.hold).take (8 - s.pad.toNat)
    (s.holdv = true → ∀ syms, GreedyParse s.cbValid s.cfg.maxLen (s.acc ++ last) syms [] →
      exec .decEnd s = .next { s with symOut := s.symOut ++ syms, acc := [], holdv := false, phase := .ready }) ∧
    (s.holdv = true → ∀ syms left, left ≠ [] →
      GreedyParse s.cbValid s.cfg.maxLen (s.acc ++ last) syms left →
      exec .decEnd s = .next { s with symOut := s.symOut ++ syms, acc := left, holdv := false,
                                      fault := some .malformedStream, fcmd := encode .decEnd }) ∧
    (s.holdv = true → (¬ ∃ syms left, GreedyParse s.cbValid s.cfg.maxLen (s.acc ++ last) syms left) →
      ∃ t k syms, exec .decEnd s = .next t ∧ k < last.length ∧
        GreedyParse s.cbValid s.cfg.maxLen (s.acc ++ last.take k) syms t.acc ∧ t.acc.length = s.cfg.maxLen ∧
        t = { s with symOut := s.symOut ++ syms, acc := t.acc, fault := some .malformedStream,
                     fcmd := encode .decEnd }) ∧
    (s.holdv = false → s.pad ≠ 0#3 →
      exec .decEnd s = .next { s with fault := some .malformedStream, fcmd := encode .decEnd }) ∧
    (s.holdv = false → s.pad = 0#3 → s.acc = [] → exec .decEnd s = .next { s with phase := .ready }) ∧
    (s.holdv = false → s.pad = 0#3 → s.acc ≠ [] →
      exec .decEnd s = .next { s with fault := some .malformedStream, fcmd := encode .decEnd })

/-- 44_unpacker_decoder.md R177: a decode run completes exactly when the padding does not exceed the bits and the
greedy parse consumes them entirely, and then it appends the symbols of that parse. That the run finishes
rests on the host taking the items (70_reset_and_hazards.md R247; log 9). -/
def Obligations.DecodeRunIsTheGreedyParse : Prop :=
  ∀ (s : State) (p : BitVec 3) (bytes : List Byte), s.Inv → s.fault = none → s.phase = .ready →
    let bits := (bytes.flatMap byteBits).take (8 * bytes.length - p.toNat)
    (∀ syms, p.toNat ≤ 8 * bytes.length → GreedyParse s.cbValid s.cfg.maxLen bits syms [] →
      ∃ t, RunsWithoutFault (Pseudo.decodeBytes p bytes) s t ∧ t.phase = .ready ∧
        t.symOut = s.symOut ++ syms) ∧
    (∀ t, RunsWithoutFault (Pseudo.decodeBytes p bytes) s t →
      p.toNat ≤ 8 * bytes.length ∧ ∃ syms, GreedyParse s.cbValid s.cfg.maxLen bits syms [] ∧
        t.symOut = s.symOut ++ syms)

/-- 44_unpacker_decoder.md R179: a text with at most `NSYM` distinct symbols and at most `CNTMAX` symbols, encoded
on a cleared block and decoded on the same block, or on another cleared block of the same configuration that
was loaded with the same pairs in any order, comes back unchanged and no command faults. That the run finishes
rests on the host taking the items (70_reset_and_hazards.md R247; log 9). -/
def Obligations.EncodedTextDecodesToItself : Prop :=
  ∀ (s : State) (text : List Symbol), s.Inv → s.fault = none → s.phase = .idle →
    (∀ x ∈ text, x.toNat < 2 ^ s.cfg.symw) → text.eraseDups.length ≤ s.cfg.nsym →
    text.length ≤ 2 ^ s.cfg.cntw - 1 →
    ∃ t bytes, RunsWithoutFault (Pseudo.encodeText text) s t ∧ t.byteOut = s.byteOut ++ bytes ∧
      (∃ u, RunsWithoutFault (Pseudo.decodeBytes t.pad bytes) t u ∧ u.symOut = t.symOut ++ text) ∧
      (∀ (v : State) (entries : List CodeEntry), v.Inv → v.cfg = s.cfg → v.fault = none → v.phase = .idle →
        entries.Perm t.cbValid →
        ∃ u, RunsWithoutFault (Pseudo.loadCodebook entries ++ Pseudo.decodeBytes t.pad bytes) v u ∧
          u.symOut = v.symOut ++ text)

/-! ### Codebook load -/

/-- 45_codebook_load.md R190: `CBL_OPEN` in IDLE or LOAD with no entry open and a symbol in range: the two checks
in their order, and the opened entry. -/
def Obligations.CblOpenOpensAnEntry : Prop :=
  (∀ a : Word, CommandHeader (.cblOpen a) (0x5000000000000000#64 ||| a.zeroExtend 64) [.idle, .load] [false]
    (fun c => 2 ^ c.symw)) ∧
  ∀ (s : State) (a : Word), s.fault = none → (s.phase = .idle ∨ s.phase = .load) → s.openv = false →
    a.toNat < 2 ^ s.cfg.symw →
    (s.cbn.toNat = s.cfg.nsym →
      exec (.cblOpen a) s = .next { s with fault := some .tableFull, fcmd := encode (.cblOpen a) }) ∧
    (s.cbn.toNat ≠ s.cfg.nsym → (∃ e ∈ s.cbValid, e.sym = a) →
      exec (.cblOpen a) s = .next { s with fault := some .badCodebook, fcmd := encode (.cblOpen a) }) ∧
    (s.cbn.toNat ≠ s.cfg.nsym → (∀ e ∈ s.cbValid, e.sym ≠ a) →
      exec (.cblOpen a) s = .next { s with osym := a, ocode := [], openv := true, phase := .load })

/-- 45_codebook_load.md R191: `CBL_BIT` in LOAD with an entry open. -/
def Obligations.CblBitAppendsABit : Prop :=
  (∀ a : Word, CommandHeader (.cblBit a) (0x5100000000000000#64 ||| a.zeroExtend 64) [.load] [true] (fun _ => 2)) ∧
  ∀ (s : State) (b : Bool), s.fault = none → s.phase = .load → s.openv = true →
    (s.ocode.length = s.cfg.maxLen → exec (Pseudo.cblBit b) s =
      .next { s with fault := some .badCodebook, fcmd := encode (Pseudo.cblBit b) }) ∧
    (s.ocode.length ≠ s.cfg.maxLen → exec (Pseudo.cblBit b) s = .next { s with ocode := s.ocode ++ [b] })

/-- 45_codebook_load.md R192: `CBL_CLOSE` in LOAD with an entry open: the empty code, the repeated code, and the
committed entry. -/
def Obligations.CblCloseCommitsTheEntry : Prop :=
  CommandHeader .cblClose 0x5200000000000000#64 [.load] [true] (fun _ => 2 ^ 32) ∧
  ∀ s : State, s.Inv → s.fault = none → s.phase = .load → s.openv = true →
    (s.ocode = [] → exec .cblClose s = .next { s with fault := some .badCodebook, fcmd := encode .cblClose }) ∧
    (s.ocode ≠ [] → (∃ e ∈ s.cbValid, e.code = s.ocode) →
      exec .cblClose s = .next { s with fault := some .badCodebook, fcmd := encode .cblClose }) ∧
    (s.ocode ≠ [] → (∀ e ∈ s.cbValid, e.code ≠ s.ocode) →
      ∃ t, exec .cblClose s = .next t ∧ t = { s with cb := t.cb, cbn := t.cbn, openv := false } ∧
        t.cbn.toNat = s.cbn.toNat + 1 ∧ t.cb[s.cbn.toNat]? = some ⟨s.osym, s.ocode⟩ ∧
        ∀ j, j ≠ s.cbn.toNat → t.cb[j]? = s.cb[j]?)

/-- 45_codebook_load.md R193: `CBL_END` in IDLE or LOAD with no entry open. -/
def Obligations.CblEndCompletesTheCodebook : Prop :=
  CommandHeader .cblEnd 0x5300000000000000#64 [.idle, .load] [false] (fun _ => 2 ^ 32) ∧
  ∀ s : State, s.fault = none → (s.phase = .idle ∨ s.phase = .load) → s.openv = false →
    ∃ t, exec .cblEnd s = .next t ∧ t = { s with phase := .ready } ∧ (t.emptyFlag = true ↔ s.cbn = 0#17)

/-- 45_codebook_load.md R196: what a load that completes without fault from IDLE produces, and that the load of
pairs with distinct symbols in range and distinct codes of 1 to `MAXLEN` bits does complete. -/
def Obligations.LoadProducesTheEntries : Prop :=
  ∀ (s : State) (entries : List CodeEntry), s.Inv → s.fault = none → s.phase = .idle →
    (∀ t, RunsWithoutFault (Pseudo.loadCodebook entries) s t →
      t.cbn.toNat = entries.length ∧ t.cbValid = entries ∧ t.ftn = 0#17 ∧ t.total = 0#32 ∧ t.phase = .ready) ∧
    (entries.length ≤ s.cfg.nsym → (entries.map CodeEntry.sym).Nodup → (entries.map CodeEntry.code).Nodup →
      (∀ e ∈ entries, e.sym.toNat < 2 ^ s.cfg.symw ∧ e.code ≠ [] ∧ e.code.length ≤ s.cfg.maxLen) →
      ∃ t, RunsWithoutFault (Pseudo.loadCodebook entries) s t)

/-! ### Register space and streams -/

/-- 10_state.md R27: the fields of `STATUS`. -/
def Obligations.StatusWordHoldsItsFields : Prop :=
  ∀ s : State,
    regRead s 0x00000000#32 = s.statusWord ∧
    s.statusWord.extractLsb' 0 3 = s.phase.code ∧ s.statusWord.getLsbD 3 = s.openv ∧
    s.statusWord.getLsbD 4 = s.holdv ∧
    (s.statusWord.getLsbD 5 = true ↔
      (s.phase = .ready ∨ s.phase = .pack ∨ s.phase = .decode) ∧ s.cbn.toNat = 0) ∧
    (s.statusWord.getLsbD 6 = true ↔ s.fault ≠ none) ∧
    (∀ k, 7 ≤ k → s.statusWord.getLsbD k = false) ∧
    [Phase.idle, .count, .load, .ready, .pack, .decode].map Phase.code = [0#3, 1#3, 2#3, 3#3, 4#3, 5#3]

/-- 10_state.md R28 to R34: the other registers, each by its address, as numbers. -/
def Obligations.ControlRegistersReadTheState : Prop :=
  ∀ s : State, s.Inv →
    regRead s 0x00000001#32 = s.faultValue.zeroExtend 32 ∧ (s.fault = none → s.faultValue = 0#4) ∧
    (∀ f, s.fault = some f → s.faultValue = f.code ∧ f.code ≠ 0#4) ∧
    regRead s 0x00000002#32 = s.fcmd.extractLsb' 0 32 ∧ regRead s 0x00000003#32 = s.fcmd.extractLsb' 32 32 ∧
    (s.fault = none → s.fcmd = 0#64) ∧
    (regRead s 0x00000004#32).toNat = s.ftn.toNat ∧ (regRead s 0x00000005#32).toNat = s.total.toNat ∧
    (regRead s 0x00000006#32).toNat = s.cbn.toNat ∧ (regRead s 0x00000007#32).toNat = s.pad.toNat ∧
    (regRead s 0x00000008#32).toNat = s.pcnt.toNat * 256 + s.pacc.toNat ∧
    (regRead s 0x00000009#32).toNat = s.hold.toNat ∧ (regRead s 0x0000000A#32).toNat = s.acc.length ∧
    regRead s 0x0000000B#32 = s.osym ∧ (regRead s 0x0000000C#32).toNat = s.ocode.length ∧
    (regRead s 0x0000000D#32).toNat = s.cfg.cntw * 256 + s.cfg.symw ∧
    (regRead s 0x0000000E#32).toNat = (max 1 (s.cfg.nsym - 1)) * 65536 + s.cfg.nsym

/-- 10_state.md R36: the window of the Frequency Table, for every valid slot. -/
def Obligations.FrequencyTableWindowReadsItsSlots : Prop :=
  ∀ (s : State) (i : Nat) (x : FtSlot), s.Inv → s.ftValid[i]? = some x →
    regRead s (BitVec.ofNat 32 (0x00010000 + 2 * i)) = x.sym ∧
    regRead s (BitVec.ofNat 32 (0x00010000 + 2 * i + 1)) = x.count

/-- 10_state.md R39: the window of the Codebook, for every valid slot: symbol, length, and the code bits from bit
31 of word +2 downward, 0 beyond the code. -/
def Obligations.CodebookWindowReadsItsSlots : Prop :=
  ∀ (s : State) (i : Nat) (e : CodeEntry), s.Inv → s.cbValid[i]? = some e →
    let base := 0x01000000 + i * (2 + (s.cfg.maxLen + 31) / 32)
    regRead s (BitVec.ofNat 32 base) = e.sym ∧
    (regRead s (BitVec.ofNat 32 (base + 1))).toNat = e.code.length ∧
    (∀ j b, e.code[j]? = some b →
      (regRead s (BitVec.ofNat 32 (base + 2 + j / 32))).getLsbD (31 - j % 32) = b) ∧
    (∀ j, e.code.length ≤ j → j < 32 * ((s.cfg.maxLen + 31) / 32) →
      (regRead s (BitVec.ofNat 32 (base + 2 + j / 32))).getLsbD (31 - j % 32) = false)

/-- 20_memory.md R66, R62: a read of an unmapped address returns 0, raises no fault and changes no state of the
block; the list of words read is the host's side (log 4). -/
def Obligations.UnmappedReadsReturnZero : Prop :=
  ∀ (s : State) (a : Word),
    (0x0000000E < a.toNat ∧ a.toNat < 0x00010000 ∨
      0x00010000 + 2 * s.cfg.nsym ≤ a.toNat ∧ a.toNat < 0x01000000 ∨
      0x01000000 + s.cfg.nsym * (2 + (s.cfg.maxLen + 31) / 32) ≤ a.toNat) →
    regRead s a = 0#32 ∧ serveRead a s = { s with rdOut := s.rdOut ++ [0#32] }

/-- 20_memory.md R68: a read of a slot beyond the valid count, inside its window, takes the free draw of the
current number, and the next such read takes another one. The counter is the model's (log 5); nothing is said
of the value. -/
def Obligations.InvalidSlotReadsAreFreeDraws : Prop :=
  ∀ (s : State) (a : Word),
    (0x00010000 + 2 * s.ftn.toNat ≤ a.toNat ∧ a.toNat < 0x00010000 + 2 * s.cfg.nsym ∨
      0x01000000 + s.cbn.toNat * (2 + (s.cfg.maxLen + 31) / 32) ≤ a.toNat ∧
        a.toNat < 0x01000000 + s.cfg.nsym * (2 + (s.cfg.maxLen + 31) / 32)) →
    registerRead s a = none ∧ regRead s a = Config.freeWord s.draws ∧ (serveRead a s).draws = s.draws + 1

/-- 10_state.md R20, column "written by": which commands other than `CLEAR` can change which element of the state, the
two streams included (that they are only appended to is the statement StreamsAreAppendOnly). No command touches
the configuration or the host's side of the ports. -/
def Obligations.ElementsAreWrittenByTheirCommandsOnly : Prop :=
  ∀ (i : Instr) (s t : State), exec i s = .next t → i ≠ .clear →
    SameHostSide s t ∧
    (t.phase ≠ s.phase → (∃ a, i = .cntSym a ∨ i = .decBegin a ∨ i = .cblOpen a) ∨ i = .build ∨ i = .packBegin ∨
      i = .packEnd ∨ i = .decEnd ∨ i = .cblEnd) ∧
    (¬ SameFaultRegisters s t → s.fault = none ∧ t.fault ≠ none ∧ i ≠ .nop) ∧
    (¬ SameFrequencyTable s t → ∃ a, i = .cntSym a) ∧
    (t.gl ≠ s.gl → i = .build) ∧
    (¬ SameCodebook s t → i = .build ∨ i = .cblClose) ∧
    (t.pad ≠ s.pad → i = .packEnd ∨ ∃ a, i = .decBegin a) ∧
    (¬ SamePacker s t → i = .packBegin ∨ i = .packEnd ∨ ∃ a, i = .packSym a) ∧
    (t.hold ≠ s.hold → ∃ a, i = .decBegin a ∨ i = .decByte a) ∧
    (t.holdv ≠ s.holdv ∨ t.acc ≠ s.acc → i = .decEnd ∨ ∃ a, i = .decBegin a ∨ i = .decByte a) ∧
    (t.osym ≠ s.osym → ∃ a, i = .cblOpen a) ∧
    (t.ocode ≠ s.ocode → ∃ a, i = .cblOpen a ∨ i = .cblBit a) ∧
    (t.openv ≠ s.openv → i = .cblClose ∨ ∃ a, i = .cblOpen a) ∧
    (t.byteOut ≠ s.byteOut → i = .packEnd ∨ ∃ a, i = .packSym a) ∧
    (t.symOut ≠ s.symOut → i = .decEnd ∨ ∃ a, i = .decByte a)

/-- 10_state.md R44, 20_memory.md R76: commands only append to the streams; only `PACK_SYM` and `PACK_END` emit
bytes, only `DEC_BYTE` and `DEC_END` emit symbols. -/
def Obligations.StreamsAreAppendOnly : Prop :=
  ∀ (i : Instr) (s t : State), exec i s = .next t →
    s.byteOut <+: t.byteOut ∧ s.symOut <+: t.symOut ∧
    (t.byteOut ≠ s.byteOut → (∃ a, i = .packSym a) ∨ i = .packEnd) ∧
    (t.symOut ≠ s.symOut → (∃ a, i = .decByte a) ∨ i = .decEnd)

/-! ### Invariants -/

/-- 10_state.md R46: the reset state of every configuration meets the invariant. -/
def Obligations.ResetMeetsTheInvariant : Prop :=
  State.reset.Inv ∧ ∀ c : Config, (State.resetOf c).Inv

/-- 10_state.md R37, R40, R41, R47: every step keeps the invariant and the configuration. -/
def Obligations.StepKeepsTheInvariant : Prop :=
  ∀ s t : State, s.Inv → step s = .next t → t.Inv ∧ t.cfg = s.cfg

/-- 10_state.md R47: the phase invariants hold after reset, in every configuration, and every step keeps them on
their own. -/
def Obligations.StepKeepsThePhaseInvariants : Prop :=
  (∀ c : Config, PhaseOk (State.resetOf c)) ∧
  ∀ s t : State, PhaseOk s → step s = .next t → PhaseOk t

end
end

