-- ==== Sys2Proof/Laws/State.lean ====
section
/-! SUPPORT. What each shared update of the state does to each field, true by unfolding, so that no proof unfolds
a record update (60_exceptions.md R212; 40_control.md R111; 10_state.md R44, R46). -/

namespace Sys2Proof.Machine

/-! ### The fault entry -/

section
variable (f : FaultCode) (cmd : CommandWord) (s : State)

@[simp] theorem State.raise_cfg : (s.raise f cmd).cfg = s.cfg := rfl
@[simp] theorem State.raise_phase : (s.raise f cmd).phase = s.phase := rfl
@[simp] theorem State.raise_fault : (s.raise f cmd).fault = some f := rfl
@[simp] theorem State.raise_fcmd : (s.raise f cmd).fcmd = cmd := rfl
@[simp] theorem State.raise_ft : (s.raise f cmd).ft = s.ft := rfl
@[simp] theorem State.raise_ftn : (s.raise f cmd).ftn = s.ftn := rfl
@[simp] theorem State.raise_total : (s.raise f cmd).total = s.total := rfl
@[simp] theorem State.raise_gl : (s.raise f cmd).gl = s.gl := rfl
@[simp] theorem State.raise_cb : (s.raise f cmd).cb = s.cb := rfl
@[simp] theorem State.raise_cbn : (s.raise f cmd).cbn = s.cbn := rfl
@[simp] theorem State.raise_pad : (s.raise f cmd).pad = s.pad := rfl
@[simp] theorem State.raise_pacc : (s.raise f cmd).pacc = s.pacc := rfl
@[simp] theorem State.raise_pcnt : (s.raise f cmd).pcnt = s.pcnt := rfl
@[simp] theorem State.raise_hold : (s.raise f cmd).hold = s.hold := rfl
@[simp] theorem State.raise_holdv : (s.raise f cmd).holdv = s.holdv := rfl
@[simp] theorem State.raise_acc : (s.raise f cmd).acc = s.acc := rfl
@[simp] theorem State.raise_osym : (s.raise f cmd).osym = s.osym := rfl
@[simp] theorem State.raise_ocode : (s.raise f cmd).ocode = s.ocode := rfl
@[simp] theorem State.raise_openv : (s.raise f cmd).openv = s.openv := rfl
@[simp] theorem State.raise_byteOut : (s.raise f cmd).byteOut = s.byteOut := rfl
@[simp] theorem State.raise_symOut : (s.raise f cmd).symOut = s.symOut := rfl
@[simp] theorem State.raise_host : (s.raise f cmd).host = s.host := rfl
@[simp] theorem State.raise_rdOut : (s.raise f cmd).rdOut = s.rdOut := rfl
@[simp] theorem State.raise_draws : (s.raise f cmd).draws = s.draws := rfl

end

/-! ### `CLEAR` -/

section
variable (s : State)

@[simp] theorem State.clear_cfg : (s.clear).cfg = s.cfg := rfl
@[simp] theorem State.clear_phase : (s.clear).phase = .idle := rfl
@[simp] theorem State.clear_fault : (s.clear).fault = none := rfl
@[simp] theorem State.clear_fcmd : (s.clear).fcmd = 0#64 := rfl
@[simp] theorem State.clear_ft : (s.clear).ft = s.ft := rfl
@[simp] theorem State.clear_ftn : (s.clear).ftn = 0#17 := rfl
@[simp] theorem State.clear_total : (s.clear).total = 0#32 := rfl
@[simp] theorem State.clear_gl : (s.clear).gl = [] := rfl
@[simp] theorem State.clear_cb : (s.clear).cb = s.cb := rfl
@[simp] theorem State.clear_cbn : (s.clear).cbn = 0#17 := rfl
@[simp] theorem State.clear_pad : (s.clear).pad = 0#3 := rfl
@[simp] theorem State.clear_pacc : (s.clear).pacc = 0#8 := rfl
@[simp] theorem State.clear_pcnt : (s.clear).pcnt = 0#3 := rfl
@[simp] theorem State.clear_hold : (s.clear).hold = 0#8 := rfl
@[simp] theorem State.clear_holdv : (s.clear).holdv = false := rfl
@[simp] theorem State.clear_acc : (s.clear).acc = [] := rfl
@[simp] theorem State.clear_osym : (s.clear).osym = 0#32 := rfl
@[simp] theorem State.clear_ocode : (s.clear).ocode = [] := rfl
@[simp] theorem State.clear_openv : (s.clear).openv = false := rfl
@[simp] theorem State.clear_byteOut : (s.clear).byteOut = s.byteOut := rfl
@[simp] theorem State.clear_symOut : (s.clear).symOut = s.symOut := rfl
@[simp] theorem State.clear_host : (s.clear).host = s.host := rfl
@[simp] theorem State.clear_rdOut : (s.clear).rdOut = s.rdOut := rfl
@[simp] theorem State.clear_draws : (s.clear).draws = s.draws := rfl

end

/-! ### The reset pin -/

section
variable (s : State)

@[simp] theorem State.resetPin_cfg : (s.resetPin).cfg = s.cfg := rfl
@[simp] theorem State.resetPin_phase : (s.resetPin).phase = .idle := rfl
@[simp] theorem State.resetPin_fault : (s.resetPin).fault = none := rfl
@[simp] theorem State.resetPin_fcmd : (s.resetPin).fcmd = 0#64 := rfl
@[simp] theorem State.resetPin_ft : (s.resetPin).ft = [] := rfl
@[simp] theorem State.resetPin_ftn : (s.resetPin).ftn = 0#17 := rfl
@[simp] theorem State.resetPin_total : (s.resetPin).total = 0#32 := rfl
@[simp] theorem State.resetPin_gl : (s.resetPin).gl = [] := rfl
@[simp] theorem State.resetPin_cb : (s.resetPin).cb = [] := rfl
@[simp] theorem State.resetPin_cbn : (s.resetPin).cbn = 0#17 := rfl
@[simp] theorem State.resetPin_pad : (s.resetPin).pad = 0#3 := rfl
@[simp] theorem State.resetPin_pacc : (s.resetPin).pacc = 0#8 := rfl
@[simp] theorem State.resetPin_pcnt : (s.resetPin).pcnt = 0#3 := rfl
@[simp] theorem State.resetPin_hold : (s.resetPin).hold = 0#8 := rfl
@[simp] theorem State.resetPin_holdv : (s.resetPin).holdv = false := rfl
@[simp] theorem State.resetPin_acc : (s.resetPin).acc = [] := rfl
@[simp] theorem State.resetPin_osym : (s.resetPin).osym = 0#32 := rfl
@[simp] theorem State.resetPin_ocode : (s.resetPin).ocode = [] := rfl
@[simp] theorem State.resetPin_openv : (s.resetPin).openv = false := rfl
@[simp] theorem State.resetPin_byteOut : (s.resetPin).byteOut = [] := rfl
@[simp] theorem State.resetPin_symOut : (s.resetPin).symOut = [] := rfl
@[simp] theorem State.resetPin_host : (s.resetPin).host = s.host := rfl
@[simp] theorem State.resetPin_rdOut : (s.resetPin).rdOut = s.rdOut := rfl
@[simp] theorem State.resetPin_draws : (s.resetPin).draws = s.draws := rfl

end

/-! ### Emitting a byte -/

section
variable (v : Byte) (s : State)

@[simp] theorem State.emitByte_cfg : (s.emitByte v).cfg = s.cfg := rfl
@[simp] theorem State.emitByte_phase : (s.emitByte v).phase = s.phase := rfl
@[simp] theorem State.emitByte_fault : (s.emitByte v).fault = s.fault := rfl
@[simp] theorem State.emitByte_fcmd : (s.emitByte v).fcmd = s.fcmd := rfl
@[simp] theorem State.emitByte_ft : (s.emitByte v).ft = s.ft := rfl
@[simp] theorem State.emitByte_ftn : (s.emitByte v).ftn = s.ftn := rfl
@[simp] theorem State.emitByte_total : (s.emitByte v).total = s.total := rfl
@[simp] theorem State.emitByte_gl : (s.emitByte v).gl = s.gl := rfl
@[simp] theorem State.emitByte_cb : (s.emitByte v).cb = s.cb := rfl
@[simp] theorem State.emitByte_cbn : (s.emitByte v).cbn = s.cbn := rfl
@[simp] theorem State.emitByte_pad : (s.emitByte v).pad = s.pad := rfl
@[simp] theorem State.emitByte_pacc : (s.emitByte v).pacc = s.pacc := rfl
@[simp] theorem State.emitByte_pcnt : (s.emitByte v).pcnt = s.pcnt := rfl
@[simp] theorem State.emitByte_hold : (s.emitByte v).hold = s.hold := rfl
@[simp] theorem State.emitByte_holdv : (s.emitByte v).holdv = s.holdv := rfl
@[simp] theorem State.emitByte_acc : (s.emitByte v).acc = s.acc := rfl
@[simp] theorem State.emitByte_osym : (s.emitByte v).osym = s.osym := rfl
@[simp] theorem State.emitByte_ocode : (s.emitByte v).ocode = s.ocode := rfl
@[simp] theorem State.emitByte_openv : (s.emitByte v).openv = s.openv := rfl
@[simp] theorem State.emitByte_byteOut : (s.emitByte v).byteOut = s.byteOut ++ [v] := rfl
@[simp] theorem State.emitByte_symOut : (s.emitByte v).symOut = s.symOut := rfl
@[simp] theorem State.emitByte_host : (s.emitByte v).host = s.host := rfl
@[simp] theorem State.emitByte_rdOut : (s.emitByte v).rdOut = s.rdOut := rfl
@[simp] theorem State.emitByte_draws : (s.emitByte v).draws = s.draws := rfl

end

/-! ### Emitting a symbol -/

section
variable (v : Symbol) (s : State)

@[simp] theorem State.emitSym_cfg : (s.emitSym v).cfg = s.cfg := rfl
@[simp] theorem State.emitSym_phase : (s.emitSym v).phase = s.phase := rfl
@[simp] theorem State.emitSym_fault : (s.emitSym v).fault = s.fault := rfl
@[simp] theorem State.emitSym_fcmd : (s.emitSym v).fcmd = s.fcmd := rfl
@[simp] theorem State.emitSym_ft : (s.emitSym v).ft = s.ft := rfl
@[simp] theorem State.emitSym_ftn : (s.emitSym v).ftn = s.ftn := rfl
@[simp] theorem State.emitSym_total : (s.emitSym v).total = s.total := rfl
@[simp] theorem State.emitSym_gl : (s.emitSym v).gl = s.gl := rfl
@[simp] theorem State.emitSym_cb : (s.emitSym v).cb = s.cb := rfl
@[simp] theorem State.emitSym_cbn : (s.emitSym v).cbn = s.cbn := rfl
@[simp] theorem State.emitSym_pad : (s.emitSym v).pad = s.pad := rfl
@[simp] theorem State.emitSym_pacc : (s.emitSym v).pacc = s.pacc := rfl
@[simp] theorem State.emitSym_pcnt : (s.emitSym v).pcnt = s.pcnt := rfl
@[simp] theorem State.emitSym_hold : (s.emitSym v).hold = s.hold := rfl
@[simp] theorem State.emitSym_holdv : (s.emitSym v).holdv = s.holdv := rfl
@[simp] theorem State.emitSym_acc : (s.emitSym v).acc = s.acc := rfl
@[simp] theorem State.emitSym_osym : (s.emitSym v).osym = s.osym := rfl
@[simp] theorem State.emitSym_ocode : (s.emitSym v).ocode = s.ocode := rfl
@[simp] theorem State.emitSym_openv : (s.emitSym v).openv = s.openv := rfl
@[simp] theorem State.emitSym_byteOut : (s.emitSym v).byteOut = s.byteOut := rfl
@[simp] theorem State.emitSym_symOut : (s.emitSym v).symOut = s.symOut ++ [v] := rfl
@[simp] theorem State.emitSym_host : (s.emitSym v).host = s.host := rfl
@[simp] theorem State.emitSym_rdOut : (s.emitSym v).rdOut = s.rdOut := rfl
@[simp] theorem State.emitSym_draws : (s.emitSym v).draws = s.draws := rfl

end

end Sys2Proof.Machine
end

