-- ==== Sys2Proof/Laws/Ops.lean ====
section
/-! SUPPORT. One lemma for each shared operation: what the processing of a command can do (30_encoding.md
R94), what the operands, the adder, the table writes and the searches give (00_scope.md R13, R16). -/

namespace Sys2Proof

/-! ### Operands and counts -/

/-- A symbol operand in range is the symbol (30_encoding.md R91). -/
theorem Machine.symbolOperand_eq (c : Config) (arg : Word) (h : arg.toNat < 2 ^ c.symw) :
    Machine.symbolOperand c arg = arg := by
  rw [Machine.symbolOperand, Nat.mod_eq_of_lt h, BitVec.ofNat_toNat, BitVec.setWidth_eq]

/-- Every symbol operand has `SYMW` bits. -/
theorem Machine.symbolOperand_lt (c : Config) (arg : Word) : (Machine.symbolOperand c arg).toNat < 2 ^ c.symw := by
  rw [Machine.symbolOperand, BitVec.toNat_ofNat]
  exact Nat.lt_of_le_of_lt (Nat.mod_le _ _) (Nat.mod_lt _ (Nat.two_pow_pos _))

theorem Config.two_pow_cntw_le (c : Config) : 2 ^ c.cntw ≤ 2 ^ 32 :=
  Nat.pow_le_pow_right (by decide) c.cntw_range.2

/-- `CNTMAX` as a number (00_scope.md R8). -/
theorem Config.cntMax_toNat (c : Config) : c.cntMax.toNat = 2 ^ c.cntw - 1 := by
  have := c.two_pow_cntw_le
  have := Nat.two_pow_pos c.cntw
  rw [Config.cntMax, BitVec.toNat_ofNat, Nat.mod_eq_of_lt (by omega)]

/-- A sum that fits `CNTW` bits is exact (00_scope.md R16). -/
theorem Config.addCount_toNat (c : Config) (a b : Count) (h : a.toNat + b.toNat < 2 ^ c.cntw) :
    (c.addCount a b).toNat = a.toNat + b.toNat := by
  have := c.two_pow_cntw_le
  rw [Config.addCount, BitVec.toNat_ofNat, Nat.mod_eq_of_lt h, Nat.mod_eq_of_lt (by omega)]

/-- Every sum has `CNTW` bits. -/
theorem Config.addCount_lt (c : Config) (a b : Count) : (c.addCount a b).toNat < 2 ^ c.cntw := by
  rw [Config.addCount, BitVec.toNat_ofNat]
  exact Nat.lt_of_le_of_lt (Nat.mod_le _ _) (Nat.mod_lt _ (Nat.two_pow_pos _))

/-- The increment of a 17-bit slot count below `NSYM` does not wrap (00_scope.md R16 (c)). -/
theorem Config.succ_toNat (c : Config) (n : BitVec 17) (h : n.toNat < c.nsym) : (n + 1#17).toNat = n.toNat + 1 := by
  have := c.nsym_range.2
  rw [BitVec.toNat_add, BitVec.toNat_ofNat, Nat.mod_eq_of_lt (show 1 < 2 ^ 17 by decide), Nat.mod_eq_of_lt (by omega)]

namespace Machine

/-! ### The processing of a command -/

@[simp] theorem Progress.andThen_done (s : State) (k : State → Progress) : (Progress.done s).andThen k = k s := rfl

@[simp] theorem Progress.andThen_raised (f : FaultCode) (s : State) (k : State → Progress) :
    (Progress.raised f s).andThen k = .raised f s := rfl

/-- What a rule made of two parts can end in. -/
theorem Progress.andThen_eq_done {p : Progress} {k : State → Progress} {t : State} :
    p.andThen k = .done t ↔ ∃ s, p = .done s ∧ k s = .done t := by
  cases p <;> simp

theorem Progress.andThen_eq_raised {p : Progress} {k : State → Progress} {f : FaultCode} {t : State} :
    p.andThen k = .raised f t ↔ p = .raised f t ∨ ∃ s, p = .done s ∧ k s = .raised f t := by
  cases p <;> simp

@[simp] theorem Progress.finish_done (cmd : CommandWord) (s : State) : (Progress.done s).finish cmd = s := rfl

@[simp] theorem Progress.finish_raised (cmd : CommandWord) (f : FaultCode) (s : State) :
    (Progress.raised f s).finish cmd = s.raise f cmd := rfl

section
variable {i : Instr} {body : State → Progress} {s : State}

theorem processCommand_of_faulted (h : s.fault ≠ none) : processCommand i body s = s := by
  simp [processCommand, Option.isSome_iff_ne_none.2 h]

theorem processCommand_of_not_admitted (hf : s.fault = none) (ha : admitted i s = false) :
    processCommand i body s = s.raise .badPhase (encode i) := by
  simp [processCommand, hf, ha]

theorem processCommand_of_not_legal (hf : s.fault = none) (ha : admitted i s = true)
    (hl : operandLegal s.cfg i = false) : processCommand i body s = s.raise .badOperand (encode i) := by
  simp [processCommand, hf, ha, hl]

theorem processCommand_of_legal (hf : s.fault = none) (ha : admitted i s = true)
    (hl : operandLegal s.cfg i = true) : processCommand i body s = (body s).finish (encode i) := by
  simp [processCommand, hf, ha, hl]

/-- Everything the processing of a command can end in (30_encoding.md R94 steps 2, 4, 5 and 6). -/
theorem processCommand_cases (i : Instr) (body : State → Progress) (s : State) :
    (s.fault ≠ none ∧ processCommand i body s = s) ∨
    (s.fault = none ∧ admitted i s = false ∧ processCommand i body s = s.raise .badPhase (encode i)) ∨
    (s.fault = none ∧ admitted i s = true ∧ operandLegal s.cfg i = false ∧
      processCommand i body s = s.raise .badOperand (encode i)) ∨
    (s.fault = none ∧ admitted i s = true ∧ operandLegal s.cfg i = true ∧
      ((∃ t, body s = .done t ∧ processCommand i body s = t) ∨
        ∃ f t, body s = .raised f t ∧ processCommand i body s = t.raise f (encode i))) := by
  by_cases hf : s.fault = none
  · cases ha : admitted i s
    · exact .inr (.inl ⟨hf, rfl, processCommand_of_not_admitted hf ha⟩)
    · cases hl : operandLegal s.cfg i
      · exact .inr (.inr (.inl ⟨hf, rfl, rfl, processCommand_of_not_legal hf ha hl⟩))
      · refine .inr (.inr (.inr ⟨hf, rfl, rfl, ?_⟩))
        rw [processCommand_of_legal hf ha hl]
        cases h : body s with
        | done t => exact .inl ⟨t, rfl, rfl⟩
        | raised f t => exact .inr ⟨f, t, rfl, rfl⟩
  · exact .inl ⟨hf, processCommand_of_faulted hf⟩

end

/-! ### The tables -/

section
variable {α : Type} (table : List α) (i : Nat) (x : α)

/-- The slots below the index are kept, and the slot at the end of them is the written one. -/
theorem take_writeSlot : (writeSlot table i x).take (i + 1) = table.take i ++ [x] := by
  have h : (table.take i).length ≤ i := by simp
  rw [writeSlot, List.take_append, List.take_of_length_le (by omega)]
  congr 1
  rcases Nat.lt_or_ge table.length i with hlt | hge
  · rw [List.drop_of_length_le (by omega)]
    simp only [List.length_take, Nat.min_eq_right (Nat.le_of_lt hlt)]
    rw [List.take_of_length_le (by simp; omega)]
  · simp [Nat.min_eq_left hge, List.take_succ_cons]

theorem getElem?_writeSlot_self (h : i ≤ table.length) : (writeSlot table i x)[i]? = some x := by
  simp [writeSlot, Nat.min_eq_left h]

theorem getElem?_writeSlot_ne {j : Nat} (h : i ≤ table.length) (hj : j ≠ i) :
    (writeSlot table i x)[j]? = table[j]? := by
  rcases Nat.lt_or_gt_of_ne hj with hlt | hgt
  · rw [writeSlot, List.getElem?_append_left (by simp; omega), List.getElem?_take_of_lt hlt]
  · rw [writeSlot, List.getElem?_append_right (by simp; omega)]
    obtain ⟨k, rfl⟩ : ∃ k, j = i + 1 + k := ⟨j - (i + 1), by omega⟩
    simp only [List.length_take, Nat.min_eq_left h]
    rw [show i + 1 + k - i = k + 1 by omega]
    simp [List.getElem?_drop]

theorem length_writeSlot (h : i ≤ table.length) : (writeSlot table i x).length = max table.length (i + 1) := by
  simp only [writeSlot, List.length_append, List.length_take, List.length_cons, List.length_drop]
  omega

end

/-! ### The searches -/

section
variable {s : State}

theorem ftFind_eq_none_iff {sym : Symbol} : s.ftFind sym = none ↔ ∀ x ∈ s.ftValid, x.sym ≠ sym := by
  simp [State.ftFind, List.findIdx?_eq_none_iff]

/-- The slot found holds the symbol (00_scope.md R13). -/
theorem ftFind_eq_some {sym : Symbol} {i : Nat} (h : s.ftFind sym = some i) :
    ∃ x, s.ftValid[i]? = some x ∧ x.sym = sym := by
  obtain ⟨hi, hx, -⟩ := List.findIdx?_eq_some_iff_getElem.1 h
  exact ⟨s.ftValid[i], List.getElem?_eq_getElem hi, by simpa using hx⟩

/-- With pairwise different symbols the search finds the one slot that holds the symbol (10_state.md R37). -/
theorem ftFind_eq_some_of_nodup {sym : Symbol} {i : Nat} {x : FtSlot} (hd : (s.ftValid.map FtSlot.sym).Nodup)
    (hx : s.ftValid[i]? = some x) (hs : x.sym = sym) : s.ftFind sym = some i := by
  obtain ⟨hi, rfl⟩ := List.getElem?_eq_some_iff.1 hx
  refine List.findIdx?_eq_some_iff_getElem.2 ⟨hi, by simpa using hs, fun j hj => ?_⟩
  have hne := List.pairwise_iff_getElem.1 hd j i (by simp; omega) (by simpa using hi) hj
  rw [List.getElem_map, List.getElem_map] at hne
  simpa [← hs] using hne

theorem cbFindSym_eq_none_iff {sym : Symbol} : s.cbFindSym sym = none ↔ ∀ e ∈ s.cbValid, e.sym ≠ sym := by
  simp [State.cbFindSym, List.find?_eq_none]

theorem cbFindCode_eq_none_iff {code : BitString} : s.cbFindCode code = none ↔ ∀ e ∈ s.cbValid, e.code ≠ code := by
  simp [State.cbFindCode, List.find?_eq_none]

theorem cbFindSym_eq_some {sym : Symbol} {e : CodeEntry} (h : s.cbFindSym sym = some e) :
    e ∈ s.cbValid ∧ e.sym = sym :=
  ⟨List.mem_of_find?_eq_some h, by simpa using List.find?_some h⟩

theorem cbFindCode_eq_some {code : BitString} {e : CodeEntry} (h : s.cbFindCode code = some e) :
    e ∈ s.cbValid ∧ e.code = code :=
  ⟨List.mem_of_find?_eq_some h, by simpa using List.find?_some h⟩

/-- With pairwise different symbols the entry found is the one with the symbol (10_state.md R40 (a)). -/
theorem cbFindSym_eq_some_of_nodup {e : CodeEntry} (hd : (s.cbValid.map CodeEntry.sym).Nodup)
    (he : e ∈ s.cbValid) : s.cbFindSym e.sym = some e := by
  cases h : s.cbFindSym e.sym with
  | none => exact absurd rfl (cbFindSym_eq_none_iff.1 h e he)
  | some d =>
    obtain ⟨hm, hs⟩ := cbFindSym_eq_some h
    rw [List.inj_on_of_nodup_map hd hm he hs]

/-- With pairwise different codes the entry found is the one with the code (10_state.md R40 (b)). -/
theorem cbFindCode_eq_some_of_nodup {e : CodeEntry} (hd : (s.cbValid.map CodeEntry.code).Nodup)
    (he : e ∈ s.cbValid) : s.cbFindCode e.code = some e := by
  cases h : s.cbFindCode e.code with
  | none => exact absurd rfl (cbFindCode_eq_none_iff.1 h e he)
  | some d =>
    obtain ⟨hm, hs⟩ := cbFindCode_eq_some h
    rw [List.inj_on_of_nodup_map hd hm he hs]

end

end Machine

end Sys2Proof
end

