-- ==== Sys2Proof/Laws/BitPacker.lean ====
section
/-! SUPPORT. What the packer's operations leave unchanged (43_bit_packer.md R152, R154, R156). -/

namespace Sys2Proof.Machine

/-- `PushBit` writes `BYTE_OUT`, `PACC` and `PCNT` only (43_bit_packer.md R154). -/
theorem pushBit_frame (s : State) (b : Bool) :
    s.pushBit b = { s with byteOut := (s.pushBit b).byteOut, pacc := (s.pushBit b).pacc,
                           pcnt := (s.pushBit b).pcnt } := by
  rw [State.pushBit]
  split <;> rfl

@[simp] theorem pushBits_nil (s : State) : s.pushBits [] = s := rfl

@[simp] theorem pushBits_cons (s : State) (b : Bool) (bs : BitString) :
    s.pushBits (b :: bs) = (s.pushBit b).pushBits bs := rfl

/-- Pushing a code writes `BYTE_OUT`, `PACC` and `PCNT` only (43_bit_packer.md R152). -/
theorem pushBits_frame (bs : BitString) (s : State) :
    s.pushBits bs = { s with byteOut := (s.pushBits bs).byteOut, pacc := (s.pushBits bs).pacc,
                             pcnt := (s.pushBits bs).pcnt } := by
  induction bs generalizing s with
  | nil => rfl
  | cons b bs ih =>
    have h := ih (s.pushBit b)
    rw [pushBit_frame s b] at h
    rw [pushBits_cons, pushBit_frame s b]
    exact h

/-- `PACK_END` writes `PAD`, `BYTE_OUT`, `PACC`, `PCNT` and `PHASE` only (43_bit_packer.md R156). -/
theorem finishPacking_frame (s : State) :
    finishPacking s = { s with pad := (finishPacking s).pad, byteOut := (finishPacking s).byteOut,
                               pacc := (finishPacking s).pacc, pcnt := (finishPacking s).pcnt,
                               phase := .ready } := by
  rw [finishPacking]
  split <;> rfl

end Sys2Proof.Machine
end

