-- ==== Sys2Proof/Laws/Decoder.lean ====
section
/-! SUPPORT. Everything the walk engine and the three decoder rules can do (44_unpacker_decoder.md R172, R174,
R176). -/

namespace Sys2Proof.Machine

/-- `FeedBit` raises `MALFORMED_STREAM` on a full accumulator, or takes the bit, or completes an entry
(44_unpacker_decoder.md R172). -/
theorem feedBit_cases (b : Bool) (s : State) :
    (s.acc.length = s.cfg.maxLen ∧ s.feedBit b = .raised .malformedStream s) ∨
    (s.acc.length ≠ s.cfg.maxLen ∧
      ((s.cbFindCode (s.acc ++ [b]) = none ∧ s.feedBit b = .done { s with acc := s.acc ++ [b] }) ∨
       ∃ e, s.cbFindCode (s.acc ++ [b]) = some e ∧
        s.feedBit b = .done { s with symOut := s.symOut ++ [e.sym], acc := [] })) := by
  by_cases h : s.acc.length = s.cfg.maxLen
  · exact .inl ⟨h, by rw [State.feedBit, if_pos h]⟩
  · refine .inr ⟨h, ?_⟩
    rw [State.feedBit, if_neg h]
    cases hc : s.cbFindCode (s.acc ++ [b]) with
    | none => exact .inl ⟨rfl, rfl⟩
    | some e => exact .inr ⟨e, rfl, rfl⟩

@[simp] theorem feedBits_nil (s : State) : s.feedBits [] = .done s := rfl

@[simp] theorem feedBits_cons (b : Bool) (bs : BitString) (s : State) :
    s.feedBits (b :: bs) = (s.feedBit b).andThen (State.feedBits bs) := rfl

/-- Feeding bits appends symbols, changes the accumulator, and touches nothing else. -/
theorem feedBits_done {bs : BitString} {s t : State} (h : s.feedBits bs = .done t) :
    ∃ syms acc, t = { s with symOut := s.symOut ++ syms, acc := acc } := by
  induction bs generalizing s with
  | nil => exact ⟨[], s.acc, by simpa using (Progress.done.inj h).symm⟩
  | cons b bs ih =>
    rw [feedBits_cons, Progress.andThen_eq_done] at h
    obtain ⟨u, hu, ht⟩ := h
    obtain ⟨syms, acc, rfl⟩ := ih ht
    rcases feedBit_cases b s with ⟨-, e⟩ | ⟨-, ⟨-, e⟩ | ⟨d, -, e⟩⟩
    · rw [e] at hu; cases hu
    · rw [e] at hu; cases hu; exact ⟨syms, acc, rfl⟩
    · rw [e] at hu; cases hu; exact ⟨d.sym :: syms, acc, by simp⟩

/-- Only `MALFORMED_STREAM` can be raised, with the accumulator full; the symbols emitted before stay. -/
theorem feedBits_raised {bs : BitString} {s t : State} {f : FaultCode} (h : s.feedBits bs = .raised f t) :
    f = .malformedStream ∧ t.acc.length = t.cfg.maxLen ∧
      ∃ syms acc, t = { s with symOut := s.symOut ++ syms, acc := acc } := by
  induction bs generalizing s with
  | nil => cases h
  | cons b bs ih =>
    rw [feedBits_cons, Progress.andThen_eq_raised] at h
    rcases feedBit_cases b s with ⟨hl, e⟩ | ⟨-, ⟨-, e⟩ | ⟨d, -, e⟩⟩
    · rw [e] at h
      rcases h with h | ⟨u, hu, -⟩
      · obtain ⟨rfl, rfl⟩ := Progress.raised.inj h
        exact ⟨rfl, hl, [], s.acc, by rw [List.append_nil]⟩
      · cases hu
    · rw [e] at h
      rcases h with h | ⟨u, hu, ht⟩
      · cases h
      · cases hu
        obtain ⟨hf, hl, syms, acc, rfl⟩ := ih ht
        exact ⟨hf, hl, syms, acc, rfl⟩
    · rw [e] at h
      rcases h with h | ⟨u, hu, ht⟩
      · cases h
      · cases hu
        obtain ⟨hf, hl, syms, acc, rfl⟩ := ih ht
        exact ⟨hf, hl, d.sym :: syms, acc, by simp⟩

/-- The fault comes at one bit: the bits before it were fed, and left the state the fault leaves. -/
theorem feedBits_raised_at {bs : BitString} {s t : State} {f : FaultCode} (h : s.feedBits bs = .raised f t) :
    ∃ k, k < bs.length ∧ s.feedBits (bs.take k) = .done t := by
  induction bs generalizing s with
  | nil => cases h
  | cons b bs ih =>
    rw [feedBits_cons, Progress.andThen_eq_raised] at h
    rcases h with h | ⟨u, hu, ht⟩
    · rcases feedBit_cases b s with ⟨-, e⟩ | ⟨-, ⟨-, e⟩ | ⟨d, -, e⟩⟩ <;> rw [e] at h
      · obtain ⟨rfl, rfl⟩ := Progress.raised.inj h
        exact ⟨0, Nat.zero_lt_succ _, rfl⟩
      · cases h
      · cases h
    · obtain ⟨k, hk, e⟩ := ih ht
      exact ⟨k + 1, Nat.succ_lt_succ hk, by rw [List.take_succ_cons, feedBits_cons, hu]; exact e⟩

/-- Feeding a concatenation is feeding its parts one after the other. -/
theorem feedBits_append (bs cs : BitString) (s : State) :
    s.feedBits (bs ++ cs) = (s.feedBits bs).andThen (State.feedBits cs) := by
  induction bs generalizing s with
  | nil => rfl
  | cons b bs ih =>
    rw [List.cons_append, feedBits_cons, feedBits_cons]
    cases h : s.feedBit b with
    | done t => simpa using ih t
    | raised f t => rfl

/-- `DEC_BYTE` completed: the symbols of the held byte are appended and the new byte is held. -/
theorem decodeByte_done {v : Byte} {s t : State} (h : decodeByte v s = .done t) :
    ∃ syms acc, t = { s with symOut := s.symOut ++ syms, acc := acc, hold := v, holdv := true } := by
  rw [decodeByte, Progress.andThen_eq_done] at h
  obtain ⟨u, hu, ht⟩ := h
  obtain rfl := Progress.done.inj ht
  by_cases hv : s.holdv = true
  on_goal 2 =>
    rw [if_neg hv] at hu
    obtain rfl := Progress.done.inj hu
    exact ⟨[], s.acc, by rw [List.append_nil]⟩
  · rw [if_pos hv] at hu
    obtain ⟨syms, acc, rfl⟩ := feedBits_done hu
    exact ⟨syms, acc, rfl⟩

/-- `DEC_BYTE` faulted: the old byte stays held (44_unpacker_decoder.md R174). -/
theorem decodeByte_raised {v : Byte} {s t : State} {f : FaultCode} (h : decodeByte v s = .raised f t) :
    f = .malformedStream ∧ s.holdv = true ∧ ∃ syms acc, t = { s with symOut := s.symOut ++ syms, acc := acc } := by
  rw [decodeByte, Progress.andThen_eq_raised] at h
  rcases h with h | ⟨u, -, h⟩
  · by_cases hv : s.holdv = true
    · rw [if_pos hv] at h
      obtain ⟨hf, -, syms, acc, e⟩ := feedBits_raised h
      exact ⟨hf, hv, syms, acc, e⟩
    · rw [if_neg hv] at h; cases h
  · cases h

/-- The last byte fed: `HOLDV` is 0 afterwards. -/
theorem feedLastByte_done {s t : State} (h : feedLastByte s = .done t) :
    ∃ syms acc, t = { s with symOut := s.symOut ++ syms, acc := acc, holdv := false } := by
  rw [feedLastByte] at h
  by_cases hv : s.holdv = true
  on_goal 2 =>
    rw [if_neg hv] at h
    by_cases hp : s.pad.toNat > 0
    · rw [if_pos hp] at h; cases h
    · rw [if_neg hp] at h
      obtain rfl := Progress.done.inj h
      exact ⟨[], s.acc, by rw [List.append_nil, ← Bool.eq_false_of_not_eq_true hv]⟩
  · rw [if_pos hv, Progress.andThen_eq_done] at h
    obtain ⟨u, hu, ht⟩ := h
    obtain rfl := Progress.done.inj ht
    obtain ⟨syms, acc, rfl⟩ := feedBits_done hu
    exact ⟨syms, acc, rfl⟩

theorem feedLastByte_raised {s t : State} {f : FaultCode} (h : feedLastByte s = .raised f t) :
    f = .malformedStream ∧ ∃ syms acc, t = { s with symOut := s.symOut ++ syms, acc := acc } := by
  rw [feedLastByte] at h
  by_cases hv : s.holdv = true
  on_goal 2 =>
    rw [if_neg hv] at h
    by_cases hp : s.pad.toNat > 0
    · rw [if_pos hp] at h
      obtain ⟨rfl, rfl⟩ := Progress.raised.inj h
      exact ⟨rfl, [], s.acc, by rw [List.append_nil]⟩
    · rw [if_neg hp] at h; cases h
  · rw [if_pos hv, Progress.andThen_eq_raised] at h
    rcases h with h | ⟨u, -, h⟩
    · obtain ⟨hf, -, e⟩ := feedBits_raised h
      exact ⟨hf, e⟩
    · cases h

/-- `DEC_END` completed: nothing is left over and the run is closed (44_unpacker_decoder.md R176). -/
theorem finishDecoding_done {s t : State} (h : finishDecoding s = .done t) :
    ∃ syms, t = { s with symOut := s.symOut ++ syms, acc := [], holdv := false, phase := .ready } := by
  rw [finishDecoding, Progress.andThen_eq_done] at h
  obtain ⟨u, hu, ht⟩ := h
  obtain ⟨syms, acc, rfl⟩ := feedLastByte_done hu
  by_cases ha : acc = []
  · subst ha
    rw [if_pos rfl] at ht
    obtain rfl := Progress.done.inj ht
    exact ⟨syms, rfl⟩
  · rw [if_neg ha] at ht; cases ht

/-- `DEC_END` faulted: in a feed, with `HOLDV` as it was, or with bits left over and `HOLDV` 0. -/
theorem finishDecoding_raised {s t : State} {f : FaultCode} (h : finishDecoding s = .raised f t) :
    f = .malformedStream ∧ ∃ syms acc,
      t = { s with symOut := s.symOut ++ syms, acc := acc } ∨
      (acc ≠ [] ∧ t = { s with symOut := s.symOut ++ syms, acc := acc, holdv := false }) := by
  rw [finishDecoding, Progress.andThen_eq_raised] at h
  rcases h with h | ⟨u, hu, ht⟩
  · obtain ⟨hf, syms, acc, e⟩ := feedLastByte_raised h
    exact ⟨hf, syms, acc, .inl e⟩
  · obtain ⟨syms, acc, rfl⟩ := feedLastByte_done hu
    by_cases ha : acc = []
    · rw [if_pos ha] at ht; cases ht
    · rw [if_neg ha] at ht
      cases ht
      exact ⟨rfl, syms, acc, .inr ⟨ha, rfl⟩⟩

end Sys2Proof.Machine
end

