-- ==== Sys2Proof/Laws/Encoding.lean ====
section
/-! SUPPORT. The fields of a command word and the two masks of the opcode map (30_encoding.md R90, R92). -/

namespace Sys2Proof

/-! ### A word is its three fields -/

@[simp] theorem argField_append (op : BitVec 8) (rsv : BitVec 24) (arg : Word) :
    argField (op ++ rsv ++ arg) = arg := by
  simp only [argField]
  exact BitVec.extractLsb'_append_eq_right

@[simp] theorem rsvField_append (op : BitVec 8) (rsv : BitVec 24) (arg : Word) :
    rsvField (op ++ rsv ++ arg) = rsv := by
  apply BitVec.eq_of_getLsbD_eq
  intro k hk
  simp only [rsvField, BitVec.getLsbD_extractLsb', BitVec.getLsbD_append]
  simp [hk, show ¬ 32 + k < 32 by omega, show 32 + k - 32 = k by omega]

@[simp] theorem opField_append (op : BitVec 8) (rsv : BitVec 24) (arg : Word) :
    opField (op ++ rsv ++ arg) = op := by
  apply BitVec.eq_of_getLsbD_eq
  intro k hk
  simp only [opField, BitVec.getLsbD_extractLsb', BitVec.getLsbD_append]
  simp [hk, show ¬ 56 + k < 32 by omega, show ¬ 56 + k - 32 < 24 by omega, show 56 + k - 32 - 24 = k by omega]

/-- A word is its three fields (30_encoding.md R90). -/
theorem word_eq_fields (w : CommandWord) : w = opField w ++ rsvField w ++ argField w := by
  apply BitVec.eq_of_getLsbD_eq
  intro k hk
  simp only [opField, rsvField, argField, BitVec.getLsbD_append, BitVec.getLsbD_extractLsb']
  split
  · simp [*]
  · split
    · have : k - 32 < 24 := by omega
      simp [this, show 32 + (k - 32) = k by omega]
    · have : k - 32 - 24 < 8 := by omega
      simp [this, show 56 + (k - 32 - 24) = k by omega]

/-- Words are equal exactly when their fields are. -/
theorem word_eq_iff (v w : CommandWord) :
    v = w ↔ opField v = opField w ∧ rsvField v = rsvField w ∧ argField v = argField w := by
  constructor
  · rintro rfl; exact ⟨rfl, rfl, rfl⟩
  · rintro ⟨hop, hrsv, harg⟩
    rw [word_eq_fields v, word_eq_fields w, hop, hrsv, harg]

@[simp] theorem argField_encode (i : Instr) : argField (encode i) = i.arg := argField_append ..

@[simp] theorem rsvField_encode (i : Instr) : rsvField (encode i) = 0#24 := rsvField_append ..

@[simp] theorem opField_encode (i : Instr) : opField (encode i) = i.op := opField_append ..

/-! ### The two masks of the opcode map -/

/-- The mask of a row without operand compares the whole word. -/
theorem and_fullMask (w : CommandWord) : w &&& 0xFFFFFFFFFFFFFFFF#64 = w := BitVec.and_allOnes

/-- The mask of a row with an operand keeps `op` and `rsv` and clears `arg`. -/
theorem and_operandMask (w : CommandWord) :
    w &&& 0xFFFFFFFF00000000#64 = opField w ++ rsvField w ++ 0#32 := by
  have hmask : (0xFFFFFFFF00000000#64 : CommandWord) = BitVec.allOnes 8 ++ BitVec.allOnes 24 ++ 0#32 := by decide
  conv => lhs; rw [word_eq_fields w, hmask]
  refine (BitVec.and_append (x₁ := opField w ++ rsvField w) (y₁ := argField w)).trans ?_
  rw [BitVec.and_append, BitVec.and_allOnes, BitVec.and_allOnes, BitVec.and_zero]

/-- A row with an operand matches exactly the words that have the pattern's `op` and `rsv`, when the pattern's
`arg` is 0. -/
theorem and_operandMask_eq_iff (w p : CommandWord) (hp : argField p = 0#32) :
    w &&& 0xFFFFFFFF00000000#64 = p ↔ opField w = opField p ∧ rsvField w = rsvField p := by
  rw [and_operandMask, word_eq_iff]
  simp [hp]

/-! ### Well-formed commands -/

/-- The well-formedness of a command is the operand check of its processing (30_encoding.md R91, R94). -/
theorem wellFormed_eq_operandLegal (c : Config) (i : Instr) : i.wellFormed c = Machine.operandLegal c i := by
  cases i <;> simp [Instr.wellFormed, Machine.operandLegal, Machine.operandBound, Machine.operandKind, Instr.arg,
    Nat.lt_succ_iff] <;> rfl

end Sys2Proof
end

