-- ==== Sys2Proof/Laws/Exec.lean ====
section
/-! SUPPORT. Every command but `CLEAR` is the shared processing around its own rule (30_encoding.md R94), and
every action of the host gives a next state. -/

namespace Sys2Proof.Machine

/-- The own rule of a command: step 6 of 30_encoding.md R94. -/
def commandRule (i : Instr) (s : State) : Progress :=
  match i with
  | .nop => .done s
  | .clear => .done s.clear
  | .cntSym arg => countSymbol (symbolOperand s.cfg arg) s
  | .build => .done (buildCodebook s)
  | .packBegin => .done { s with pacc := 0#8, pcnt := 0#3, phase := .pack }
  | .packSym arg => packSymbol (symbolOperand s.cfg arg) s
  | .packEnd => .done (finishPacking s)
  | .decBegin arg =>
    .done { s with pad := paddingOperand arg, hold := 0#8, holdv := false, acc := [], phase := .decode }
  | .decByte arg => decodeByte (byteOperand arg) s
  | .decEnd => finishDecoding s
  | .cblOpen arg => openEntry (symbolOperand s.cfg arg) s
  | .cblBit arg => appendCodeBit (bitOperand arg) s
  | .cblClose => closeEntry s
  | .cblEnd => .done { s with phase := .ready }

@[simp] theorem exec_clear (s : State) : exec .clear s = .next s.clear := rfl

/-- Every command but `CLEAR` runs its rule inside the shared processing. -/
theorem exec_eq_processCommand {i : Instr} (hi : i ≠ .clear) (s : State) :
    exec i s = .next (processCommand i (commandRule i) s) := by
  cases i <;> first | rfl | exact absurd rfl hi

/-- An admitted command in range, without a fault pending, ends as its rule does. -/
theorem exec_of_legal {i : Instr} {s : State} (hf : s.fault = none) (ha : admitted i s = true)
    (hl : operandLegal s.cfg i = true) : exec i s = .next ((commandRule i s).finish (encode i)) := by
  by_cases hi : i = .clear
  · subst hi; rfl
  · rw [exec_eq_processCommand hi, processCommand_of_legal hf ha hl]

/-- Everything a command can do (30_encoding.md R94): `CLEAR`, discarded, refused by phase or operand, completed,
or faulted by a check of its own. -/
theorem exec_cases {i : Instr} {s t : State} (h : exec i s = .next t) :
    (i = .clear ∧ t = s.clear) ∨
    (i ≠ .clear ∧
      ((s.fault ≠ none ∧ t = s) ∨
       (s.fault = none ∧ admitted i s = false ∧ t = s.raise .badPhase (encode i)) ∨
       (s.fault = none ∧ admitted i s = true ∧ operandLegal s.cfg i = false ∧
         t = s.raise .badOperand (encode i)) ∨
       (s.fault = none ∧ admitted i s = true ∧ operandLegal s.cfg i = true ∧
         (commandRule i s = .done t ∨
           ∃ f u, commandRule i s = .raised f u ∧ t = u.raise f (encode i))))) := by
  by_cases hi : i = .clear
  · subst hi
    exact .inl ⟨rfl, by simpa using h.symm⟩
  · refine .inr ⟨hi, ?_⟩
    rw [exec_eq_processCommand hi] at h
    obtain rfl := Host.Outcome.next.inj h
    rcases processCommand_cases i (commandRule i) s with ⟨hf, e⟩ | ⟨hf, ha, e⟩ | ⟨hf, ha, hl, e⟩ | ⟨hf, ha, hl, e⟩
    · exact .inl ⟨hf, e⟩
    · exact .inr (.inl ⟨hf, ha, e⟩)
    · exact .inr (.inr (.inl ⟨hf, ha, hl, e⟩))
    · refine .inr (.inr (.inr ⟨hf, ha, hl, ?_⟩))
      rcases e with ⟨t, ht, e⟩ | ⟨f, u, hu, e⟩
      · exact .inl (by rw [e, ht])
      · exact .inr ⟨f, u, hu, e⟩

/-- A word is never left without an outcome (70_reset_and_hazards.md R252). -/
theorem exec_next (i : Instr) (s : State) : ∃ t, exec i s = .next t := by
  cases i <;> exact ⟨_, rfl⟩

theorem acceptCommand_next (w : CommandWord) (s : State) : ∃ t, acceptCommand w s = .next t := by
  rw [acceptCommand]
  split
  · exact exec_next _ _
  · exact ⟨_, rfl⟩

end Sys2Proof.Machine
end

