-- ==== Sys2Proof/Laws/PerInstr.lean ====
section
/-! SUPPORT. The family `EncodingFields`: for every command, the word `encode` gives has the fields of
30_encoding.md R90 and is accepted by a row of the opcode map that stands for the command (R92). -/

namespace Sys2Proof.Laws.EncodingFields

/-- The word of the command has its opcode, a zero `rsv` and its operand, and the row of its mnemonic accepts
the word and makes the command again. -/
def Statement (i : Instr) : Prop :=
  opField (encode i) = i.op ∧ rsvField (encode i) = 0#24 ∧ argField (encode i) = i.arg ∧
  ∃ r ∈ opcodeTable, r.accepts (encode i) = true ∧ r.make i.arg = i

/-- A row without operand accepts its own word. -/
theorem of_plainRow (i : Instr) (r : OpcodeRow) (hr : r ∈ opcodeTable) (hmask : r.mask = 0xFFFFFFFFFFFFFFFF#64)
    (hpattern : r.pattern = encode i) (hmake : r.make i.arg = i) : Statement i := by
  refine ⟨opField_encode i, rsvField_encode i, argField_encode i, r, hr, ?_, hmake⟩
  rw [OpcodeRow.accepts, hmask, and_fullMask, hpattern, beq_self_eq_true]

/-- A row with an operand accepts every word with its opcode and a zero `rsv`. -/
theorem of_operandRow (i : Instr) (r : OpcodeRow) (hr : r ∈ opcodeTable) (hmask : r.mask = 0xFFFFFFFF00000000#64)
    (harg : argField r.pattern = 0#32) (hop : opField r.pattern = i.op) (hrsv : rsvField r.pattern = 0#24)
    (hmake : r.make i.arg = i) : Statement i := by
  refine ⟨opField_encode i, rsvField_encode i, argField_encode i, r, hr, ?_, hmake⟩
  rw [OpcodeRow.accepts, hmask, beq_iff_eq, and_operandMask_eq_iff _ _ harg]
  simp [hop, hrsv]

theorem nop : Statement .nop :=
  of_plainRow _ opcodeTable[0] (by simp [opcodeTable]) rfl (by decide) rfl

theorem clear : Statement .clear :=
  of_plainRow _ opcodeTable[1] (by simp [opcodeTable]) rfl (by decide) rfl

theorem cntSym (arg : Word) : Statement (.cntSym arg) :=
  of_operandRow _ opcodeTable[2] (by simp [opcodeTable]) rfl (by decide) rfl (by decide) rfl

theorem build : Statement .build :=
  of_plainRow _ opcodeTable[3] (by simp [opcodeTable]) rfl (by decide) rfl

theorem packBegin : Statement .packBegin :=
  of_plainRow _ opcodeTable[4] (by simp [opcodeTable]) rfl (by decide) rfl

theorem packSym (arg : Word) : Statement (.packSym arg) :=
  of_operandRow _ opcodeTable[5] (by simp [opcodeTable]) rfl (by decide) rfl (by decide) rfl

theorem packEnd : Statement .packEnd :=
  of_plainRow _ opcodeTable[6] (by simp [opcodeTable]) rfl (by decide) rfl

theorem decBegin (arg : Word) : Statement (.decBegin arg) :=
  of_operandRow _ opcodeTable[7] (by simp [opcodeTable]) rfl (by decide) rfl (by decide) rfl

theorem decByte (arg : Word) : Statement (.decByte arg) :=
  of_operandRow _ opcodeTable[8] (by simp [opcodeTable]) rfl (by decide) rfl (by decide) rfl

theorem decEnd : Statement .decEnd :=
  of_plainRow _ opcodeTable[9] (by simp [opcodeTable]) rfl (by decide) rfl

theorem cblOpen (arg : Word) : Statement (.cblOpen arg) :=
  of_operandRow _ opcodeTable[10] (by simp [opcodeTable]) rfl (by decide) rfl (by decide) rfl

theorem cblBit (arg : Word) : Statement (.cblBit arg) :=
  of_operandRow _ opcodeTable[11] (by simp [opcodeTable]) rfl (by decide) rfl (by decide) rfl

theorem cblClose : Statement .cblClose :=
  of_plainRow _ opcodeTable[12] (by simp [opcodeTable]) rfl (by decide) rfl

theorem cblEnd : Statement .cblEnd :=
  of_plainRow _ opcodeTable[13] (by simp [opcodeTable]) rfl (by decide) rfl

end Sys2Proof.Laws.EncodingFields
end

