-- ==== Sys2Proof/Laws/RegisterSpace.lean ====
section
/-! SUPPORT. Which word the map of the register space gives an address (20_memory.md R62, R64; 10_state.md R36, R39),
and the bits of a code word. -/

namespace Sys2Proof.Machine

section
variable {s : State} {a : Word}

/-- An address of a control or status register (10_state.md R26). -/
theorem registerRead_control (h : a.toNat ≤ 0xE) : registerRead s a = registerWord s a.toNat := by
  simp only [registerRead, if_pos h]

/-- An address of the `FT` window, as slot and offset (10_state.md R36). -/
theorem registerRead_ft {i o : Nat} (hi : i < s.cfg.nsym) (ho : o < 2) (ha : a.toNat = ftBase + 2 * i + o) :
    registerRead s a = s.ftValid[i]?.map fun x => ftSlotWord x o := by
  have hlow : ¬ a.toNat ≤ 0xE := by simp only [ftBase] at ha; omega
  simp only [registerRead, if_neg hlow]
  rw [if_pos (by omega), show (a.toNat - ftBase) / 2 = i by omega, show (a.toNat - ftBase) % 2 = o by omega]

/-- The `FT` window ends below the `CB` window (20_memory.md R62). -/
theorem ftWindow_lt_cbBase (c : Config) : ftBase + 2 * c.nsym < cbBase := by
  have := c.nsym_range.2
  simp only [ftBase, cbBase]
  omega

/-- An address of the `CB` window, as slot and offset (10_state.md R39). -/
theorem registerRead_cb {i o : Nat} (hi : i < s.cfg.nsym) (ho : o < s.cfg.cbStride)
    (ha : a.toNat = cbBase + i * s.cfg.cbStride + o) :
    registerRead s a = s.cbValid[i]?.map fun e => cbSlotWord e o := by
  have hft := ftWindow_lt_cbBase s.cfg
  have hend : i * s.cfg.cbStride + o < s.cfg.nsym * s.cfg.cbStride :=
    calc i * s.cfg.cbStride + o < (i + 1) * s.cfg.cbStride := by rw [Nat.succ_mul]; omega
      _ ≤ s.cfg.nsym * s.cfg.cbStride := Nat.mul_le_mul_right _ hi
  have hoff : a.toNat - cbBase = o + s.cfg.cbStride * i := by rw [ha, Nat.mul_comm i]; omega
  have hdiv : (a.toNat - cbBase) / s.cfg.cbStride = i := by
    rw [hoff, Nat.add_mul_div_left _ _ (Nat.zero_lt_of_lt ho), Nat.div_eq_of_lt ho, Nat.zero_add]
  have hmod : (a.toNat - cbBase) % s.cfg.cbStride = o := by
    rw [hoff, Nat.add_mul_mod_self_left, Nat.mod_eq_of_lt ho]
  have hlow : ¬ a.toNat ≤ 0xE := by simp only [cbBase] at ha; omega
  simp only [registerRead, if_neg hlow]
  rw [if_neg (by omega), if_pos (by omega), hdiv, hmod]

end

/-- Bit `p` of a code word (10_state.md R39). -/
theorem getLsbD_codeWord (code : BitString) (k : Nat) {p : Nat} (hp : p < 32) :
    (codeWord code k).getLsbD p = code.getD (32 * k + (31 - p)) false := by
  simp only [codeWord, BitVec.getLsbD_ofFnLE, hp, dif_pos]

/-- A read changes only the host's list of words and the draw counter (20_memory.md R65). -/
theorem serveRead_frame (a : Word) (s : State) :
    serveRead a s = { s with rdOut := (serveRead a s).rdOut, draws := (serveRead a s).draws } := rfl

end Sys2Proof.Machine
end

