-- ==== Sys2Proof/Laws/TreeBuilder.lean ====
section
/-! SUPPORT. What the selection and the merge of the Code Tree Builder give (42_tree_builder.md R130 to R133), and
what `BUILD` leaves unchanged. -/

namespace Sys2Proof.Machine

/-! ### The selection order -/

/-- The selection order as numbers (42_tree_builder.md R131). -/
theorem Group.precedes_iff {x y : Group} :
    x.precedes y = true ↔
      x.w.toNat < y.w.toNat ∨ (x.w.toNat = y.w.toNat ∧ x.first.sym.toNat < y.first.sym.toNat) := by
  simp [Group.precedes]

theorem Group.precedes_trans {x y z : Group} (hxy : x.precedes y = true) (hyz : y.precedes z = true) :
    x.precedes z = true := by
  rw [Group.precedes_iff] at *
  omega

theorem Group.not_precedes_trans {x y z : Group} (hxy : ¬ x.precedes y = true) (hyz : ¬ y.precedes z = true) :
    ¬ x.precedes z = true := by
  rw [Group.precedes_iff] at *
  omega

/-- Two groups with different first symbols are comparable (42_tree_builder.md R131). -/
theorem Group.precedes_of_not_precedes {x y : Group} (h : ¬ y.precedes x = true) (hne : x.first.sym ≠ y.first.sym) :
    x.precedes y = true := by
  have : x.first.sym.toNat ≠ y.first.sym.toNat := fun e => hne (BitVec.eq_of_toNat_eq e)
  rw [Group.precedes_iff] at *
  omega

/-! ### The selection -/

/-- The selected group and the remaining ones are the groups there were. -/
theorem takeLeast_perm (g : Group) (gs : List Group) :
    (g :: gs).Perm ((takeLeast g gs).1 :: (takeLeast g gs).2) := by
  induction gs generalizing g with
  | nil => exact .refl _
  | cons h gs ih =>
    rw [takeLeast]
    split
    · exact ((ih h).cons g).trans (.swap _ _ _)
    · exact (List.Perm.swap _ _ _).trans (((ih g).cons h).trans (.swap _ _ _))

theorem length_takeLeast (g : Group) (gs : List Group) : (takeLeast g gs).2.length = gs.length := by
  simpa using (takeLeast_perm g gs).length_eq.symm

/-- No remaining group comes before the selected one (42_tree_builder.md R130 step 2a). -/
theorem takeLeast_least (g : Group) (gs : List Group) :
    ∀ x ∈ (takeLeast g gs).2, ¬ x.precedes (takeLeast g gs).1 = true := by
  suffices h : (∀ x ∈ (takeLeast g gs).2, ¬ x.precedes (takeLeast g gs).1 = true) ∧
      ¬ g.precedes (takeLeast g gs).1 = true from h.1
  induction gs generalizing g with
  | nil => exact ⟨fun x hx => by simp [takeLeast] at hx, by simp [takeLeast, Group.precedes]⟩
  | cons h gs ih =>
    rw [takeLeast]
    split
    · next hp =>
      have hg : ¬ g.precedes h = true := by rw [Group.precedes_iff] at *; omega
      have := Group.not_precedes_trans hg (ih h).2
      exact ⟨List.forall_mem_cons.2 ⟨this, (ih h).1⟩, this⟩
    · next hp => exact ⟨List.forall_mem_cons.2 ⟨Group.not_precedes_trans hp (ih g).2, (ih g).1⟩, (ih g).2⟩

/-! ### One merge -/

@[simp] theorem mergeGroups_w (c : Config) (a b : Group) : (mergeGroups c a b).w = c.addCount a.w b.w := rfl

@[simp] theorem mergeGroups_members (c : Config) (a b : Group) :
    (mergeGroups c a b).members = a.members.map (prependBit false) ++ b.members.map (prependBit true) := rfl

/-- Everything one pass of the loop does (42_tree_builder.md R130 step 2, R132). -/
theorem mergeLowestTwo_cases (c : Config) {gl : List Group} (h : 2 ≤ gl.length) :
    ∃ a b others, gl.Perm (a :: b :: others) ∧ (∀ x ∈ b :: others, ¬ x.precedes a = true) ∧
      (∀ x ∈ others, ¬ x.precedes b = true) ∧ mergeLowestTwo c gl = mergeGroups c a b :: others := by
  match gl, h with
  | g :: h :: gs, _ =>
    have hp := takeLeast_perm g (h :: gs)
    have hl := takeLeast_least g (h :: gs)
    rw [mergeLowestTwo]
    match e : takeLeast g (h :: gs) with
    | (a, []) =>
      have := length_takeLeast g (h :: gs)
      rw [e] at this
      simp at this
    | (a, r :: rs) =>
      rw [e] at hp hl
      have hr := takeLeast_perm r rs
      exact ⟨a, (takeLeast r rs).1, (takeLeast r rs).2, hp.trans (hr.cons a),
        fun x hx => hl x (hr.mem_iff.2 hx), takeLeast_least r rs, rfl⟩

/-- A pass leaves one group less. -/
theorem length_mergeLowestTwo (c : Config) {gl : List Group} (h : 2 ≤ gl.length) :
    (mergeLowestTwo c gl).length + 1 = gl.length := by
  obtain ⟨a, b, others, hp, -, -, e⟩ := mergeLowestTwo_cases c h
  rw [e, hp.length_eq]
  rfl

/-- The members of all groups before a pass, in the order of selection, with their codes before it. -/
theorem mergeLowestTwo_syms (c : Config) (gl : List Group) :
    (((mergeLowestTwo c gl).flatMap Group.members).map CodeEntry.sym).Perm
      ((gl.flatMap Group.members).map CodeEntry.sym) := by
  by_cases h : 2 ≤ gl.length
  · obtain ⟨a, b, others, hp, -, -, e⟩ := mergeLowestTwo_cases c h
    rw [e]
    refine List.Perm.trans (List.Perm.of_eq ?_) ((hp.flatMap_right Group.members).map CodeEntry.sym).symm
    simp [Function.comp_def, prependBit]
  · rcases gl with - | ⟨g, - | ⟨h', gs⟩⟩
    · exact .refl _
    · exact .refl _
    · simp at h

/-! ### The loop -/

/-- The loop keeps what every pass keeps. -/
theorem mergeLoop_induction (c : Config) {P : List Group → Prop}
    (hstep : ∀ gl, 2 ≤ gl.length → P gl → P (mergeLowestTwo c gl)) :
    ∀ (fuel : Nat) (gl : List Group), P gl → P (mergeLoop c fuel gl)
  | 0, _, h => h
  | fuel + 1, gl, h => by
    rw [mergeLoop]
    split
    · next hl => exact mergeLoop_induction c hstep fuel _ (hstep gl hl h)
    · exact h

/-- With enough passes one group is left (42_tree_builder.md R133). -/
theorem length_mergeLoop (c : Config) :
    ∀ (fuel : Nat) (gl : List Group), gl ≠ [] → gl.length ≤ fuel + 1 → (mergeLoop c fuel gl).length = 1
  | 0, gl, h0, h => by
    have := List.length_pos_of_ne_nil h0
    rw [mergeLoop]
    omega
  | fuel + 1, gl, h0, h => by
    have hpos := List.length_pos_of_ne_nil h0
    rw [mergeLoop]
    split
    · next hl =>
      have := length_mergeLowestTwo c hl
      refine length_mergeLoop c fuel _ (fun e => ?_) (by omega)
      rw [e] at this
      simp at this
      omega
    · omega

/-- The loop keeps the symbols. -/
theorem mergeLoop_syms (c : Config) (fuel : Nat) (gl : List Group) :
    (((mergeLoop c fuel gl).flatMap Group.members).map CodeEntry.sym).Perm
      ((gl.flatMap Group.members).map CodeEntry.sym) :=
  mergeLoop_induction c (P := fun l => ((l.flatMap Group.members).map CodeEntry.sym).Perm
    ((gl.flatMap Group.members).map CodeEntry.sym)) (fun l _ h => (mergeLowestTwo_syms c l).trans h) fuel gl (.refl _)

/-- The first groups have the counted symbols as members (42_tree_builder.md R130 step 1). -/
@[simp] theorem initialGroups_members (slots : List FtSlot) :
    (initialGroups slots).flatMap Group.members = slots.map fun x => ⟨x.sym, []⟩ := by
  induction slots with
  | nil => rfl
  | cons x slots ih =>
    rw [List.map_cons, ← ih]
    rfl

@[simp] theorem length_initialGroups (slots : List FtSlot) : (initialGroups slots).length = slots.length := by
  simp [initialGroups]

/-- The symbols of the groups the loop leaves are the counted ones. -/
theorem mergeLoop_initial_syms (c : Config) (fuel : Nat) (slots : List FtSlot) :
    (((mergeLoop c fuel (initialGroups slots)).flatMap Group.members).map CodeEntry.sym).Perm
      (slots.map FtSlot.sym) := by
  simpa [Function.comp_def] using mergeLoop_syms c fuel (initialGroups slots)

theorem length_mergeLoop_members (c : Config) (fuel : Nat) (slots : List FtSlot) :
    ((mergeLoop c fuel (initialGroups slots)).flatMap Group.members).length = slots.length := by
  simpa using (mergeLoop_initial_syms c fuel slots).length_eq

/-! ### `BUILD` -/

/-- `BUILD` writes `CB`, `CBN`, `GL` and `PHASE` only (42_tree_builder.md R130). -/
theorem buildCodebook_frame (s : State) :
    buildCodebook s = { s with cb := (buildCodebook s).cb, cbn := (buildCodebook s).cbn,
                               gl := (buildCodebook s).gl, phase := .ready } := by
  rw [buildCodebook]
  split <;> rfl

end Sys2Proof.Machine
end

