-- ==== Sys2Proof/Laws/Tables.lean ====
section
/-! SUPPORT. Every operation on the two tables keeps their stored form (`TablesStored`; 10_state.md R35, R38; log 6),
and the reset state has it. -/

namespace Sys2Proof.Machine

theorem tablesStored_resetOf (c : Config) : TablesStored (State.resetOf c) :=
  ⟨Nat.le_refl 0, Nat.le_refl 0, Nat.zero_le _, Nat.zero_le _⟩

theorem tablesStored_clear {s : State} (h : TablesStored s) : TablesStored s.clear :=
  ⟨Nat.zero_le _, Nat.zero_le _, h.ftCapacity, h.cbCapacity⟩

/-- `CNT_SYM` (41_frequency_counter.md R120). -/
theorem tablesStored_countSymbol {sym : Symbol} {s t : State} (h : TablesStored s)
    (ht : countSymbol sym s = .done t) : TablesStored t := by
  rw [countSymbol] at ht
  split at ht
  · cases ht
  · split at ht
    · split at ht
      · cases ht
      · next hn =>
        obtain rfl := Progress.done.inj ht
        have hlt : s.ftn.toNat < s.cfg.nsym := Nat.lt_of_le_of_ne (Nat.le_trans h.ft h.ftCapacity) hn
        have hl := length_writeSlot s.ft s.ftn.toNat ⟨sym, 1#32⟩ h.ft
        have hs := s.cfg.succ_toNat s.ftn hlt
        have := h.ftCapacity
        exact ⟨by dsimp only; omega, h.cb, by dsimp only; omega, h.cbCapacity⟩
    · obtain rfl := Progress.done.inj ht
      exact ⟨by simpa using h.ft, h.cb, by simpa using h.ftCapacity, h.cbCapacity⟩

/-- `CBL_CLOSE` (45_codebook_load.md R192). -/
theorem tablesStored_closeEntry {s t : State} (h : TablesStored s) (hn : s.cbn.toNat < s.cfg.nsym)
    (ht : closeEntry s = .done t) : TablesStored t := by
  rw [closeEntry] at ht
  split at ht
  · cases ht
  · split at ht
    · cases ht
    · obtain rfl := Progress.done.inj ht
      have hl := length_writeSlot s.cb s.cbn.toNat ⟨s.osym, s.ocode⟩ h.cb
      have hs := s.cfg.succ_toNat s.cbn hn
      have := h.cbCapacity
      exact ⟨h.ft, by dsimp only; omega, h.ftCapacity, by dsimp only; omega⟩

/-- `BUILD` (42_tree_builder.md R130). -/
theorem tablesStored_buildCodebook {s : State} (h : TablesStored s) : TablesStored (buildCodebook s) := by
  have hlen : s.ftValid.length = s.ftn.toNat := by simp [State.ftValid, h.ft]
  have hcap : s.ftn.toNat ≤ s.cfg.nsym := Nat.le_trans h.ft h.ftCapacity
  rw [buildCodebook]
  split
  · exact ⟨h.ft, Nat.zero_le _, h.ftCapacity, h.cbCapacity⟩
  · next x e =>
    rw [e, List.length_singleton] at hlen
    have hl := length_writeSlot s.cb 0 ⟨x.sym, [false]⟩ (Nat.zero_le _)
    have := h.cbCapacity
    exact ⟨h.ft, by simp only [BitVec.toNat_ofNat]; omega, h.ftCapacity, by dsimp only; omega⟩
  · next x y slots e =>
    have hm := length_mergeLoop_members s.cfg (initialGroups (x :: y :: slots)).length (x :: y :: slots)
    rw [← e, hlen] at hm
    have := h.cbCapacity
    rw [← e]
    refine ⟨h.ft, ?_, h.ftCapacity, ?_⟩ <;>
      simp only [State.commitCodebook, List.length_append, List.length_drop, hm] <;> omega

end Sys2Proof.Machine
end

