-- ==== Sys2Proof/Tests/Slice0.lean ====
section
/-! SUPPORT. Tests: words written out from the encodings of 30_encoding.md, one or two single steps for each command
with results from the worked examples and the vectors of the spec, and a witness of the hypotheses of every
statement. -/

namespace Sys2Proof.Tests

open Machine

/-! ### Helpers -/

/-- The outcome is a next state with the property. -/
def nextIs (o : Host.Outcome State Fault Refusal) (p : State → Bool) : Bool :=
  match o with
  | .next t => p t
  | .fault _ => false
  | .refused _ => false

/-- The state a word leads to. -/
def afterWord (w : CommandWord) (s : State) : State :=
  match acceptCommand w s with
  | .next t => t
  | .fault _ => s
  | .refused _ => s

/-- The state a list of commands leads to. -/
def after (is : List Instr) (s : State) : State := (is.map encode).foldl (fun t w => afterWord w t) s

theorem runWords_after (ws : List CommandWord) (s : State) :
    runWords ws s = .next (ws.foldl (fun t w => afterWord w t) s) := by
  induction ws generalizing s with
  | nil => rfl
  | cons w ws ih =>
    obtain ⟨t, ht⟩ := acceptCommand_next w s
    rw [runWords, ht, List.foldl_cons, show afterWord w s = t by rw [afterWord, ht]]
    exact ih t

theorem runInstrs_after (is : List Instr) (s : State) : runInstrs is s = .next (after is s) := runWords_after _ _

/-- Every command has a next state: the one its word leads to. -/
theorem exec_after (i : Instr) (s : State) : ∃ t, exec i s = .next t := exec_next i s

/-! ### Encodings -/

theorem test_decode_control :
    decode 0x0000000000000000#64 = .ok .nop ∧ decode 0x0100000000000000#64 = .ok .clear := by decide

theorem test_decode_counter_and_builder :
    decode 0x1000000000000061#64 = .ok (.cntSym 0x61#32) ∧ decode 0x10000000FFFFFFFF#64 = .ok (.cntSym 0xFFFFFFFF#32) ∧
    decode 0x2000000000000000#64 = .ok .build := by decide

theorem test_decode_packer :
    decode 0x3000000000000000#64 = .ok .packBegin ∧ decode 0x3100000000000062#64 = .ok (.packSym 0x62#32) ∧
    decode 0x3200000000000000#64 = .ok .packEnd := by decide

theorem test_decode_decoder :
    decode 0x4000000000000004#64 = .ok (.decBegin 4#32) ∧ decode 0x41000000000000CF#64 = .ok (.decByte 0xCF#32) ∧
    decode 0x4200000000000000#64 = .ok .decEnd := by decide

theorem test_decode_codebook_load :
    decode 0x5000000000000073#64 = .ok (.cblOpen 0x73#32) ∧ decode 0x5100000000000001#64 = .ok (.cblBit 1#32) ∧
    decode 0x5200000000000000#64 = .ok .cblClose ∧ decode 0x5300000000000000#64 = .ok .cblEnd := by decide

/-- V4 to V10 and the ends of the assigned opcodes. -/
theorem test_decode_illegal_words :
    decode 0x0200000000000000#64 = .error .unassignedOp ∧ decode 0xFF00000000000000#64 = .error .unassignedOp ∧
    decode 0x5400000000000000#64 = .error .unassignedOp ∧ decode 0x2000000000000001#64 = .error .operandNotZero ∧
    decode 0x1000000100000061#64 = .error .reservedNotZero ∧ decode 0x0000000000000001#64 = .error .operandNotZero ∧
    decode 0x0100000000000001#64 = .error .operandNotZero ∧ decode 0x3200000000000007#64 = .error .operandNotZero := by
  decide

/-- Bit 0 of the number is bit 0 of the word; a number longer than the word is no command. -/
theorem test_decodeTableWord :
    decodeTableWord 64 0x1000000000000061 = some (.cntSym 0x61#32) ∧ decodeTableWord 64 0x0200000000000000 = none ∧
    decodeTableWord 64 (2 ^ 64) = none := by decide

/-! ### Ill-formed commands (30_encoding.md R91, R97) -/

theorem test_wellFormed_symbols :
    Instr.wellFormed .tiny (.cntSym 255#32) = true ∧ Instr.wellFormed .tiny (.cntSym 256#32) = false ∧
    Instr.wellFormed .tiny (.packSym 255#32) = true ∧ Instr.wellFormed .tiny (.packSym 256#32) = false ∧
    Instr.wellFormed .tiny (.cblOpen 255#32) = true ∧ Instr.wellFormed .tiny (.cblOpen 256#32) = false ∧
    Instr.wellFormed .ref (.cntSym 0xFFFFFFFF#32) = true := by decide

theorem test_wellFormed_decoder_operands :
    Instr.wellFormed .ref (.decBegin 7#32) = true ∧ Instr.wellFormed .ref (.decBegin 8#32) = false ∧
    Instr.wellFormed .ref (.decByte 255#32) = true ∧ Instr.wellFormed .ref (.decByte 256#32) = false ∧
    Instr.wellFormed .ref (.cblBit 1#32) = true ∧ Instr.wellFormed .ref (.cblBit 2#32) = false := by decide

/-! ### States -/

/-- TINY after reset. -/
def idle : State := State.resetOf Config.tiny

/-- TINY in pass 1: the counts of "aab" (V26) with the symbols 1 and 2. -/
def counted : State := { idle with phase := .count, ft := [⟨1#32, 2#32⟩, ⟨2#32, 1#32⟩], ftn := 2#17, total := 3#32 }

/-- TINY with `TOTAL = CNTMAX` (V20). -/
def overflowing : State := { idle with phase := .count, ft := [⟨7#32, 15#32⟩], ftn := 1#17, total := 15#32 }

/-- TINY with all slots of `FT` valid (V19). -/
def fullTable : State := { idle with phase := .count, ft := [⟨1#32, 2#32⟩, ⟨2#32, 1#32⟩, ⟨3#32, 1#32⟩, ⟨4#32, 1#32⟩], ftn := 4#17, total := 5#32 }

/-- TINY after `BUILD` on `counted` (V26). -/
def ready : State := { counted with phase := .ready, cb := [⟨2#32, [false]⟩, ⟨1#32, [true]⟩], cbn := 2#17 }

/-- A pack run with seven bits pending. -/
def packing : State := { ready with phase := .pack, pacc := 0x55#8, pcnt := 7#3 }

/-- A decode run before its first byte. -/
def decoding : State := { ready with phase := .decode }

/-- A decode run over a loaded codebook with the one code "111", the byte 0xFF held. -/
def triple : State := { idle with phase := .decode, cb := [⟨9#32, [true, true, true]⟩], cbn := 1#17, hold := 0xFF#8, holdv := true, pad := 2#3 }

/-- A decode run over a loaded codebook with the one code "0", the byte 0xFF held. -/
def malformed : State := { idle with phase := .decode, cb := [⟨9#32, [false]⟩], cbn := 1#17, hold := 0xFF#8, holdv := true }

/-- A decode run over a loaded codebook that is not prefix-free. -/
def shadowed : State := { idle with phase := .decode, cb := [⟨1#32, [true]⟩, ⟨2#32, [true, false]⟩], cbn := 2#17, hold := 0xAA#8, holdv := true }

/-- TINY with one entry loaded and a second one open. -/
def loading : State := { idle with phase := .load, cb := [⟨1#32, [false]⟩], cbn := 1#17, osym := 2#32, ocode := [true], openv := true }

/-- TINY with one entry loaded and none open. -/
def loaded : State := { loading with openv := false }

/-- TINY with all slots of `CB` valid. -/
def fullBook : State := { idle with phase := .load, cb := [⟨1#32, [false]⟩, ⟨2#32, [true]⟩, ⟨3#32, [true, true]⟩, ⟨4#32, [false, true]⟩], cbn := 4#17 }

/-- `triple` without padding. -/
def tripleUnpadded : State := { triple with pad := 0#3 }

/-- A decode run before its first byte, with padding declared. -/
def decodingPadded : State := { decoding with pad := 7#3 }

/-- A decode run with a bit left over and no byte held; no run reaches it. -/
def leftOver : State := { triple with holdv := false, pad := 0#3, acc := [true] }

/-- `loading` with the open code still empty. -/
def loadingEmpty : State := { loading with ocode := [] }

/-- `loading` with a code that a valid slot has. -/
def loadingRepeated : State := { loading with ocode := [false] }

/-- TINY after a command out of phase. -/
def faulted : State := idle.raise .badPhase 0x3000000000000000#64

theorem inv_idle : idle.Inv :=
  ⟨⟨by decide, by decide, by decide, by decide⟩, ⟨by decide, by decide, by decide, by decide, by decide⟩,
    ⟨by decide, by decide, by decide, by decide, by decide⟩, ⟨by decide, by decide, by decide⟩,
    ⟨by decide, by decide, by decide, by decide, by decide, by decide⟩,
    ⟨by decide, by decide, by decide, by decide, List.forall_mem_nil _, by decide, by decide⟩,
    ⟨by decide, by decide, by decide⟩⟩

theorem inv_counted : counted.Inv :=
  ⟨⟨by decide, by decide, by decide, by decide⟩, ⟨by decide, by decide, by decide, by decide, by decide⟩,
    ⟨by decide, by decide, by decide, by decide, by decide⟩, ⟨by decide, by decide, by decide⟩,
    ⟨by decide, by decide, by decide, by decide, by decide, by decide⟩,
    ⟨by decide, by decide, by decide, by decide, List.forall_mem_nil _, by decide, by decide⟩,
    ⟨by decide, by decide, by decide⟩⟩

theorem inv_overflowing : overflowing.Inv :=
  ⟨⟨by decide, by decide, by decide, by decide⟩, ⟨by decide, by decide, by decide, by decide, by decide⟩,
    ⟨by decide, by decide, by decide, by decide, by decide⟩, ⟨by decide, by decide, by decide⟩,
    ⟨by decide, by decide, by decide, by decide, by decide, by decide⟩,
    ⟨by decide, by decide, by decide, by decide, List.forall_mem_nil _, by decide, by decide⟩,
    ⟨by decide, by decide, by decide⟩⟩

theorem inv_fullTable : fullTable.Inv :=
  ⟨⟨by decide, by decide, by decide, by decide⟩, ⟨by decide, by decide, by decide, by decide, by decide⟩,
    ⟨by decide, by decide, by decide, by decide, by decide⟩, ⟨by decide, by decide, by decide⟩,
    ⟨by decide, by decide, by decide, by decide, by decide, by decide⟩,
    ⟨by decide, by decide, by decide, by decide, List.forall_mem_nil _, by decide, by decide⟩,
    ⟨by decide, by decide, by decide⟩⟩

theorem inv_ready : ready.Inv :=
  ⟨⟨by decide, by decide, by decide, by decide⟩, ⟨by decide, by decide, by decide, by decide, by decide⟩,
    ⟨by decide, by decide, by decide, by decide, by decide⟩, ⟨by decide, by decide, by decide⟩,
    ⟨by decide, by decide, by decide, by decide, by decide, by decide⟩,
    ⟨by decide, by decide, by decide, by decide, List.forall_mem_nil _, by decide, by decide⟩,
    ⟨by decide, by decide, by decide⟩⟩

theorem inv_packing : packing.Inv :=
  ⟨⟨by decide, by decide, by decide, by decide⟩, ⟨by decide, by decide, by decide, by decide, by decide⟩,
    ⟨by decide, by decide, by decide, by decide, by decide⟩, ⟨by decide, by decide, by decide⟩,
    ⟨by decide, by decide, by decide, by decide, by decide, by decide⟩,
    ⟨by decide, by decide, by decide, by decide, List.forall_mem_nil _, by decide, by decide⟩,
    ⟨by decide, by decide, by decide⟩⟩

theorem inv_decoding : decoding.Inv :=
  ⟨⟨by decide, by decide, by decide, by decide⟩, ⟨by decide, by decide, by decide, by decide, by decide⟩,
    ⟨by decide, by decide, by decide, by decide, by decide⟩, ⟨by decide, by decide, by decide⟩,
    ⟨by decide, by decide, by decide, by decide, by decide, by decide⟩,
    ⟨by decide, by decide, by decide, by decide, List.forall_mem_nil _, by decide, by decide⟩,
    ⟨by decide, by decide, by decide⟩⟩

theorem inv_triple : triple.Inv :=
  ⟨⟨by decide, by decide, by decide, by decide⟩, ⟨by decide, by decide, by decide, by decide, by decide⟩,
    ⟨by decide, by decide, by decide, by decide, by decide⟩, ⟨by decide, by decide, by decide⟩,
    ⟨by decide, by decide, by decide, by decide, by decide, by decide⟩,
    ⟨by decide, by decide, by decide, by decide, List.forall_mem_nil _, by decide, by decide⟩,
    ⟨by decide, by decide, by decide⟩⟩

theorem inv_malformed : malformed.Inv :=
  ⟨⟨by decide, by decide, by decide, by decide⟩, ⟨by decide, by decide, by decide, by decide, by decide⟩,
    ⟨by decide, by decide, by decide, by decide, by decide⟩, ⟨by decide, by decide, by decide⟩,
    ⟨by decide, by decide, by decide, by decide, by decide, by decide⟩,
    ⟨by decide, by decide, by decide, by decide, List.forall_mem_nil _, by decide, by decide⟩,
    ⟨by decide, by decide, by decide⟩⟩

theorem inv_shadowed : shadowed.Inv :=
  ⟨⟨by decide, by decide, by decide, by decide⟩, ⟨by decide, by decide, by decide, by decide, by decide⟩,
    ⟨by decide, by decide, by decide, by decide, by decide⟩, ⟨by decide, by decide, by decide⟩,
    ⟨by decide, by decide, by decide, by decide, by decide, by decide⟩,
    ⟨by decide, by decide, by decide, by decide, List.forall_mem_nil _, by decide, by decide⟩,
    ⟨by decide, by decide, by decide⟩⟩

theorem inv_loading : loading.Inv :=
  ⟨⟨by decide, by decide, by decide, by decide⟩, ⟨by decide, by decide, by decide, by decide, by decide⟩,
    ⟨by decide, by decide, by decide, by decide, by decide⟩, ⟨by decide, by decide, by decide⟩,
    ⟨by decide, by decide, by decide, by decide, by decide, by decide⟩,
    ⟨by decide, by decide, by decide, by decide, List.forall_mem_nil _, by decide, by decide⟩,
    ⟨by decide, by decide, by decide⟩⟩

theorem inv_loaded : loaded.Inv :=
  ⟨⟨by decide, by decide, by decide, by decide⟩, ⟨by decide, by decide, by decide, by decide, by decide⟩,
    ⟨by decide, by decide, by decide, by decide, by decide⟩, ⟨by decide, by decide, by decide⟩,
    ⟨by decide, by decide, by decide, by decide, by decide, by decide⟩,
    ⟨by decide, by decide, by decide, by decide, List.forall_mem_nil _, by decide, by decide⟩,
    ⟨by decide, by decide, by decide⟩⟩

theorem inv_fullBook : fullBook.Inv :=
  ⟨⟨by decide, by decide, by decide, by decide⟩, ⟨by decide, by decide, by decide, by decide, by decide⟩,
    ⟨by decide, by decide, by decide, by decide, by decide⟩, ⟨by decide, by decide, by decide⟩,
    ⟨by decide, by decide, by decide, by decide, by decide, by decide⟩,
    ⟨by decide, by decide, by decide, by decide, List.forall_mem_nil _, by decide, by decide⟩,
    ⟨by decide, by decide, by decide⟩⟩

theorem inv_tripleUnpadded : tripleUnpadded.Inv :=
  ⟨⟨by decide, by decide, by decide, by decide⟩, ⟨by decide, by decide, by decide, by decide, by decide⟩,
    ⟨by decide, by decide, by decide, by decide, by decide⟩, ⟨by decide, by decide, by decide⟩,
    ⟨by decide, by decide, by decide, by decide, by decide, by decide⟩,
    ⟨by decide, by decide, by decide, by decide, List.forall_mem_nil _, by decide, by decide⟩,
    ⟨by decide, by decide, by decide⟩⟩

theorem inv_decodingPadded : decodingPadded.Inv :=
  ⟨⟨by decide, by decide, by decide, by decide⟩, ⟨by decide, by decide, by decide, by decide, by decide⟩,
    ⟨by decide, by decide, by decide, by decide, by decide⟩, ⟨by decide, by decide, by decide⟩,
    ⟨by decide, by decide, by decide, by decide, by decide, by decide⟩,
    ⟨by decide, by decide, by decide, by decide, List.forall_mem_nil _, by decide, by decide⟩,
    ⟨by decide, by decide, by decide⟩⟩

theorem inv_leftOver : leftOver.Inv :=
  ⟨⟨by decide, by decide, by decide, by decide⟩, ⟨by decide, by decide, by decide, by decide, by decide⟩,
    ⟨by decide, by decide, by decide, by decide, by decide⟩, ⟨by decide, by decide, by decide⟩,
    ⟨by decide, by decide, by decide, by decide, by decide, by decide⟩,
    ⟨by decide, by decide, by decide, by decide, List.forall_mem_nil _, by decide, by decide⟩,
    ⟨by decide, by decide, by decide⟩⟩

theorem inv_loadingEmpty : loadingEmpty.Inv :=
  ⟨⟨by decide, by decide, by decide, by decide⟩, ⟨by decide, by decide, by decide, by decide, by decide⟩,
    ⟨by decide, by decide, by decide, by decide, by decide⟩, ⟨by decide, by decide, by decide⟩,
    ⟨by decide, by decide, by decide, by decide, by decide, by decide⟩,
    ⟨by decide, by decide, by decide, by decide, List.forall_mem_nil _, by decide, by decide⟩,
    ⟨by decide, by decide, by decide⟩⟩

theorem inv_loadingRepeated : loadingRepeated.Inv :=
  ⟨⟨by decide, by decide, by decide, by decide⟩, ⟨by decide, by decide, by decide, by decide, by decide⟩,
    ⟨by decide, by decide, by decide, by decide, by decide⟩, ⟨by decide, by decide, by decide⟩,
    ⟨by decide, by decide, by decide, by decide, by decide, by decide⟩,
    ⟨by decide, by decide, by decide, by decide, List.forall_mem_nil _, by decide, by decide⟩,
    ⟨by decide, by decide, by decide⟩⟩

theorem inv_faulted : faulted.Inv :=
  ⟨⟨by decide, by decide, by decide, by decide⟩, ⟨by decide, by decide, by decide, by decide, by decide⟩,
    ⟨by decide, by decide, by decide, by decide, by decide⟩, ⟨by decide, by decide, by decide⟩,
    ⟨by decide, by decide, by decide, by decide, by decide, by decide⟩,
    ⟨by decide, by decide, by decide, by decide, List.forall_mem_nil _, by decide, by decide⟩,
    ⟨by decide, by decide, by decide⟩⟩

/-! ### Single steps of the commands -/

/-- 40_control.md R110, the example. -/
theorem test_nop : nextIs (exec .nop packing) (fun t => decide (t = packing)) = true := by decide

/-- 40_control.md R111, the example: from DECODE with `FAULT` 8 to `STATUS` 0. -/
theorem test_clear : nextIs (exec .clear (malformed.raise .malformedStream 0x4200000000000000#64)) (fun t =>
    t.phase = .idle && t.fault = none && t.fcmd = 0#64 && t.statusWord = 0#32 && t.faultPin = false) = true := by decide

/-- V3: `CLEAR` keeps the bytes emitted. -/
theorem test_clear_keeps_streams : nextIs (exec .clear { ready with byteOut := [0x50#8], pad := 4#3 }) (fun t =>
    t.byteOut = [0x50#8] && t.pad = 0#3 && t.cbn = 0#17 && t.ftn = 0#17 && t.total = 0#32) = true := by decide

/-- 41_frequency_counter.md R120, the example (V15). -/
theorem test_cntSym : nextIs (exec (.cntSym 0x61#32) idle) (fun t =>
    t.ft = [⟨0x61#32, 1#32⟩] && t.ftn = 1#17 && t.total = 1#32 && t.phase = .count) = true := by decide

/-- V20, V21: at `CNTMAX` the overflow comes before the full table. -/
theorem test_cntSym_overflow : nextIs (exec (.cntSym 9#32) { fullTable with total := 15#32 }) (fun t =>
    t.fault = some .countOverflow && t.fcmd = 0x1000000000000009#64 && t.total = 15#32 && t.ftn = 4#17) = true := by
  decide

/-- V26: the lighter group takes 0. -/
theorem test_build : nextIs (exec .build counted) (fun t =>
    t.cbValid = [⟨2#32, [false]⟩, ⟨1#32, [true]⟩] && t.cbn = 2#17 && t.phase = .ready && t.gl = []) = true := by decide

/-- V38: the counts 1, 2, 4, 8 give the longest code, with a weight of `CNTMAX`. -/
theorem test_build_chain : nextIs (exec .build { fullTable with
      ft := [⟨1#32, 1#32⟩, ⟨2#32, 2#32⟩, ⟨3#32, 4#32⟩, ⟨4#32, 8#32⟩], total := 15#32 }) (fun t =>
    t.cbValid = [⟨1#32, [false, false, false]⟩, ⟨2#32, [false, false, true]⟩, ⟨3#32, [false, true]⟩,
      ⟨4#32, [true]⟩]) = true := by decide

/-- 43_bit_packer.md R150, the example (V53 for the other phase). -/
theorem test_packBegin : nextIs (exec .packBegin ready) (fun t => t.phase = .pack && regRead t 8#32 = 0#32) = true ∧
    nextIs (exec .packBegin idle) (fun t => t.fault = some .badPhase && t.fcmd = 0x3000000000000000#64) = true := by
  decide

/-- 43_bit_packer.md R152, the example: after one 'a', 'b' = "110" leaves `PACC` 6 and `PCNT` 4. -/
theorem test_packSym : nextIs (exec (.packSym 98#32) { packing with
      cb := [⟨97#32, [false]⟩, ⟨98#32, [true, true, false]⟩], pacc := 0#8, pcnt := 1#3 }) (fun t =>
    t.pacc = 0x06#8 && t.pcnt = 4#3 && t.byteOut = []) = true := by decide

/-- V44: `PSTATE` 734 and 'c' = "1110" emit 69 and leave 306. -/
theorem test_packSym_emits : nextIs (exec (.packSym 99#32) { packing with
      cb := [⟨97#32, [false]⟩, ⟨99#32, [true, true, true, false]⟩], pacc := 0x34#8, pcnt := 7#3 }) (fun t =>
    t.byteOut = [0x69#8] && t.pacc = 0x06#8 && t.pcnt = 3#3) = true := by decide

/-- 43_bit_packer.md R156, the example (V40). -/
theorem test_packEnd : nextIs (exec .packEnd { packing with pacc := 0x05#8, pcnt := 4#3 }) (fun t =>
    t.pad = 4#3 && t.byteOut = [0x50#8] && t.phase = .ready && t.pacc = 0#8 && t.pcnt = 0#3) = true := by decide

/-- V43: a whole number of bytes gets no padding and no extra byte. -/
theorem test_packEnd_whole_bytes : nextIs (exec .packEnd { packing with pacc := 0#8, pcnt := 0#3, pad := 5#3 })
    (fun t => t.pad = 0#3 && t.byteOut = [] && t.phase = .ready) = true := by decide

/-- 44_unpacker_decoder.md R170, the example (V56), and V12: admission comes before the operand. -/
theorem test_decBegin : nextIs (exec (.decBegin 4#32) ready) (fun t =>
      t.pad = 4#3 && t.phase = .decode && t.holdv = false && t.acc = [] && t.statusWord = 0x05#32) = true ∧
    nextIs (exec (.decBegin 8#32) idle) (fun t => t.fault = some .badPhase) = true := by decide

/-- 44_unpacker_decoder.md R174, the example: the old byte is decoded, the new one held. -/
theorem test_decByte : nextIs (exec (.decByte 0#32) { decoding with
      cb := [⟨97#32, [false]⟩, ⟨98#32, [true]⟩], hold := 0x50#8, holdv := true }) (fun t =>
    t.symOut = [97#32, 98#32, 97#32, 98#32, 97#32, 97#32, 97#32, 97#32] && t.hold = 0#8 && t.holdv) = true := by
  decide

/-- 44_unpacker_decoder.md R174: at a fault the old byte stays held and the new one is in `FCMD`. -/
theorem test_decByte_malformed : nextIs (exec (.decByte 0x21#32) malformed) (fun t =>
    t.fault = some .malformedStream && t.fcmd = 0x4100000000000021#64 && t.acc = [true, true, true] &&
    t.hold = 0xFF#8 && t.holdv && t.symOut = []) = true := by decide

/-- 44_unpacker_decoder.md R176, the example (V57). -/
theorem test_decEnd : nextIs (exec .decEnd { decoding with
      cb := [⟨97#32, [false]⟩, ⟨98#32, [true]⟩], hold := 0x50#8, holdv := true, pad := 4#3 }) (fun t =>
    t.symOut = [97#32, 98#32, 97#32, 98#32] && t.acc = [] && t.holdv = false && t.phase = .ready) = true := by decide

/-- 44_unpacker_decoder.md R182: padding without a byte. -/
theorem test_decEnd_padding_without_byte : nextIs (exec .decEnd { decoding with pad := 1#3 }) (fun t =>
    t.fault = some .malformedStream && t.phase = .decode) = true := by decide

/-- 45_codebook_load.md R190, the example, and the full table. -/
theorem test_cblOpen : nextIs (exec (.cblOpen 0x61#32) idle) (fun t =>
      t.osym = 0x61#32 && t.ocode = [] && t.openv && t.phase = .load) = true ∧
    nextIs (exec (.cblOpen 1#32) fullBook) (fun t => t.fault = some .tableFull) = true := by decide

/-- 45_codebook_load.md R191: the bit goes to the end, up to `MAXLEN` bits. -/
theorem test_cblBit : nextIs (exec (.cblBit 0#32) { loading with ocode := [true, true] }) (fun t =>
      t.ocode = [true, true, false]) = true ∧
    nextIs (exec (.cblBit 1#32) { loading with ocode := [true, true, true] }) (fun t =>
      t.fault = some .badCodebook && t.fcmd = 0x5100000000000001#64 && t.ocode.length = 3) = true := by decide

/-- 45_codebook_load.md R192, the example, and a repeated code. -/
theorem test_cblClose : nextIs (exec .cblClose { loading with cb := [], cbn := 0#17, osym := 97#32, ocode := [false] })
      (fun t => t.cbValid = [⟨97#32, [false]⟩] && t.cbn = 1#17 && t.openv = false) = true ∧
    nextIs (exec .cblClose { loading with ocode := [false] }) (fun t =>
      t.fault = some .badCodebook && t.openv && t.cbn = 1#17) = true := by decide

/-- 45_codebook_load.md R193, the example and the corner case. -/
theorem test_cblEnd : nextIs (exec .cblEnd { loaded with cb := [⟨97#32, [false]⟩, ⟨98#32, [true]⟩], cbn := 2#17 })
      (fun t => t.phase = .ready && t.statusWord = 0x03#32) = true ∧
    nextIs (exec .cblEnd idle) (fun t => t.statusWord = 0x23#32) = true := by decide

/-! ### Steps, reads and reset -/

/-- V14: a faulted block discards. -/
theorem test_discard : nextIs (acceptCommand 0x1000000000000061#64 (idle.raise .illegalCmd 0x0200000000000000#64))
    (fun t => t.ftn = 0#17 && t.statusWord = 0x40#32 && t.fcmd = 0x0200000000000000#64) = true := by decide

/-- The first step after a word is placed in the reset state runs it. -/
theorem test_step_after_reset : nextIs (step (State.reset.withFetchWord 64 0x1000000000000061)) (fun t =>
    t.ftn = 1#17 && t.total = 1#32 && t.phase = .count && t.host = []) = true := by decide

/-- V38: words of the codebook window of TINY. -/
theorem test_codebook_window :
    [0#32, 1#32, 2#32, 3#32, 4#32, 5#32].map (fun k => regRead { ready with
      cb := [⟨1#32, [false, false, false]⟩, ⟨2#32, [false, false, true]⟩] } (0x01000000#32 + k)) =
    [1#32, 3#32, 0#32, 2#32, 3#32, 0x20000000#32] := by decide +kernel

/-- V90, V91. -/
theorem test_registers :
    regRead State.reset 0xD#32 = 0x00002020#32 ∧ regRead State.reset 0xE#32 = 0x00FF0100#32 ∧
    regRead idle 0xD#32 = 0x00000408#32 ∧ regRead idle 0xE#32 = 0x00030004#32 ∧
    regRead State.reset 0x0000000F#32 = 0#32 ∧ regRead State.reset 0x00010200#32 = 0#32 ∧
    regRead State.reset 0x01000A00#32 = 0#32 ∧ regRead State.reset 0xFFFFFFFF#32 = 0#32 := by decide +kernel

/-- V92: whether the word of a slot is open. -/
theorem test_invalid_slots :
    registerRead State.reset 0x00010000#32 = none ∧ registerRead State.reset 0x01000000#32 = none ∧
    registerRead ready 0x01000003#32 = some 1#32 ∧ registerRead ready 0x01000006#32 = none := by decide

/-! ### Witnesses of the hypotheses of the statements -/

/-- A word that decodes, for `EveryCommandHasOneWord`. -/
theorem witness_EveryCommandHasOneWord : decode 0x1000000000000061#64 = .ok (.cntSym 0x61#32) := by decide

/-- The three kinds of illegal words, at the edges. -/
theorem witness_IllegalWordsRaiseIllegalCmd :
    (∃ e, decode 0x0200000000000000#64 = .error e) ∧ (∃ e, decode 0x1000000100000000#64 = .error e) ∧
    (∃ e, decode 0x5300000000000001#64 = .error e) ∧ idle.fault = none :=
  ⟨⟨.unassignedOp, by decide⟩, ⟨.reservedNotZero, by decide⟩, ⟨.operandNotZero, by decide⟩, by decide⟩

theorem witness_StepRunsTheDecodedCommand :
    { idle with host := [.command 0x1000000000000061#64, .reset] }.host = [.command 0x1000000000000061#64, .reset] ∧
    decode 0x1000000000000061#64 = .ok (.cntSym 0x61#32) ∧
    decodeTableWord 64 0x1000000000000061 = some (.cntSym 0x61#32) := ⟨rfl, by decide, by decide⟩

theorem witness_StepServesReadsResetAndIdling :
    { idle with host := [.read 0#32] }.host = [.read 0#32] ∧ (registerRead idle 0#32).isSome = true ∧
    { idle with host := [.reset] }.host = [.reset] ∧ idle.host = [] := ⟨rfl, by decide, rfl, rfl⟩

theorem witness_QueuedCommandsRunInOrder :
    idle.host = [] ∧ ∃ t, runWords [0x1000000000000061#64, 0x2000000000000000#64] idle = .next t :=
  ⟨rfl, _, runWords_after _ _⟩

theorem witness_CommandProcessingOrder :
    (0x0100000000000000#64 : CommandWord) = 0x0100000000000000#64 ∧
    ((0#64 : CommandWord) ≠ 0x0100000000000000#64 ∧ (idle.raise .badPhase 1#64).fault ≠ none) ∧
    ((0x0200000000000000#64 : CommandWord) ≠ 0x0100000000000000#64 ∧ idle.fault = none ∧
      ∃ e, decode 0x0200000000000000#64 = .error e) ∧
    (decode 0x3000000000000000#64 = .ok .packBegin ∧ ¬ admitted .packBegin idle) ∧
    (decode 0x1000000000000100#64 = .ok (.cntSym 0x100#32) ∧ admitted (.cntSym 0x100#32) idle ∧
      ¬ operandLegal idle.cfg (.cntSym 0x100#32)) ∧
    (decode 0x10000000000000FF#64 = .ok (.cntSym 0xFF#32) ∧ admitted (.cntSym 0xFF#32) idle ∧
      operandLegal idle.cfg (.cntSym 0xFF#32)) :=
  ⟨rfl, by decide, ⟨by decide, by decide, .unassignedOp, by decide⟩, by decide, by decide, by decide⟩

theorem witness_PhaseFollowsTheTransitionTable :
    (idle.fault = none ∧ nextPhase .packBegin idle.phase = none) ∧
    (loading.fault = none ∧ loading.openv = true) ∧ (loaded.fault = none ∧ loaded.openv = false) ∧
    (∃ t, exec .build counted = .next t ∧ t.fault = none) ∧
    ∃ t, exec .packBegin idle = .next t ∧ t.fault ≠ none :=
  ⟨by decide, by decide, by decide, ⟨_, rfl, by decide⟩, ⟨_, rfl, by decide⟩⟩

theorem witness_OperandOutOfRangeRaisesBadOperand :
    (2 ^ idle.cfg.symw ≤ (256#32 : Word).toNat ∧ admitted (.cntSym 256#32) idle ∧
      admitted (.packSym 256#32) packing ∧ admitted (.cblOpen 256#32) loaded) ∧
    (2 ≤ (2#32 : Word).toNat ∧ admitted (.cblBit 2#32) loading) ∧
    (256 ≤ (256#32 : Word).toNat ∧ admitted (.decByte 256#32) decoding) ∧
    (8 ≤ (8#32 : Word).toNat ∧ admitted (.decBegin 8#32) ready ∧ ¬ admitted (.decBegin 8#32) idle) ∧
    idle.fault = none ∧ packing.fault = none ∧ loaded.fault = none ∧ loading.fault = none ∧ decoding.fault = none ∧
    ready.fault = none := by decide

/-- Each of the faults 2 to 8 is raised from a state without fault. -/
theorem witness_FaultsComeFromTheirCommands :
    (∃ t, exec .packBegin idle = .next t ∧ t.fault = some .badPhase) ∧
    (∃ t, exec (.cntSym 256#32) idle = .next t ∧ t.fault = some .badOperand) ∧
    (∃ t, exec (.cntSym 5#32) fullTable = .next t ∧ t.fault = some .tableFull) ∧
    (∃ t, exec (.cntSym 7#32) overflowing = .next t ∧ t.fault = some .countOverflow) ∧
    (∃ t, exec (.cblOpen 1#32) loaded = .next t ∧ t.fault = some .badCodebook) ∧
    (∃ t, exec (.packSym 3#32) packing = .next t ∧ t.fault = some .missingCode) ∧
    (∃ t, exec (.decByte 0#32) malformed = .next t ∧ t.fault = some .malformedStream) ∧
    idle.fault = none ∧ fullTable.fault = none ∧ overflowing.fault = none ∧ loaded.fault = none ∧
    packing.fault = none ∧ malformed.fault = none :=
  ⟨⟨_, rfl, by decide⟩, ⟨_, rfl, by decide⟩, ⟨_, rfl, by decide⟩, ⟨_, rfl, by decide⟩, ⟨_, rfl, by decide⟩,
    ⟨_, rfl, by decide⟩, ⟨_, rfl, by decide⟩, by decide⟩

/-- A fault of each precision; in the last one `DEC_END` has fed the byte and finds bits left over. -/
theorem witness_FaultsArePrecise :
    (idle.fault = none ∧ ∃ t, exec .packBegin idle = .next t ∧ t.fault = some .badPhase) ∧
    (malformed.fault = none ∧ ∃ t, exec (.decByte 0#32) malformed = .next t ∧ t.fault = some .malformedStream) ∧
    (∃ t, exec .decEnd { triple with pad := 7#3 } = .next t ∧ t.fault = some .malformedStream ∧
      t.holdv ≠ triple.holdv) ∧
    ∃ t, exec .decEnd decodingPadded = .next t ∧ t.fault = some .malformedStream :=
  ⟨⟨by decide, _, rfl, by decide⟩, ⟨by decide, _, rfl, by decide⟩, ⟨_, rfl, by decide⟩, ⟨_, rfl, by decide⟩⟩

theorem witness_FaultStaysUntilClearOrReset :
    (idle.raise .badPhase 1#64).fault = some .badPhase ∧ (0#64 : CommandWord) ≠ 0x0100000000000000#64 ∧
    ∃ t, step { idle.raise .badPhase 1#64 with host := [.command 0#64] } = .next t :=
  ⟨rfl, by decide, _, rfl⟩

theorem witness_ClearReturnsToTheInitialState :
    BitVec.extractLsb' 56 8 (0x0100000000000001#64 : CommandWord) = 0x01#8 ∧
    (0x0100000000000001#64 : CommandWord) ≠ 0x0100000000000000#64 ∧ idle.fault = none ∧
    (idle.raise .badPhase 1#64).fault ≠ none := by decide

theorem witness_ResetGivesTheResetValues :
    (∃ t : State, t = State.reset) ∧ (∃ t, t = State.resetOf Config.tiny) ∧ ∃ t s : State, t = s.resetPin :=
  ⟨⟨_, rfl⟩, ⟨_, rfl⟩, ⟨_, idle, rfl⟩⟩

theorem witness_CntSymCountsOneSymbol :
    (idle.fault = none ∧ ¬ (ready.phase ∈ [Phase.idle, .count] ∧ ready.openv ∈ [false, true]) ∧
      idle.phase ∈ [Phase.idle, .count] ∧ 2 ^ idle.cfg.symw ≤ (256#32 : Word).toNat) ∧
    (overflowing.Inv ∧ overflowing.fault = none ∧ overflowing.phase = .count ∧
      (7#32 : Word).toNat < 2 ^ overflowing.cfg.symw ∧ overflowing.total.toNat = 2 ^ overflowing.cfg.cntw - 1) ∧
    (fullTable.Inv ∧ fullTable.fault = none ∧ fullTable.total.toNat ≠ 2 ^ fullTable.cfg.cntw - 1 ∧
      (255#32 : Word).toNat < 2 ^ fullTable.cfg.symw ∧ (∀ x ∈ fullTable.ftValid, x.sym ≠ 255#32) ∧
      fullTable.ftn.toNat = fullTable.cfg.nsym) ∧
    (idle.Inv ∧ idle.phase = .idle ∧ idle.total.toNat ≠ 2 ^ idle.cfg.cntw - 1 ∧ (0#32 : Word).toNat < 2 ^ idle.cfg.symw ∧
      (∀ x ∈ idle.ftValid, x.sym ≠ 0#32) ∧ idle.ftn.toNat ≠ idle.cfg.nsym) ∧
    (counted.Inv ∧ counted.fault = none ∧ counted.phase = .count ∧
      counted.total.toNat ≠ 2 ^ counted.cfg.cntw - 1 ∧ counted.ftValid[1]? = some ⟨2#32, 1#32⟩) :=
  ⟨by decide, ⟨inv_overflowing, by decide⟩, ⟨inv_fullTable, by decide⟩, ⟨inv_idle, by decide⟩, ⟨inv_counted, by decide⟩⟩

theorem witness_CountingPassBuildsTheFrequencyTable :
    idle.Inv ∧ idle.phase = .idle ∧
    (∃ t, RunsWithoutFault (Pseudo.cntStr [1#32, 2#32, 1#32]) idle t) ∧ ∃ t, RunsWithoutFault (Pseudo.cntStr []) idle t :=
  ⟨inv_idle, rfl, ⟨_, runInstrs_after _ _, by decide⟩, ⟨_, runInstrs_after _ _, by decide⟩⟩

theorem witness_BuildOfTheEmptyTable : idle.fault = none ∧ idle.phase = .idle ∧ idle.ftn = 0#17 := by decide

theorem witness_BuildOfASingleSymbol :
    overflowing.fault = none ∧ overflowing.phase = .count ∧ overflowing.ftn = 1#17 ∧
    overflowing.ft[0]? = some ⟨7#32, 15#32⟩ := by decide

/-- The hypotheses of the statements about `BUILD`: no symbol, one symbol, two symbols, a full table. -/
theorem witness_BuildRunsTheGreedyMerge :
    (loaded.fault = none ∧ ¬ (loaded.phase ∈ [Phase.idle, .count] ∧ loaded.openv ∈ [false, true])) ∧
    (idle.Inv ∧ idle.fault = none ∧ idle.phase = .idle ∧ idle.ftn = 0#17) ∧
    (overflowing.Inv ∧ overflowing.fault = none ∧ overflowing.phase = .count ∧ overflowing.ftn = 1#17 ∧
      overflowing.ft[0]? = some ⟨7#32, 15#32⟩) ∧
    (counted.Inv ∧ counted.fault = none ∧ counted.phase = .count ∧ 2 ≤ counted.ftn.toNat) ∧
    (fullTable.Inv ∧ fullTable.fault = none ∧ fullTable.phase = .count ∧ 2 ≤ fullTable.ftn.toNat) :=
  ⟨by decide, ⟨inv_idle, by decide⟩, ⟨inv_overflowing, by decide⟩, ⟨inv_counted, by decide⟩, ⟨inv_fullTable, by decide⟩⟩

/-- Two groups with equal weights and different first symbols. -/
theorem witness_MergeReplacesTheTwoLeastGroups :
    let gl : List Group := [⟨1#32, ⟨4#32, [true]⟩, [⟨2#32, [false]⟩]⟩, ⟨1#32, ⟨3#32, []⟩, []⟩]
    2 ≤ gl.length ∧ ((gl.flatMap Group.members).map CodeEntry.sym).Nodup := by decide

theorem witness_MergeWeightsNeverOverflow :
    (2 ≤ (initialGroups fullTable.ftValid).length ∧
      ((initialGroups fullTable.ftValid).map fun g => g.w.toNat).sum < 2 ^ Config.tiny.cntw) ∧
    (counted.Inv ∧ 2 ≤ counted.ftn.toNat) ∧ fullTable.Inv ∧ 2 ≤ fullTable.ftn.toNat :=
  ⟨by decide, ⟨inv_counted, by decide⟩, inv_fullTable, by decide⟩

theorem witness_BuiltCodebookIsPrefixFree :
    fullTable.Inv ∧ fullTable.fault = none ∧ fullTable.phase = .count ∧ ∃ t, exec .build fullTable = .next t :=
  ⟨inv_fullTable, by decide, by decide, exec_after _ _⟩

theorem witness_BuiltCodebookCoversTheCountedSymbols :
    counted.Inv ∧ counted.fault = none ∧ counted.phase = .count ∧ ∃ t, exec .build counted = .next t :=
  ⟨inv_counted, by decide, by decide, exec_after _ _⟩

theorem witness_BuiltCodesFillTheTree :
    (counted.Inv ∧ counted.fault = none ∧ counted.phase = .count ∧ (∃ t, exec .build counted = .next t) ∧
      2 ≤ counted.ftn.toNat) ∧
    (overflowing.Inv ∧ overflowing.fault = none ∧ overflowing.phase = .count ∧
      (∃ t, exec .build overflowing = .next t) ∧ overflowing.ftn = 1#17) :=
  ⟨⟨inv_counted, by decide, by decide, exec_after _ _, by decide⟩,
    ⟨inv_overflowing, by decide, by decide, exec_after _ _, by decide⟩⟩

theorem witness_BuiltCodebookIsSortedByCode :
    fullTable.Inv ∧ fullTable.fault = none ∧ fullTable.phase = .count ∧ (∃ t, exec .build fullTable = .next t) ∧
    2 ≤ fullTable.ftn.toNat :=
  ⟨inv_fullTable, by decide, by decide, exec_after _ _, by decide⟩

/-- The table of `counted` with its slots in the other order. -/
def recounted : State := { counted with ft := [⟨2#32, 1#32⟩, ⟨1#32, 2#32⟩] }

theorem inv_recounted : recounted.Inv :=
  ⟨⟨by decide, by decide, by decide, by decide⟩, ⟨by decide, by decide, by decide, by decide, by decide⟩,
    ⟨by decide, by decide, by decide, by decide, by decide⟩, ⟨by decide, by decide, by decide⟩,
    ⟨by decide, by decide, by decide, by decide, by decide, by decide⟩,
    ⟨by decide, by decide, by decide, by decide, List.forall_mem_nil _, by decide, by decide⟩,
    ⟨by decide, by decide, by decide⟩⟩

theorem witness_BuildDependsOnlyOnTheSetOfCounts :
    (counted.Inv ∧ recounted.Inv ∧ counted.cfg = recounted.cfg ∧ counted.fault = none ∧ recounted.fault = none ∧
      counted.phase = .count ∧ recounted.phase = .count ∧ counted.ftValid.Perm recounted.ftValid ∧
      (∃ t, exec .build counted = .next t) ∧ ∃ t, exec .build recounted = .next t) ∧
    (idle.Inv ∧ idle.fault = none ∧ idle.phase = .idle ∧ [1#32, 2#32, 1#32].Perm [2#32, 1#32, 1#32] ∧
      (∃ t, RunsWithoutFault (Pseudo.cntStr [1#32, 2#32, 1#32] ++ [.build]) idle t) ∧
      ∃ t, RunsWithoutFault (Pseudo.cntStr [2#32, 1#32, 1#32] ++ [.build]) idle t) ∧
    ∃ t, RunsWithoutFault (Pseudo.encodeText [1#32, 2#32, 1#32]) idle t :=
  ⟨⟨inv_counted, inv_recounted, rfl, by decide, by decide, by decide, by decide, by decide, exec_after _ _, exec_after _ _⟩,
    ⟨inv_idle, by decide, by decide, by decide, ⟨_, runInstrs_after _ _, by decide⟩, ⟨_, runInstrs_after _ _, by decide⟩⟩,
    ⟨_, runInstrs_after _ _, by decide⟩⟩

/-- V16: the table of "abracadabra". -/
theorem witness_BuildOfAbracadabra :
    let s : State := { State.resetOf Config.ref with
      phase := .count, ftn := 5#17, total := 11#32,
      ft := [⟨97#32, 5#32⟩, ⟨98#32, 2#32⟩, ⟨114#32, 2#32⟩, ⟨99#32, 1#32⟩, ⟨100#32, 1#32⟩] }
    s.cfg = Config.ref ∧ s.fault = none ∧ s.phase = .count ∧ s.ftn = 5#17 ∧
    s.ft.take 5 = [⟨97#32, 5#32⟩, ⟨98#32, 2#32⟩, ⟨114#32, 2#32⟩, ⟨99#32, 1#32⟩, ⟨100#32, 1#32⟩] :=
  ⟨rfl, rfl, rfl, rfl, rfl⟩

theorem witness_PackBeginOpensAPackRun :
    (idle.fault = none ∧ ¬ (idle.phase ∈ [Phase.ready] ∧ idle.openv ∈ [false, true])) ∧ ready.fault = none ∧
    ready.phase = .ready := by decide

/-- Seven bits pending, and none. -/
theorem witness_PushBitAppendsOneBit :
    packing.pacc.toNat < 2 ^ packing.pcnt.toNat ∧ idle.pacc.toNat < 2 ^ idle.pcnt.toNat := by decide

theorem witness_PackSymPushesTheCode :
    (idle.fault = none ∧ ¬ (idle.phase ∈ [Phase.pack] ∧ idle.openv ∈ [false, true]) ∧
      packing.phase ∈ [Phase.pack] ∧ 2 ^ packing.cfg.symw ≤ (256#32 : Word).toNat) ∧
    (packing.Inv ∧ packing.fault = none ∧ packing.phase = .pack ∧ (255#32 : Word).toNat < 2 ^ packing.cfg.symw ∧
      (∀ e ∈ packing.cbValid, e.sym ≠ 255#32) ∧ ∃ e ∈ packing.cbValid, e.sym = 2#32) :=
  ⟨by decide, inv_packing, by decide⟩

theorem witness_PackEndPadsTheLastByte :
    (idle.fault = none ∧ ¬ (idle.phase ∈ [Phase.pack] ∧ idle.openv ∈ [false, true])) ∧
    (packing.fault = none ∧ packing.phase = .pack ∧ packing.pcnt ≠ 0#3) ∧
    ({ ready with phase := .pack }.fault = none ∧ { ready with phase := .pack }.phase = .pack ∧
      { ready with phase := .pack }.pcnt = 0#3) := by decide

theorem witness_PackRunProducesThePaddedBitstream :
    ready.Inv ∧ ready.fault = none ∧ ready.phase = .ready ∧
    List.Forall₂ (fun x c => (⟨x, c⟩ : CodeEntry) ∈ ready.cbValid) [1#32, 2#32] [[true], [false]] ∧ 0 ≤ 2 ∧
    [1#32, 2#32].length ≤ 2 :=
  ⟨inv_ready, by decide, by decide, .cons (by decide) (.cons (by decide) .nil), by decide, by decide⟩

theorem witness_DecBeginOpensADecodeRun :
    (idle.fault = none ∧ ¬ (idle.phase ∈ [Phase.ready] ∧ idle.openv ∈ [false, true]) ∧
      ready.phase ∈ [Phase.ready] ∧ 8 ≤ (8#32 : Word).toNat) ∧ ready.fault = none ∧ ready.phase = .ready := by decide

/-- A feed that completes and one that is refused. -/
theorem witness_FeedingBitsIsTheGreedyParse :
    (decoding.Inv ∧ ∃ t, decoding.feedBits [false, true] = .done t) ∧
    (malformed.Inv ∧ ∃ f t, malformed.feedBits [true, true, true, true] = .raised f t) :=
  ⟨⟨inv_decoding, _, rfl⟩, ⟨inv_malformed, _, _, rfl⟩⟩

theorem witness_ShadowedEntriesAreNeverEmitted :
    shadowed.Inv ∧ shadowed.phase.codebookComplete = true ∧
    (∃ d ∈ shadowed.cbValid, ∃ e ∈ shadowed.cbValid, d.code <+: e.code ∧ d.code ≠ e.code) ∧
    ∃ t, exec (.decByte 0#32) shadowed = .next t :=
  ⟨inv_shadowed, by decide, by decide, exec_after _ _⟩

/-- Eight ones over the one code "111" are two symbols and two bits left over. -/
theorem triple_parse : GreedyParse triple.cbValid triple.cfg.maxLen (triple.acc ++ byteBits triple.hold)
    [9#32, 9#32] [true, true] :=
  .symbol ⟨9#32, [true, true, true]⟩ [true, true, true, true, true] [9#32] [true, true] (by decide) (by decide)
    (.symbol ⟨9#32, [true, true, true]⟩ [true, true] [] [true, true] (by decide) (by decide)
      (.rest [true, true] (by decide) (by decide)))

/-- Eight ones over the one code "0" have no parse: the accumulator is too short for them. -/
theorem malformed_parse (k : Nat) (h : 3 < (List.replicate k true).length) : ¬ ∃ syms left,
    GreedyParse [⟨9#32, [false]⟩] 3 (List.replicate k true) syms left := by
  rintro ⟨syms, left, hp⟩
  generalize hb : List.replicate k true = bits at hp h
  cases hp with
  | rest left fits => omega
  | symbol e bits syms left he =>
    obtain rfl := List.mem_singleton.1 he
    have := List.eq_of_mem_replicate (hb ▸ List.mem_cons_self : false ∈ List.replicate k true)
    cases this

theorem witness_DecByteDecodesTheHeldByte :
    (idle.fault = none ∧ ¬ (idle.phase ∈ [Phase.decode] ∧ idle.openv ∈ [false, true]) ∧
      decoding.phase ∈ [Phase.decode] ∧ 256 ≤ (256#32 : Word).toNat) ∧
    (decoding.Inv ∧ decoding.fault = none ∧ decoding.phase = .decode ∧ decoding.holdv = false) ∧
    (triple.Inv ∧ triple.fault = none ∧ triple.phase = .decode ∧ triple.holdv = true ∧
      ∃ syms left, GreedyParse triple.cbValid triple.cfg.maxLen (triple.acc ++ byteBits triple.hold) syms left) ∧
    (malformed.Inv ∧ malformed.fault = none ∧ malformed.phase = .decode ∧ malformed.holdv = true ∧
      ¬ ∃ syms left, GreedyParse malformed.cbValid malformed.cfg.maxLen (malformed.acc ++ byteBits malformed.hold)
        syms left) :=
  ⟨by decide, ⟨inv_decoding, by decide⟩, ⟨inv_triple, by decide, by decide, by decide, _, _, triple_parse⟩,
    ⟨inv_malformed, by decide, by decide, by decide, malformed_parse 8 (by decide)⟩⟩

/-- `triple` has six bits to feed, two entries; with no padding two bits are left over. -/
theorem witness_DecEndClosesTheDecodeRun :
    (idle.fault = none ∧ ¬ (idle.phase ∈ [Phase.decode] ∧ idle.openv ∈ [false, true])) ∧
    (triple.Inv ∧ triple.fault = none ∧ triple.phase = .decode ∧ triple.holdv = true ∧
      GreedyParse triple.cbValid triple.cfg.maxLen (triple.acc ++ (byteBits triple.hold).take (8 - triple.pad.toNat))
        [9#32, 9#32] []) ∧
    (tripleUnpadded.Inv ∧ tripleUnpadded.fault = none ∧ tripleUnpadded.phase = .decode ∧ tripleUnpadded.holdv = true ∧
      GreedyParse tripleUnpadded.cbValid tripleUnpadded.cfg.maxLen
        (tripleUnpadded.acc ++ (byteBits tripleUnpadded.hold).take (8 - tripleUnpadded.pad.toNat)) [9#32, 9#32]
        [true, true]) ∧
    (malformed.Inv ∧ malformed.fault = none ∧ malformed.phase = .decode ∧ malformed.holdv = true ∧
      ¬ ∃ syms left, GreedyParse malformed.cbValid malformed.cfg.maxLen
        (malformed.acc ++ (byteBits malformed.hold).take (8 - malformed.pad.toNat)) syms left) ∧
    (decodingPadded.Inv ∧ decodingPadded.fault = none ∧ decodingPadded.phase = .decode ∧
      decodingPadded.holdv = false ∧ decodingPadded.pad ≠ 0#3) ∧
    (decoding.Inv ∧ decoding.fault = none ∧ decoding.phase = .decode ∧ decoding.holdv = false ∧
      decoding.pad = 0#3 ∧ decoding.acc = []) ∧
    (leftOver.Inv ∧ leftOver.fault = none ∧ leftOver.phase = .decode ∧ leftOver.holdv = false ∧ leftOver.pad = 0#3 ∧
      leftOver.acc ≠ []) :=
  ⟨by decide,
    ⟨inv_triple, by decide, by decide, by decide,
      .symbol ⟨9#32, [true, true, true]⟩ [true, true, true] [9#32] [] (by decide) (by decide)
        (.symbol ⟨9#32, [true, true, true]⟩ [] [] [] (by decide) (by decide) (.rest [] (by decide) (by decide)))⟩,
    ⟨inv_tripleUnpadded, by decide, by decide, by decide, triple_parse⟩,
    ⟨inv_malformed, by decide, by decide, by decide, malformed_parse 8 (by decide)⟩,
    ⟨inv_decodingPadded, by decide⟩, ⟨inv_decoding, by decide⟩, ⟨inv_leftOver, by decide⟩⟩

/-- A run with a parse, the empty run, and a run that completes. -/
theorem witness_DecodeRunIsTheGreedyParse :
    ready.Inv ∧ ready.fault = none ∧ ready.phase = .ready ∧
    ((7#3 : BitVec 3).toNat ≤ 8 * [0x80#8].length ∧ GreedyParse ready.cbValid ready.cfg.maxLen
      (([0x80#8].flatMap byteBits).take (8 * [0x80#8].length - (7#3 : BitVec 3).toNat)) [1#32] []) ∧
    ((0#3 : BitVec 3).toNat ≤ 8 * ([] : List Byte).length ∧ GreedyParse ready.cbValid ready.cfg.maxLen
      ((([] : List Byte).flatMap byteBits).take (8 * ([] : List Byte).length - (0#3 : BitVec 3).toNat)) [] []) ∧
    ∃ t, RunsWithoutFault (Pseudo.decodeBytes 7#3 [0x80#8]) ready t :=
  ⟨inv_ready, by decide, by decide,
    ⟨by decide, .symbol ⟨1#32, [true]⟩ [] [] [] (by decide) (by decide) (.rest [] (by decide) (by decide))⟩,
    ⟨by decide, .rest [] (by decide) (by decide)⟩, ⟨_, runInstrs_after _ _, by decide⟩⟩

/-- Texts with one, with `NSYM` and with no symbols, the last one with `CNTMAX` symbols in it. -/
theorem witness_EncodedTextDecodesToItself :
    idle.Inv ∧ idle.fault = none ∧ idle.phase = .idle ∧
    (∀ text ∈ [[], [255#32], [1#32, 2#32, 3#32, 4#32], List.replicate 15 7#32],
      text.eraseDups.length ≤ idle.cfg.nsym ∧ text.length ≤ 2 ^ idle.cfg.cntw - 1) ∧
    (∀ text ∈ [[], [255#32], [1#32, 2#32, 3#32, 4#32], List.replicate 15 7#32],
      text.all (fun x : Symbol => decide (x.toNat < 2 ^ idle.cfg.symw)) = true) ∧
    (after (Pseudo.encodeText [1#32, 2#32]) idle).cbValid.reverse.Perm
      (after (Pseudo.encodeText [1#32, 2#32]) idle).cbValid :=
  ⟨inv_idle, by decide, by decide, by simp [idle, State.resetOf, Config.tiny]; decide,
    by simp [idle, State.resetOf, Config.tiny], List.reverse_perm _⟩

theorem witness_CblOpenOpensAnEntry :
    (loading.fault = none ∧ ¬ (loading.phase ∈ [Phase.idle, .load] ∧ loading.openv ∈ [false]) ∧
      loaded.fault = none ∧ loaded.phase ∈ [Phase.idle, .load] ∧ loaded.openv ∈ [false] ∧
      2 ^ loaded.cfg.symw ≤ (256#32 : Word).toNat) ∧
    (fullBook.fault = none ∧ fullBook.phase = .load ∧ fullBook.openv = false ∧
      (255#32 : Word).toNat < 2 ^ fullBook.cfg.symw ∧ fullBook.cbn.toNat = fullBook.cfg.nsym) ∧
    (loaded.cbn.toNat ≠ loaded.cfg.nsym ∧ (1#32 : Word).toNat < 2 ^ loaded.cfg.symw ∧
      ∃ e ∈ loaded.cbValid, e.sym = 1#32) ∧
    (idle.fault = none ∧ idle.phase = .idle ∧ idle.openv = false ∧ idle.cbn.toNat ≠ idle.cfg.nsym ∧
      (255#32 : Word).toNat < 2 ^ idle.cfg.symw ∧ ∀ e ∈ idle.cbValid, e.sym ≠ 255#32) := by decide

theorem witness_CblBitAppendsABit :
    (loaded.fault = none ∧ ¬ (loaded.phase ∈ [Phase.load] ∧ loaded.openv ∈ [true]) ∧
      loading.phase ∈ [Phase.load] ∧ loading.openv ∈ [true] ∧ 2 ≤ (2#32 : Word).toNat) ∧
    (loading.fault = none ∧ loading.phase = .load ∧ loading.openv = true ∧ loading.ocode.length ≠ loading.cfg.maxLen) ∧
    ({ loading with ocode := [true, true, true] }.ocode.length = loading.cfg.maxLen) := by decide

theorem witness_CblCloseCommitsTheEntry :
    (loaded.fault = none ∧ ¬ (loaded.phase ∈ [Phase.load] ∧ loaded.openv ∈ [true])) ∧
    (loadingEmpty.Inv ∧ loadingEmpty.fault = none ∧ loadingEmpty.phase = .load ∧ loadingEmpty.openv = true ∧
      loadingEmpty.ocode = []) ∧
    (loadingRepeated.Inv ∧ loadingRepeated.fault = none ∧ loadingRepeated.phase = .load ∧
      loadingRepeated.openv = true ∧ loadingRepeated.ocode ≠ [] ∧
      ∃ e ∈ loadingRepeated.cbValid, e.code = loadingRepeated.ocode) ∧
    (loading.Inv ∧ loading.fault = none ∧ loading.phase = .load ∧ loading.openv = true ∧ loading.ocode ≠ [] ∧
      ∀ e ∈ loading.cbValid, e.code ≠ loading.ocode) :=
  ⟨by decide, ⟨inv_loadingEmpty, by decide⟩, ⟨inv_loadingRepeated, by decide⟩, ⟨inv_loading, by decide⟩⟩

theorem witness_CblEndCompletesTheCodebook :
    (loading.fault = none ∧ ¬ (loading.phase ∈ [Phase.idle, .load] ∧ loading.openv ∈ [false])) ∧
    (idle.fault = none ∧ idle.phase = .idle ∧ idle.openv = false) ∧ loaded.fault = none ∧ loaded.phase = .load ∧
    loaded.openv = false := by decide

/-- Loads of no entry, of one entry, and of `NSYM` entries, one of them with `MAXLEN` bits. -/
theorem witness_LoadProducesTheEntries :
    idle.Inv ∧ idle.fault = none ∧ idle.phase = .idle ∧ (∃ t, RunsWithoutFault (Pseudo.loadCodebook []) idle t) ∧
    (∃ t, RunsWithoutFault (Pseudo.loadCodebook [⟨255#32, [true, true, true]⟩]) idle t) ∧
    let entries : List CodeEntry := [⟨255#32, [true, true, true]⟩, ⟨2#32, [true]⟩, ⟨3#32, [false]⟩, ⟨4#32, [true, true]⟩]
    entries.length ≤ idle.cfg.nsym ∧ (entries.map CodeEntry.sym).Nodup ∧ (entries.map CodeEntry.code).Nodup ∧
    ∀ e ∈ entries, e.sym.toNat < 2 ^ idle.cfg.symw ∧ e.code ≠ [] ∧ e.code.length ≤ idle.cfg.maxLen :=
  ⟨inv_idle, by decide, by decide, ⟨_, runInstrs_after _ _, by decide⟩, ⟨_, runInstrs_after _ _, by decide⟩, by decide⟩

theorem witness_StatusWordHoldsItsFields : 7 ≤ 7 := by decide

theorem witness_ControlRegistersReadTheState :
    (idle.Inv ∧ idle.fault = none) ∧ faulted.Inv ∧ faulted.fault = some .badPhase :=
  ⟨⟨inv_idle, by decide⟩, inv_faulted, by decide⟩

theorem witness_FrequencyTableWindowReadsItsSlots :
    fullTable.Inv ∧ fullTable.ftValid[0]? = some ⟨1#32, 2#32⟩ ∧ fullTable.ftValid[3]? = some ⟨4#32, 1#32⟩ :=
  ⟨inv_fullTable, by decide, by decide⟩

theorem witness_CodebookWindowReadsItsSlots :
    fullBook.Inv ∧ fullBook.cbValid[3]? = some ⟨4#32, [false, true]⟩ ∧
    ([false, true] : BitString)[1]? = some true ∧ ([false, true] : BitString).length ≤ 2 ∧
    2 < 32 * ((fullBook.cfg.maxLen + 31) / 32) :=
  ⟨inv_fullBook, by decide, by decide, by decide, by decide⟩

/-- Both ends of the three unmapped ranges of TINY. -/
theorem witness_UnmappedReadsReturnZero :
    (0x0000000E < (0x0000000F#32 : Word).toNat ∧ (0x0000FFFF#32 : Word).toNat < 0x00010000) ∧
    (0x00010000 + 2 * idle.cfg.nsym ≤ (0x00010008#32 : Word).toNat ∧ (0x00FFFFFF#32 : Word).toNat < 0x01000000) ∧
    (0x01000000 + idle.cfg.nsym * (2 + (idle.cfg.maxLen + 31) / 32) ≤ (0x0100000C#32 : Word).toNat) := by decide

/-- Both ends of the two ranges of invalid slots, after `BUILD` on `counted`. -/
theorem witness_InvalidSlotReadsAreFreeDraws :
    (0x00010000 + 2 * ready.ftn.toNat ≤ (0x00010004#32 : Word).toNat ∧
      (0x00010007#32 : Word).toNat < 0x00010000 + 2 * ready.cfg.nsym) ∧
    (0x01000000 + ready.cbn.toNat * (2 + (ready.cfg.maxLen + 31) / 32) ≤ (0x01000006#32 : Word).toNat ∧
      (0x0100000B#32 : Word).toNat < 0x01000000 + ready.cfg.nsym * (2 + (ready.cfg.maxLen + 31) / 32)) := by decide

theorem witness_ElementsAreWrittenByTheirCommandsOnly :
    (Instr.build ≠ .clear ∧ ∃ t, exec .build counted = .next t) ∧
    (Instr.packEnd ≠ .clear ∧ ∃ t, exec .packEnd packing = .next t ∧ t.byteOut ≠ packing.byteOut) ∧
    (Instr.decEnd ≠ .clear ∧ ∃ t, exec .decEnd triple = .next t ∧ t.symOut ≠ triple.symOut) :=
  ⟨⟨by decide, exec_after _ _⟩, ⟨by decide, _, rfl, by decide⟩, ⟨by decide, _, rfl, by decide⟩⟩

theorem witness_StreamsAreAppendOnly : ∃ t, exec .packEnd packing = .next t := exec_after _ _

theorem witness_StepKeepsTheInvariant : counted.Inv ∧ ∃ t, step (placeCommand 0x2000000000000000#64 counted) = .next t :=
  ⟨inv_counted, exec_after .build _⟩

theorem witness_StepKeepsThePhaseInvariants :
    PhaseOk counted ∧ ∃ t, step (placeCommand 0x2000000000000000#64 counted) = .next t :=
  ⟨inv_counted.phase, exec_after .build _⟩

end Sys2Proof.Tests
end

section
/-! PROOF. A step with a command word waiting runs the command the word decodes to (00_scope.md R7; 20_memory.md
R73). -/

namespace Sys2Proof.Machine

/-! ### Words that decode -/

theorem decodeTableWord_eq_some_iff {nbits w : Nat} {i : Instr} :
    decodeTableWord nbits w = some i ↔ (nbits ≤ 64 ∧ w < 2 ^ 64) ∧ decode (BitVec.ofNat 64 w) = .ok i := by
  rw [decodeTableWord, Option.ite_none_right_eq_some]
  cases decode (BitVec.ofNat 64 w) <;> simp [Except.toOption]

/-- Step 3 of the processing of a word, when it succeeds (30_encoding.md R94). -/
theorem acceptCommand_of_decode_ok {w : CommandWord} {i : Instr} (hw : decode w = .ok i) (s : State) :
    acceptCommand w s = exec i s := by
  rw [acceptCommand, hw]

/-! ### The step that takes a command word -/

theorem step_of_host_command {s : State} {w : CommandWord} {rest : List HostAction}
    (hs : s.host = .command w :: rest) : step s = acceptCommand w { s with host := rest } := by
  simp only [step, hs, serve]

@[simp] theorem step_placeCommand (w : CommandWord) (s : State) : step (placeCommand w s) = acceptCommand w s :=
  step_of_host_command rfl

/-- Settles O6: both ways of placing the word come down to `acceptCommand` of a word that decodes, which is `exec`. -/
theorem stepRunsTheDecodedCommand : Obligations.StepRunsTheDecodedCommand := by
  refine ⟨fun s w rest i hs hw => ?_, fun s nbits w i hw => ?_⟩
  · rw [step_of_host_command hs, acceptCommand_of_decode_ok hw]
  · obtain ⟨-, hdecode⟩ := decodeTableWord_eq_some_iff.mp hw
    rw [State.withFetchWord, step_placeCommand, acceptCommand_of_decode_ok hdecode]

end Sys2Proof.Machine
end

section
/-! PROOF. What the parts of a step can do: the admission table as phases before and after (10_state.md R24), every
end of the rules that check something, and the two inductions over a command and over a step. -/

namespace Sys2Proof.Machine

/-! ### Admission -/

/-- The phases in which a command is admitted: its row of the phase transition table (10_state.md R24). -/
def admittingPhases : Instr → List Phase
  | .nop | .clear => [.idle, .count, .load, .ready, .pack, .decode]
  | .cntSym _ | .build => [.idle, .count]
  | .packBegin | .decBegin _ => [.ready]
  | .packSym _ | .packEnd => [.pack]
  | .decByte _ | .decEnd => [.decode]
  | .cblOpen _ | .cblEnd => [.idle, .load]
  | .cblBit _ | .cblClose => [.load]

/-- The phase an admitted command leaves when it completes (10_state.md R24). -/
def phaseAfter : Instr → Phase → Phase
  | .nop, p => p
  | .clear, _ => .idle
  | .cntSym _, _ => .count
  | .packBegin, _ | .packSym _, _ => .pack
  | .decBegin _, _ | .decByte _, _ => .decode
  | .cblOpen _, _ | .cblBit _, _ | .cblClose, _ => .load
  | .build, _ | .packEnd, _ | .decEnd, _ | .cblEnd, _ => .ready

theorem nextPhase_eq (i : Instr) (p : Phase) :
    nextPhase i p = if p ∈ admittingPhases i then some (phaseAfter i p) else none := by
  cases i <;> cases p <;> rfl

theorem admitted_iff {i : Instr} {s : State} :
    admitted i s = true ↔ s.phase ∈ admittingPhases i ∧ ∀ v, neededOpenv i = some v → s.openv = v := by
  rw [admitted, nextPhase_eq]
  cases neededOpenv i <;> simp

theorem phase_mem_of_admitted {i : Instr} {s : State} (ha : admitted i s = true) : s.phase ∈ admittingPhases i :=
  (admitted_iff.1 ha).1

theorem phase_ne_of_admitted {i : Instr} {s : State} {p : Phase} (ha : admitted i s = true)
    (hp : p ∉ admittingPhases i := by simp [admittingPhases]) : s.phase ≠ p :=
  fun e => hp (e ▸ phase_mem_of_admitted ha)

/-! ### The rules that check something -/

/-- `CNT_SYM` of a symbol not yet in `FT`, after its checks (41_frequency_counter.md R120). -/
def State.countFirst (sym : Symbol) (s : State) : State :=
  { s with
    ft := writeSlot s.ft s.ftn.toNat ⟨sym, 1#32⟩
    ftn := s.ftn + 1#17
    total := s.cfg.addCount s.total 1#32
    phase := .count }

/-- `CNT_SYM` of the symbol in slot `i`, after its check (41_frequency_counter.md R120). -/
def State.countAgain (i : Nat) (s : State) : State :=
  { s with
    ft := s.ft.modify i (fun x => { x with count := s.cfg.addCount x.count 1#32 })
    total := s.cfg.addCount s.total 1#32
    phase := .count }

/-- `CBL_CLOSE` after its checks (45_codebook_load.md R192). -/
def State.commitEntry (s : State) : State :=
  { s with
    cb := writeSlot s.cb s.cbn.toNat ⟨s.osym, s.ocode⟩
    cbn := s.cbn + 1#17
    openv := false }

theorem countSymbol_cases (sym : Symbol) (s : State) :
    (∃ f, countSymbol sym s = .raised f s) ∨
    (s.total ≠ s.cfg.cntMax ∧
      ((s.ftFind sym = none ∧ s.ftn.toNat ≠ s.cfg.nsym ∧ countSymbol sym s = .done (s.countFirst sym)) ∨
        ∃ i, s.ftFind sym = some i ∧ countSymbol sym s = .done (s.countAgain i))) := by
  rw [countSymbol]
  by_cases ht : s.total = s.cfg.cntMax
  · exact .inl ⟨_, if_pos ht⟩
  · rw [if_neg ht]
    cases hf : s.ftFind sym with
    | none =>
      by_cases hn : s.ftn.toNat = s.cfg.nsym
      · exact .inl ⟨_, if_pos hn⟩
      · exact .inr ⟨ht, .inl ⟨rfl, hn, if_neg hn⟩⟩
    | some i => exact .inr ⟨ht, .inr ⟨i, rfl, rfl⟩⟩

theorem packSymbol_cases (sym : Symbol) (s : State) :
    (∃ f, packSymbol sym s = .raised f s) ∨ ∃ code, packSymbol sym s = .done (s.pushBits code) := by
  rw [packSymbol]
  cases s.cbFindSym sym with
  | none => exact .inl ⟨_, rfl⟩
  | some e => exact .inr ⟨_, rfl⟩

theorem openEntry_cases (sym : Symbol) (s : State) :
    (∃ f, openEntry sym s = .raised f s) ∨
    (s.cbn.toNat ≠ s.cfg.nsym ∧ s.cbFindSym sym = none ∧
      openEntry sym s = .done { s with osym := sym, ocode := [], openv := true, phase := .load }) := by
  rw [openEntry]
  by_cases hn : s.cbn.toNat = s.cfg.nsym
  · exact .inl ⟨_, if_pos hn⟩
  · rw [if_neg hn]
    cases hf : s.cbFindSym sym with
    | none => exact .inr ⟨hn, rfl, rfl⟩
    | some e => exact .inl ⟨_, rfl⟩

theorem appendCodeBit_cases (b : Bool) (s : State) :
    (∃ f, appendCodeBit b s = .raised f s) ∨
    (s.ocode.length ≠ s.cfg.maxLen ∧ appendCodeBit b s = .done { s with ocode := s.ocode ++ [b] }) := by
  rw [appendCodeBit]
  by_cases hl : s.ocode.length = s.cfg.maxLen
  · exact .inl ⟨_, if_pos hl⟩
  · exact .inr ⟨hl, if_neg hl⟩

theorem closeEntry_cases (s : State) :
    (∃ f, closeEntry s = .raised f s) ∨
    (s.ocode ≠ [] ∧ s.cbFindCode s.ocode = none ∧ closeEntry s = .done s.commitEntry) := by
  rw [closeEntry]
  by_cases hc : s.ocode = []
  · exact .inl ⟨_, if_pos hc⟩
  · rw [if_neg hc]
    cases hf : s.cbFindCode s.ocode with
    | none => exact .inr ⟨hc, rfl, rfl⟩
    | some e => exact .inl ⟨_, rfl⟩

/-! ### Where a rule ends -/

/-- The state in which a command's rule ends, whether it completed or executed `raise` (00_scope.md R12). -/
def Progress.state : Progress → State
  | .done s => s
  | .raised _ s => s

@[simp] theorem Progress.state_done (s : State) : (Progress.done s).state = s := rfl

@[simp] theorem Progress.state_raised (f : FaultCode) (s : State) : (Progress.raised f s).state = s := rfl

/-- `DEC_BYTE`, completed or not. -/
theorem decodeByte_state (v : Byte) (s : State) :
    ∃ syms acc hold holdv, (decodeByte v s).state =
      { s with symOut := s.symOut ++ syms, acc := acc, hold := hold, holdv := holdv } := by
  cases h : decodeByte v s with
  | done t =>
    obtain ⟨syms, acc, rfl⟩ := decodeByte_done h
    exact ⟨syms, acc, _, _, rfl⟩
  | raised f t =>
    obtain ⟨-, -, syms, acc, rfl⟩ := decodeByte_raised h
    exact ⟨syms, acc, s.hold, s.holdv, rfl⟩

/-- `DEC_END`, completed or not: it leaves the phase or closes the run with no bits left over. -/
theorem finishDecoding_state (s : State) :
    ∃ syms acc holdv phase, (finishDecoding s).state =
        { s with symOut := s.symOut ++ syms, acc := acc, holdv := holdv, phase := phase } ∧
      (phase = s.phase ∨ phase = .ready ∧ acc = [] ∧ holdv = false) := by
  cases h : finishDecoding s with
  | done t =>
    obtain ⟨syms, rfl⟩ := finishDecoding_done h
    exact ⟨syms, [], false, .ready, rfl, .inr ⟨rfl, rfl, rfl⟩⟩
  | raised f t =>
    obtain ⟨-, syms, acc, rfl | ⟨-, rfl⟩⟩ := finishDecoding_raised h
    · exact ⟨syms, acc, s.holdv, s.phase, rfl, .inl rfl⟩
    · exact ⟨syms, acc, false, s.phase, rfl, .inl rfl⟩

/-! ### Induction over a command and over a step -/

/-- What holds before a command, after `CLEAR`, after the command's own rule, and still after a fault entry, holds
after the command. -/
theorem exec_induction {P : State → Prop} {i : Instr} {s t : State} (h : exec i s = .next t) (hs : P s)
    (hclear : i = .clear → P s.clear) (hraise : ∀ u f, P u → P (u.raise f (encode i)))
    (hrule : i ≠ .clear → admitted i s = true → P (commandRule i s).state) : P t := by
  rcases exec_cases h with ⟨hi, rfl⟩ | ⟨hi, ⟨-, rfl⟩ | ⟨-, -, rfl⟩ | ⟨-, -, -, rfl⟩ | ⟨-, ha, -, hd⟩⟩
  · exact hclear hi
  · exact hs
  · exact hraise _ _ hs
  · exact hraise _ _ hs
  · have hu := hrule hi ha
    rcases hd with hd | ⟨f, u, hr, rfl⟩
    · rwa [hd] at hu
    · rw [hr] at hu
      exact hraise _ _ hu

/-- A property that looks at no field of the host's side and that reset, `CLEAR`, the fault entry and every
admitted command's own rule keep is kept by every step. -/
theorem step_induction {P : State → Prop}
    (hhost : ∀ s host rdOut draws, P s → P { s with host := host, rdOut := rdOut, draws := draws })
    (hreset : ∀ s, P s → P s.resetPin) (hclear : ∀ s, P s → P s.clear)
    (hraise : ∀ s f cmd, P s → P (s.raise f cmd))
    (hrule : ∀ i s, P s → i ≠ .clear → admitted i s = true → P (commandRule i s).state)
    {s t : State} (hs : P s) (h : step s = .next t) : P t := by
  rw [step] at h
  split at h
  · obtain rfl := Host.Outcome.next.inj h
    exact hs
  · next a rest _ =>
    have hr : P { s with host := rest } := hhost s rest s.rdOut s.draws hs
    cases a with
    | command w =>
      rw [serve, acceptCommand] at h
      split at h
      · exact exec_induction h hr (fun _ => hclear _ hr) (fun u f hu => hraise u f _ hu) (hrule _ _ hr)
      · obtain rfl := Host.Outcome.next.inj h
        rw [refuseWord]
        split
        · exact hr
        · exact hraise _ _ _ hr
    | read a =>
      obtain rfl := Host.Outcome.next.inj h
      exact hhost _ rest _ _ hr
    | reset =>
      obtain rfl := Host.Outcome.next.inj h
      exact hreset _ hr

end Sys2Proof.Machine
end

section
/-! PROOF. Which elements each command writes (10_state.md R20), the phase it leaves (R24), and that the streams are
only appended to (R44). -/

namespace Sys2Proof.Machine

/-! ### The elements a command's own rule writes -/

/-- 10_state.md R20, column "written by", without `FAULT` and `FCMD`, which the fault entry writes for all commands. -/
structure WritesItsElements (i : Instr) (s t : State) : Prop where
  hostSide : SameHostSide s t
  phase : t.phase ≠ s.phase → (∃ a, i = .cntSym a ∨ i = .decBegin a ∨ i = .cblOpen a) ∨ i = .build ∨
    i = .packBegin ∨ i = .packEnd ∨ i = .decEnd ∨ i = .cblEnd
  frequencyTable : ¬ SameFrequencyTable s t → ∃ a, i = .cntSym a
  gl : t.gl ≠ s.gl → i = .build
  codebook : ¬ SameCodebook s t → i = .build ∨ i = .cblClose
  pad : t.pad ≠ s.pad → i = .packEnd ∨ ∃ a, i = .decBegin a
  packer : ¬ SamePacker s t → i = .packBegin ∨ i = .packEnd ∨ ∃ a, i = .packSym a
  hold : t.hold ≠ s.hold → ∃ a, i = .decBegin a ∨ i = .decByte a
  walk : t.holdv ≠ s.holdv ∨ t.acc ≠ s.acc → i = .decEnd ∨ ∃ a, i = .decBegin a ∨ i = .decByte a
  osym : t.osym ≠ s.osym → ∃ a, i = .cblOpen a
  ocode : t.ocode ≠ s.ocode → ∃ a, i = .cblOpen a ∨ i = .cblBit a
  openv : t.openv ≠ s.openv → i = .cblClose ∨ ∃ a, i = .cblOpen a
  byteOut : t.byteOut ≠ s.byteOut → i = .packEnd ∨ ∃ a, i = .packSym a
  symOut : t.symOut ≠ s.symOut → i = .decEnd ∨ ∃ a, i = .decByte a

theorem writesItsElements_refl (i : Instr) (s : State) : WritesItsElements i s s := by
  constructor <;> simp [SameHostSide, SameFrequencyTable, SameCodebook, SamePacker]

/-- Every command's own rule writes the elements the table lists for it, whether it completes or faults, and neither
`FAULT` nor `FCMD` (60_exceptions.md R212). -/
theorem commandRule_writes {i : Instr} (hi : i ≠ .clear) (s : State) :
    WritesItsElements i s (commandRule i s).state ∧ SameFaultRegisters s (commandRule i s).state := by
  cases i with
  | nop => exact ⟨writesItsElements_refl _ s, rfl, rfl⟩
  | clear => exact absurd rfl hi
  | cntSym a =>
    rw [commandRule]
    rcases countSymbol_cases (symbolOperand s.cfg a) s with ⟨f, e⟩ | ⟨-, ⟨-, -, e⟩ | ⟨i, -, e⟩⟩ <;> rw [e]
    · exact ⟨writesItsElements_refl _ s, rfl, rfl⟩
    · exact ⟨by constructor <;> simp [State.countFirst, SameHostSide, SameCodebook, SamePacker], rfl, rfl⟩
    · exact ⟨by constructor <;> simp [State.countAgain, SameHostSide, SameCodebook, SamePacker], rfl, rfl⟩
  | build =>
    rw [commandRule, buildCodebook_frame]
    exact ⟨by constructor <;> simp [SameHostSide, SameFrequencyTable, SamePacker], rfl, rfl⟩
  | packBegin =>
    exact ⟨by constructor <;> simp [commandRule, SameHostSide, SameFrequencyTable, SameCodebook], rfl, rfl⟩
  | packSym a =>
    rw [commandRule]
    rcases packSymbol_cases (symbolOperand s.cfg a) s with ⟨f, e⟩ | ⟨code, e⟩ <;> rw [e]
    · exact ⟨writesItsElements_refl _ s, rfl, rfl⟩
    · rw [pushBits_frame]
      exact ⟨by constructor <;> simp [SameHostSide, SameFrequencyTable, SameCodebook], rfl, rfl⟩
  | packEnd =>
    rw [commandRule, finishPacking_frame]
    exact ⟨by constructor <;> simp [SameHostSide, SameFrequencyTable, SameCodebook], rfl, rfl⟩
  | decBegin a =>
    exact ⟨by constructor <;> simp [commandRule, SameHostSide, SameFrequencyTable, SameCodebook, SamePacker], rfl, rfl⟩
  | decByte a =>
    obtain ⟨syms, acc, hold, holdv, e⟩ := decodeByte_state (byteOperand a) s
    rw [commandRule, e]
    exact ⟨by constructor <;> simp [SameHostSide, SameFrequencyTable, SameCodebook, SamePacker], rfl, rfl⟩
  | decEnd =>
    obtain ⟨syms, acc, holdv, phase, e, -⟩ := finishDecoding_state s
    rw [commandRule, e]
    exact ⟨by constructor <;> simp [SameHostSide, SameFrequencyTable, SameCodebook, SamePacker], rfl, rfl⟩
  | cblOpen a =>
    rw [commandRule]
    rcases openEntry_cases (symbolOperand s.cfg a) s with ⟨f, e⟩ | ⟨-, -, e⟩ <;> rw [e]
    · exact ⟨writesItsElements_refl _ s, rfl, rfl⟩
    · exact ⟨by constructor <;> simp [SameHostSide, SameFrequencyTable, SameCodebook, SamePacker], rfl, rfl⟩
  | cblBit a =>
    rw [commandRule]
    rcases appendCodeBit_cases (bitOperand a) s with ⟨f, e⟩ | ⟨-, e⟩ <;> rw [e]
    · exact ⟨writesItsElements_refl _ s, rfl, rfl⟩
    · exact ⟨by constructor <;> simp [SameHostSide, SameFrequencyTable, SameCodebook, SamePacker], rfl, rfl⟩
  | cblClose =>
    rw [commandRule]
    rcases closeEntry_cases s with ⟨f, e⟩ | ⟨-, -, e⟩ <;> rw [e]
    · exact ⟨writesItsElements_refl _ s, rfl, rfl⟩
    · exact ⟨by constructor <;> simp [State.commitEntry, SameHostSide, SameFrequencyTable, SamePacker], rfl, rfl⟩
  | cblEnd =>
    exact ⟨by constructor <;> simp [commandRule, SameHostSide, SameFrequencyTable, SameCodebook, SamePacker], rfl, rfl⟩

theorem exec_writes {i : Instr} {s t : State} (hi : i ≠ .clear) (h : exec i s = .next t) : WritesItsElements i s t :=
  exec_induction h (writesItsElements_refl i s) (fun e => absurd e hi) (fun _ _ hu => { hu with })
    fun _ _ => (commandRule_writes hi s).1

/-! ### `FAULT` and `FCMD` -/

theorem admitted_nop (s : State) : admitted .nop s = true :=
  admitted_iff.2 ⟨by cases s.phase <;> simp [admittingPhases], by simp [neededOpenv]⟩

theorem admitted_clear (s : State) : admitted .clear s = true :=
  admitted_iff.2 ⟨by cases s.phase <;> simp [admittingPhases], by simp [neededOpenv]⟩

theorem exec_nop (s : State) : exec .nop s = .next s := by
  by_cases hf : s.fault = none
  · exact exec_of_legal hf (admitted_nop s) rfl
  · rw [exec_eq_processCommand (by simp), processCommand_of_faulted hf]

/-- A command writes `FAULT` and `FCMD` only by the fault entry, from a state without a fault (10_state.md R28). -/
theorem exec_faultRegisters {i : Instr} {s t : State} (hi : i ≠ .clear) (h : exec i s = .next t) :
    SameFaultRegisters s t ∨ s.fault = none ∧ t.fault ≠ none := by
  rcases exec_cases h with ⟨e, -⟩ | ⟨-, ⟨-, rfl⟩ | ⟨hf, -, rfl⟩ | ⟨hf, -, -, rfl⟩ | ⟨hf, -, -, hd | ⟨f, u, -, rfl⟩⟩⟩
  · exact absurd e hi
  · exact .inl ⟨rfl, rfl⟩
  · exact .inr ⟨hf, by simp⟩
  · exact .inr ⟨hf, by simp⟩
  · have hr := (commandRule_writes hi s).2
    rw [hd] at hr
    exact .inl hr
  · exact .inr ⟨hf, by simp⟩

/-- Settles O56: the elements by the command's own rule, the fault registers by the fault entry. -/
theorem elementsAreWrittenByTheirCommandsOnly : Obligations.ElementsAreWrittenByTheirCommandsOnly := by
  intro i s t h hi
  have hw := exec_writes hi h
  refine ⟨hw.hostSide, hw.phase, fun hne => ?_, hw.frequencyTable, hw.gl, hw.codebook, hw.pad, hw.packer, hw.hold,
    hw.walk, hw.osym, hw.ocode, hw.openv, hw.byteOut, hw.symOut⟩
  obtain ⟨hf, ht⟩ := (exec_faultRegisters hi h).resolve_left hne
  refine ⟨hf, ht, ?_⟩
  rintro rfl
  rw [exec_nop] at h
  exact hne (Host.Outcome.next.inj h ▸ ⟨rfl, rfl⟩)

/-! ### The streams -/

theorem byteOut_pushBit (s : State) (b : Bool) : s.byteOut <+: (s.pushBit b).byteOut := by
  rw [State.pushBit]
  split
  · exact List.prefix_append _ _
  · exact List.prefix_rfl

theorem byteOut_pushBits (code : BitString) (s : State) : s.byteOut <+: (s.pushBits code).byteOut := by
  induction code generalizing s with
  | nil => exact List.prefix_rfl
  | cons b code ih => exact (byteOut_pushBit s b).trans (ih _)

theorem byteOut_finishPacking (s : State) : s.byteOut <+: (finishPacking s).byteOut := by
  rw [finishPacking]
  split
  · exact List.prefix_append _ _
  · exact List.prefix_rfl

/-- Emitting is the only write to a stream, and it appends (10_state.md R44). -/
theorem commandRule_streams {i : Instr} (hi : i ≠ .clear) (s : State) :
    s.byteOut <+: (commandRule i s).state.byteOut ∧ s.symOut <+: (commandRule i s).state.symOut := by
  have hw := (commandRule_writes hi s).1
  constructor
  · by_cases hb : (commandRule i s).state.byteOut = s.byteOut
    · rw [hb]
    · rcases hw.byteOut hb with rfl | ⟨a, rfl⟩
      · exact byteOut_finishPacking s
      · rw [commandRule]
        rcases packSymbol_cases (symbolOperand s.cfg a) s with ⟨f, e⟩ | ⟨code, e⟩ <;> rw [e]
        · exact List.prefix_rfl
        · exact byteOut_pushBits code s
  · by_cases hb : (commandRule i s).state.symOut = s.symOut
    · rw [hb]
    · rcases hw.symOut hb with rfl | ⟨a, rfl⟩
      · obtain ⟨syms, acc, holdv, phase, e, -⟩ := finishDecoding_state s
        rw [commandRule, e]
        exact List.prefix_append _ _
      · obtain ⟨syms, acc, hold, holdv, e⟩ := decodeByte_state (byteOperand a) s
        rw [commandRule, e]
        exact List.prefix_append _ _

/-- Settles O57: a rule only appends, `CLEAR` leaves the streams, and the rest is the table of the elements' writers. -/
theorem streamsAreAppendOnly : Obligations.StreamsAreAppendOnly := by
  intro i s t h
  obtain ⟨hbyte, hsym⟩ := exec_induction (P := fun u => s.byteOut <+: u.byteOut ∧ s.symOut <+: u.symOut) h
    ⟨List.prefix_rfl, List.prefix_rfl⟩ (fun _ => ⟨List.prefix_rfl, List.prefix_rfl⟩) (fun _ _ hu => hu)
    fun hi _ => commandRule_streams hi s
  refine ⟨hbyte, hsym, ?_⟩
  by_cases hi : i = .clear
  · subst hi
    obtain rfl := Host.Outcome.next.inj h
    simp
  · have hw := exec_writes hi h
    exact ⟨fun hne => (hw.byteOut hne).symm, fun hne => (hw.symOut hne).symm⟩

/-! ### The phase -/

/-- A rule that completes leaves the phase `after`, and one that faults the phase `before` (10_state.md R24). -/
def Progress.LeavesPhase (before after : Phase) : Progress → Prop
  | .done t => t.phase = after
  | .raised _ t => t.phase = before

theorem commandRule_leavesPhase {i : Instr} {s : State} (ha : admitted i s = true) :
    (commandRule i s).LeavesPhase s.phase (phaseAfter i s.phase) := by
  have hp := phase_mem_of_admitted ha
  cases i with
  | nop => rfl
  | clear => rfl
  | cntSym a =>
    rw [commandRule]
    rcases countSymbol_cases (symbolOperand s.cfg a) s with ⟨f, e⟩ | ⟨-, ⟨-, -, e⟩ | ⟨i, -, e⟩⟩ <;> rw [e] <;> rfl
  | build => exact congrArg State.phase (buildCodebook_frame s)
  | packBegin => rfl
  | packSym a =>
    rw [commandRule]
    rcases packSymbol_cases (symbolOperand s.cfg a) s with ⟨f, e⟩ | ⟨code, e⟩ <;> rw [e]
    · rfl
    · rw [pushBits_frame]
      exact List.mem_singleton.1 hp
  | packEnd => exact congrArg State.phase (finishPacking_frame s)
  | decBegin a => rfl
  | decByte a =>
    cases e : commandRule (.decByte a) s with
    | done t =>
      obtain ⟨syms, acc, rfl⟩ := decodeByte_done e
      exact List.mem_singleton.1 hp
    | raised f t =>
      obtain ⟨-, -, syms, acc, rfl⟩ := decodeByte_raised e
      rfl
  | decEnd =>
    cases e : commandRule .decEnd s with
    | done t =>
      obtain ⟨syms, rfl⟩ := finishDecoding_done e
      rfl
    | raised f t => obtain ⟨-, syms, acc, rfl | ⟨-, rfl⟩⟩ := finishDecoding_raised e <;> rfl
  | cblOpen a =>
    rw [commandRule]
    rcases openEntry_cases (symbolOperand s.cfg a) s with ⟨f, e⟩ | ⟨-, -, e⟩ <;> rw [e] <;> rfl
  | cblBit a =>
    rw [commandRule]
    rcases appendCodeBit_cases (bitOperand a) s with ⟨f, e⟩ | ⟨-, e⟩ <;> rw [e]
    · rfl
    · exact List.mem_singleton.1 hp
  | cblClose =>
    rw [commandRule]
    rcases closeEntry_cases s with ⟨f, e⟩ | ⟨-, -, e⟩ <;> rw [e]
    · rfl
    · exact List.mem_singleton.1 hp
  | cblEnd => rfl

/-- A command without an entry for the phase, or with the wrong `OPENV`, raises `BAD_PHASE` (10_state.md R24;
30_encoding.md R96). -/
theorem exec_of_not_admitted {i : Instr} {s : State} (hf : s.fault = none) (ha : ¬ admitted i s = true) :
    exec i s = .next (s.raise .badPhase (encode i)) := by
  have hi : i ≠ .clear := by
    rintro rfl
    exact ha (admitted_clear s)
  rw [exec_eq_processCommand hi, processCommand_of_not_admitted hf (Bool.eq_false_of_not_eq_true ha)]

/-- Settles O10: the table is `nextPhase`, a refusal is a failed admission, and the phase left is that of the command's
own rule. -/
theorem phaseFollowsTheTransitionTable : Obligations.PhaseFollowsTheTransitionTable := by
  refine ⟨fun a => by simp [nextPhase], fun i s hf hrefused => ?_, fun i s t hf h => ?_⟩
  · refine exec_of_not_admitted hf fun ha => ?_
    obtain ⟨hp, ho⟩ := admitted_iff.1 ha
    rcases hrefused with hnone | ⟨⟨a, rfl⟩ | rfl, hopen⟩ | ⟨⟨a, rfl⟩ | rfl, hopen⟩
    · simp [nextPhase_eq, hp] at hnone
    all_goals simp [ho _ rfl] at hopen
  · rcases exec_cases h with ⟨rfl, rfl⟩ | ⟨hi, ⟨hne, -⟩ | ⟨-, -, rfl⟩ | ⟨-, -, -, rfl⟩ | ⟨-, ha, -, hd⟩⟩
    · have hclear : nextPhase .clear s.phase = some .idle := by
        rw [nextPhase_eq, if_pos (phase_mem_of_admitted (admitted_clear s)), phaseAfter]
      exact ⟨fun _ => hclear, fun hne => absurd rfl hne⟩
    · exact absurd hf hne
    · simp
    · simp
    · have hphase := commandRule_leavesPhase ha
      have hreg := (commandRule_writes hi s).2
      rcases hd with hd | ⟨f, u, hd, rfl⟩ <;> rw [hd] at hphase hreg
      · have hfault : t.fault = none := hreg.1.trans hf
        have ht : t.phase = phaseAfter i s.phase := hphase
        simp [nextPhase_eq, phase_mem_of_admitted ha, hfault, ht]
      · have hu : u.phase = s.phase := hphase
        simp [hu]

end Sys2Proof.Machine
end

section
/-! PROOF. The phase invariants (10_state.md R47) hold after reset and every step keeps them. -/

namespace Sys2Proof.Machine

/-! ### `PACC` holds `PCNT` bits -/

/-- `PushBit` keeps `PACC < 2^PCNT` (43_bit_packer.md R154). -/
theorem pushBit_pending {s : State} (b : Bool) (h : s.pacc.toNat < 2 ^ s.pcnt.toNat) :
    (s.pushBit b).pacc.toNat < 2 ^ (s.pushBit b).pcnt.toNat := by
  rw [State.pushBit]
  split
  · exact Nat.one_pos
  · next hn =>
    have hcnt : (s.pcnt + 1#3).toNat = s.pcnt.toNat + 1 := by
      rw [BitVec.toNat_add, BitVec.toNat_ofNat]
      omega
    have hbit : ((BitVec.ofBool b).zeroExtend 8).toNat < 2 ^ (s.pcnt.toNat + 1) :=
      calc ((BitVec.ofBool b).zeroExtend 8).toNat < 2 := by cases b <;> decide
        _ ≤ 2 ^ (s.pcnt.toNat + 1) := by rw [Nat.pow_succ]; have := Nat.two_pow_pos s.pcnt.toNat; omega
    have hshift : (s.pacc <<< 1).toNat < 2 ^ (s.pcnt.toNat + 1) := by
      refine Nat.lt_of_le_of_lt (BitVec.toNat_shiftLeft ▸ Nat.mod_le _ _) ?_
      rw [Nat.shiftLeft_eq, Nat.pow_succ]
      omega
    rw [hcnt, BitVec.toNat_or]
    exact Nat.or_lt_two_pow hshift hbit

/-- Pushing a code keeps `PACC < 2^PCNT` (43_bit_packer.md R152). -/
theorem pushBits_pending (code : BitString) {s : State} (h : s.pacc.toNat < 2 ^ s.pcnt.toNat) :
    (s.pushBits code).pacc.toNat < 2 ^ (s.pushBits code).pcnt.toNat := by
  induction code generalizing s with
  | nil => exact h
  | cons b code ih => exact ih (pushBit_pending b h)

/-- `PACK_END` leaves no pending bit: with `PCNT` 0 it leaves `PACC` as it is, and `PACC < 2^0` (43_bit_packer.md
R156). -/
theorem finishPacking_empty {s : State} (h : s.pacc.toNat < 2 ^ s.pcnt.toNat) :
    (finishPacking s).pcnt = 0#3 ∧ (finishPacking s).pacc = 0#8 := by
  rw [finishPacking]
  split
  · exact ⟨rfl, rfl⟩
  · next hn =>
    have hcnt : s.pcnt.toNat = 0 := by omega
    rw [hcnt] at h
    exact ⟨BitVec.eq_of_toNat_eq hcnt, BitVec.eq_of_toNat_eq (Nat.lt_one_iff.1 h)⟩

/-! ### The commands -/

theorem phaseOk_resetOf (c : Config) : PhaseOk (State.resetOf c) where
  packer _ := ⟨rfl, rfl⟩
  unpacker _ := ⟨rfl, rfl⟩
  load _ := rfl
  frequency _ := ⟨rfl, rfl⟩
  codebook _ := rfl
  pending := Nat.one_pos

/-- In COUNT and READY every latch of a run is empty, and in COUNT the codebook too (10_state.md R47). -/
theorem PhaseOk.of_latches_empty {t : State} (hp : t.phase = .count ∨ t.phase = .ready)
    (hpack : t.pcnt = 0#3 ∧ t.pacc = 0#8) (hunpack : t.holdv = false ∧ t.acc = []) (hopen : t.openv = false)
    (hbook : t.phase = .count → t.cbn = 0#17) : PhaseOk t where
  packer _ := hpack
  unpacker _ := hunpack
  load _ := hopen
  frequency e := by rcases hp with hp | hp <;> simp [hp] at e
  codebook e := hbook (by rcases hp with hp | hp <;> simp [hp] at e ⊢)
  pending := by rw [hpack.1, hpack.2]; exact Nat.one_pos

/-- Every command's own rule keeps the phase invariants (10_state.md R47). -/
theorem phaseOk_commandRule {i : Instr} {s : State} (h : PhaseOk s) (hi : i ≠ .clear) (ha : admitted i s = true) :
    PhaseOk (commandRule i s).state := by
  obtain ⟨hp, ho⟩ := admitted_iff.1 ha
  cases i with
  | nop => exact h
  | clear => exact absurd rfl hi
  | cntSym a =>
    have hpack := h.packer (phase_ne_of_admitted ha)
    have hunpack := h.unpacker (phase_ne_of_admitted ha)
    have hopen := h.load (phase_ne_of_admitted ha)
    have hbook := h.codebook (by simpa [admittingPhases] using hp)
    rw [commandRule]
    rcases countSymbol_cases (symbolOperand s.cfg a) s with ⟨f, e⟩ | ⟨-, ⟨-, -, e⟩ | ⟨i, -, e⟩⟩ <;> rw [e]
    · exact h
    · exact .of_latches_empty (.inl rfl) hpack hunpack hopen fun _ => hbook
    · exact .of_latches_empty (.inl rfl) hpack hunpack hopen fun _ => hbook
  | build =>
    rw [commandRule, buildCodebook_frame]
    exact .of_latches_empty (.inr rfl) (h.packer (phase_ne_of_admitted ha)) (h.unpacker (phase_ne_of_admitted ha))
      (h.load (phase_ne_of_admitted ha)) (by simp)
  | packBegin =>
    exact ⟨fun e => absurd rfl e, fun _ => h.unpacker (phase_ne_of_admitted ha),
      fun _ => h.load (phase_ne_of_admitted ha), by simp [commandRule], by simp [commandRule], Nat.one_pos⟩
  | packSym a =>
    rw [commandRule]
    rcases packSymbol_cases (symbolOperand s.cfg a) s with ⟨f, e⟩ | ⟨code, e⟩ <;> rw [e]
    · exact h
    · have hpend := pushBits_pending code h.pending
      have hp : s.phase = .pack := by simpa [admittingPhases] using hp
      rw [Progress.state_done, pushBits_frame]
      exact ⟨fun e => absurd hp e, h.unpacker, h.load, h.frequency, h.codebook, hpend⟩
  | packEnd =>
    have hempty := finishPacking_empty h.pending
    rw [commandRule, finishPacking_frame]
    exact .of_latches_empty (.inr rfl) hempty (h.unpacker (phase_ne_of_admitted ha))
      (h.load (phase_ne_of_admitted ha)) (by simp)
  | decBegin a =>
    exact ⟨fun _ => h.packer (phase_ne_of_admitted ha), fun e => absurd rfl e,
      fun _ => h.load (phase_ne_of_admitted ha), by simp [commandRule], by simp [commandRule], h.pending⟩
  | decByte a =>
    have hp : s.phase = .decode := by simpa [admittingPhases] using hp
    obtain ⟨syms, acc, hold, holdv, e⟩ := decodeByte_state (byteOperand a) s
    rw [commandRule, e]
    exact ⟨h.packer, fun e => absurd hp e, h.load, h.frequency, h.codebook, h.pending⟩
  | decEnd =>
    obtain ⟨syms, acc, holdv, phase, e, rfl | ⟨rfl, rfl, rfl⟩⟩ := finishDecoding_state s <;> rw [commandRule, e]
    · have hp : s.phase = .decode := by simpa [admittingPhases] using hp
      exact ⟨h.packer, fun e => absurd hp e, h.load, h.frequency, h.codebook, h.pending⟩
    · exact .of_latches_empty (.inr rfl) (h.packer (phase_ne_of_admitted ha)) ⟨rfl, rfl⟩
        (h.load (phase_ne_of_admitted ha)) (by simp)
  | cblOpen a =>
    rw [commandRule]
    rcases openEntry_cases (symbolOperand s.cfg a) s with ⟨f, e⟩ | ⟨-, -, e⟩ <;> rw [e]
    · exact h
    · exact ⟨fun _ => h.packer (phase_ne_of_admitted ha), fun _ => h.unpacker (phase_ne_of_admitted ha),
        fun e => absurd rfl e, fun _ => h.frequency (by simpa [admittingPhases] using hp), by simp, h.pending⟩
  | cblBit a =>
    rw [commandRule]
    rcases appendCodeBit_cases (bitOperand a) s with ⟨f, e⟩ | ⟨-, e⟩ <;> rw [e]
    · exact h
    · exact { h with }
  | cblClose =>
    have hp : s.phase = .load := by simpa [admittingPhases] using hp
    rw [commandRule]
    rcases closeEntry_cases s with ⟨f, e⟩ | ⟨-, -, e⟩ <;> rw [e]
    · exact h
    · exact { h with load := fun _ => rfl, codebook := by simp [State.commitEntry, hp] }
  | cblEnd =>
    exact .of_latches_empty (.inr rfl) (h.packer (phase_ne_of_admitted ha)) (h.unpacker (phase_ne_of_admitted ha))
      (ho false rfl) (by simp [commandRule])

/-- Settles O60: the phase invariants look at no field of the host's side, and reset, `CLEAR`, the fault entry and
every command's own rule keep them. -/
theorem stepKeepsThePhaseInvariants : Obligations.StepKeepsThePhaseInvariants := by
  refine ⟨phaseOk_resetOf, fun s t hs h => step_induction (P := PhaseOk) ?_ ?_ ?_ ?_ ?_ hs h⟩
  · exact fun _ _ _ _ hs => { hs with }
  · exact fun s _ => { phaseOk_resetOf s.cfg with }
  · exact fun s _ => { phaseOk_resetOf s.cfg with }
  · exact fun _ _ _ hs => { hs with }
  · exact fun _ _ hs hi ha => phaseOk_commandRule hs hi ha

end Sys2Proof.Machine
end

section
/-! PROOF. The codebook `BUILD` leaves (42_tree_builder.md R130 to R138; 10_state.md R40): the counted symbols, codes
none of which begins another one, and their lengths. -/

namespace Sys2Proof.Machine

/-! ### Codes none of which begins another one -/

theorem PrefixFree.map_cons {codes : List BitString} (h : PrefixFree codes) (b : Bool) :
    PrefixFree (codes.map (b :: ·)) :=
  List.pairwise_map.2 (h.imp fun hcd => by simpa [List.cons_prefix_cons] using hcd)

/-- Codes that begin with different bits do not begin one another. -/
theorem PrefixFree.append_cons {codes codes' : List BitString} (h : PrefixFree codes) (h' : PrefixFree codes') :
    PrefixFree (codes.map (false :: ·) ++ codes'.map (true :: ·)) := by
  refine List.pairwise_append.2 ⟨h.map_cons false, h'.map_cons true, ?_⟩
  simp [List.cons_prefix_cons]

theorem PrefixFree.nodup {codes : List BitString} (h : PrefixFree codes) : codes.Nodup :=
  h.imp (by rintro c _ ⟨hcd, -⟩ rfl; exact hcd List.prefix_rfl)

/-- The empty code begins every code, so it is no code of two or more. -/
theorem PrefixFree.ne_nil {codes : List BitString} (h : PrefixFree codes) (hl : 2 ≤ codes.length) :
    ∀ c ∈ codes, c ≠ [] := by
  match codes, hl with
  | x :: y :: rest, _ =>
    have hx := (List.pairwise_cons.1 h).1
    rintro c hc rfl
    rcases List.mem_cons.1 hc with rfl | hc
    · exact (hx y List.mem_cons_self).1 List.nil_prefix
    · exact (hx [] hc).2 List.nil_prefix

/-! ### The codes of a group -/

/-- No member's code begins another one's, and every code is shorter than the member list (42_tree_builder.md R137,
R138). -/
structure Group.CodesOk (g : Group) : Prop where
  prefixFree : PrefixFree (g.members.map CodeEntry.code)
  short : ∀ e ∈ g.members, e.code.length < g.members.length

theorem map_code_prependBit (b : Bool) (es : List CodeEntry) :
    (es.map (prependBit b)).map CodeEntry.code = (es.map CodeEntry.code).map (b :: ·) := by
  simp [Function.comp_def, prependBit]

/-- A merge puts one more bit in front of the codes and joins two member lists (42_tree_builder.md R132). -/
theorem mergeGroups_codesOk (c : Config) {a b : Group} (ha : a.CodesOk) (hb : b.CodesOk) :
    (mergeGroups c a b).CodesOk where
  prefixFree := by
    rw [mergeGroups_members, List.map_append, map_code_prependBit, map_code_prependBit]
    exact ha.prefixFree.append_cons hb.prefixFree
  short e he := by
    have ha1 : 1 ≤ a.members.length := by simp [Group.members]
    have hb1 : 1 ≤ b.members.length := by simp [Group.members]
    rw [mergeGroups_members] at he ⊢
    simp only [List.mem_append, List.mem_map] at he
    simp only [List.length_append, List.length_map]
    rcases he with ⟨d, hd, rfl⟩ | ⟨d, hd, rfl⟩
    · have := ha.short d hd
      simp only [prependBit, List.length_cons]
      omega
    · have := hb.short d hd
      simp only [prependBit, List.length_cons]
      omega

theorem mergeLowestTwo_codesOk (c : Config) {gl : List Group} (hl : 2 ≤ gl.length) (h : ∀ g ∈ gl, g.CodesOk) :
    ∀ g ∈ mergeLowestTwo c gl, g.CodesOk := by
  obtain ⟨a, b, others, hp, -, -, e⟩ := mergeLowestTwo_cases c hl
  obtain ⟨ha, hb, ho⟩ : a.CodesOk ∧ b.CodesOk ∧ ∀ g ∈ others, g.CodesOk := by simpa [hp.mem_iff] using h
  rw [e]
  exact List.forall_mem_cons.2 ⟨mergeGroups_codesOk c ha hb, ho⟩

theorem initialGroups_codesOk (slots : List FtSlot) : ∀ g ∈ initialGroups slots, g.CodesOk := by
  intro g hg
  obtain ⟨x, -, rfl⟩ := List.mem_map.1 hg
  exact ⟨List.pairwise_singleton _ _, by simp [Group.members]⟩

/-- The loop of `BUILD` leaves one group: it has the counted symbols and codes as R137 and R138 say. -/
theorem mergeLoop_initialGroups (c : Config) {slots : List FtSlot} (hl : slots ≠ []) :
    ∃ g, mergeLoop c slots.length (initialGroups slots) = [g] ∧ g.CodesOk ∧
      (g.members.map CodeEntry.sym).Perm (slots.map FtSlot.sym) := by
  have hone : (mergeLoop c slots.length (initialGroups slots)).length = 1 :=
    length_mergeLoop c _ _ (by simpa [initialGroups] using hl) (by simp)
  obtain ⟨g, hg⟩ := List.length_eq_one_iff.1 hone
  have hcodes := mergeLoop_induction c (P := fun gl => ∀ g ∈ gl, g.CodesOk)
    (fun _ hl h => mergeLowestTwo_codesOk c hl h) slots.length _ (initialGroups_codesOk slots)
  have hsyms := mergeLoop_initial_syms c slots.length slots
  rw [hg] at hcodes hsyms
  exact ⟨g, hg, hcodes g List.mem_cons_self, by simpa using hsyms⟩

/-! ### The codebook -/

/-- A codebook of the counted symbols, with codes as `BUILD` assigns them (10_state.md R40 (d); 42_tree_builder.md
R134, R137, R138). -/
structure BookFor (slots : List FtSlot) (book : List CodeEntry) : Prop where
  syms : (book.map CodeEntry.sym).Perm (slots.map FtSlot.sym)
  prefixFree : PrefixFree (book.map CodeEntry.code)
  lengths : ∀ e ∈ book, e.code ≠ [] ∧ e.code.length ≤ max 1 (slots.length - 1)

theorem Group.CodesOk.bookFor {g : Group} {slots : List FtSlot} (h : g.CodesOk) (hl : 2 ≤ slots.length)
    (hsyms : (g.members.map CodeEntry.sym).Perm (slots.map FtSlot.sym)) : BookFor slots g.members where
  syms := hsyms
  prefixFree := h.prefixFree
  lengths e he := by
    have hlen : g.members.length = slots.length := by simpa using hsyms.length_eq
    have hshort := h.short e he
    exact ⟨h.prefixFree.ne_nil (by simpa [hlen] using hl) _ (List.mem_map_of_mem he), by omega⟩

theorem length_ftValid {s : State} (h : TablesStored s) : s.ftValid.length = s.ftn.toNat := by
  simp [State.ftValid, h.ft]

/-- What `BUILD` leaves in `CB` and `CBN` when every valid slot of `FT` is stored (42_tree_builder.md R130). -/
theorem buildCodebook_bookFor {s : State} (h : TablesStored s) :
    (buildCodebook s).cbn = s.ftn ∧ BookFor s.ftValid (buildCodebook s).cbValid := by
  have hlen := length_ftValid h
  rw [buildCodebook]
  split
  · next e =>
    rw [e] at hlen ⊢
    exact ⟨BitVec.eq_of_toNat_eq hlen, .refl _, .nil, by simp [State.cbValid]⟩
  · next x e =>
    rw [e] at hlen ⊢
    refine ⟨BitVec.eq_of_toNat_eq hlen, ?_⟩
    have hvalid : (writeSlot s.cb 0 ⟨x.sym, [false]⟩).take 1 = [⟨x.sym, [false]⟩] := take_writeSlot s.cb 0 _
    simp only [State.cbValid, BitVec.toNat_ofNat]
    rw [show 1 % 2 ^ 17 = 1 from rfl, hvalid]
    exact ⟨.refl _, List.pairwise_singleton _ _, by simp⟩
  · next x y slots e =>
    obtain ⟨g, hg, hcodes, hsyms⟩ := mergeLoop_initialGroups s.cfg (slots := x :: y :: slots) (by simp)
    have hmem : g.members.length = s.ftn.toNat := by rw [← hlen, e]; simpa using hsyms.length_eq
    refine ⟨rfl, ?_⟩
    simp only [State.cbValid, State.commitCodebook, length_initialGroups, hg, List.flatMap_singleton]
    rw [List.take_append_of_le_length (by omega), List.take_of_length_le (by omega), e]
    exact hcodes.bookFor (by simp) hsyms

/-- `BUILD` leaves `GL` empty (10_state.md R41). -/
theorem buildCodebook_gl {s : State} (h : s.gl = []) : (buildCodebook s).gl = [] := by
  rw [buildCodebook]
  split
  · exact h
  · exact h
  · rfl

theorem exec_build {s t : State} (hf : s.fault = none) (hp : s.phase = .idle ∨ s.phase = .count)
    (h : exec .build s = .next t) : t = buildCodebook s := by
  have ha : admitted .build s = true := admitted_iff.2 ⟨by simpa [admittingPhases] using hp, by simp [neededOpenv]⟩
  rw [exec_of_legal hf ha rfl] at h
  exact (Host.Outcome.next.inj h).symm

/-- Settles O28: in each of the three cases of `BUILD` the members of the book are the counted symbols. -/
theorem builtCodebookCoversTheCountedSymbols : Obligations.BuiltCodebookCoversTheCountedSymbols := by
  intro s t hs hf hp h
  rw [exec_build hf hp h]
  obtain ⟨hn, hbook⟩ := buildCodebook_bookFor hs.stored
  exact ⟨hn, hbook.syms⟩

end Sys2Proof.Machine
end

section
/-! PROOF. The invariant of the machine (10_state.md R37, R40, R41, R47) holds after reset, and every step keeps it and
the configuration. -/

namespace Sys2Proof.Machine

/-! ### Reset and `CLEAR` -/

theorem inv_resetOf (c : Config) : (State.resetOf c).Inv where
  stored := tablesStored_resetOf c
  frequencyTable := ⟨.nil, by simp [State.resetOf, State.ftValid], rfl, Nat.zero_le _, by simp [State.resetOf]⟩
  codebook := ⟨.nil, .nil, by simp [State.resetOf, State.cbValid], Nat.zero_le _, by simp [State.resetOf]⟩
  built := ⟨fun _ _ => rfl, fun _ _ => .refl _, fun _ _ => .nil⟩
  phase := phaseOk_resetOf c
  widths := ⟨Nat.two_pow_pos _, by simp [State.resetOf, State.ftValid], by simp [State.resetOf, State.cbValid],
    Nat.two_pow_pos _, by simp [State.resetOf], Nat.zero_le _, Nat.zero_le _⟩
  latches := ⟨rfl, fun _ => rfl, by simp [State.resetOf, State.cbValid]⟩

/-- Settles O58: both are reset states of a configuration. -/
theorem resetMeetsTheInvariant : Obligations.ResetMeetsTheInvariant :=
  ⟨inv_resetOf _, inv_resetOf⟩

theorem inv_clear {s : State} (h : s.Inv) : s.clear.Inv where
  stored := tablesStored_clear h.stored
  frequencyTable := { (inv_resetOf s.cfg).frequencyTable with }
  codebook := { (inv_resetOf s.cfg).codebook with }
  built := { (inv_resetOf s.cfg).built with }
  phase := { phaseOk_resetOf s.cfg with }
  widths := { (inv_resetOf s.cfg).widths with symOut := h.widths.symOut }
  latches := { (inv_resetOf s.cfg).latches with }

/-- The invariant looks at no field of the host's side (log 2, log 4, log 5). -/
theorem inv_host {s : State} (h : s.Inv) (host : List HostAction) (rdOut : List Word) (draws : Nat) :
    State.Inv { s with host := host, rdOut := rdOut, draws := draws } where
  stored := { h.stored with }
  frequencyTable := { h.frequencyTable with }
  codebook := { h.codebook with }
  built := { h.built with }
  phase := { h.phase with }
  widths := { h.widths with }
  latches := { h.latches with }

/-- The fault entry keeps the invariant: `FCMD` may be anything while there is a fault (10_state.md R29). -/
theorem inv_raise {s : State} (h : s.Inv) (f : FaultCode) (cmd : CommandWord) : (s.raise f cmd).Inv where
  stored := { h.stored with }
  frequencyTable := { h.frequencyTable with }
  codebook := { h.codebook with }
  built := { h.built with }
  phase := { h.phase with }
  widths := { h.widths with }
  latches := { h.latches with fcmd := fun e => nomatch e }

/-! ### Parts of the invariant that hold for a plain reason -/

theorem builtCodebookOk_of_not_complete {s : State} (h : s.phase.codebookComplete = false) : BuiltCodebookOk s := by
  constructor <;> simp [h]

theorem builtCodebookOk_of_ftn_zero {s : State} (h : s.ftn = 0#17) : BuiltCodebookOk s := by
  constructor <;> simp [h]

/-- No stored code begins an empty accumulator (10_state.md R40 (c)). -/
theorem unmatched_of_acc_nil {book : List CodeEntry} {acc : BitString} (h : ∀ e ∈ book, e.code ≠ []) (ha : acc = []) :
    ∀ e ∈ book, ¬ e.code <+: acc := by
  intro e he hpre
  rw [ha] at hpre
  exact h e he (List.prefix_nil.1 hpre)

/-! ### The Frequency Counter -/

/-- A count of a total below `CNTMAX` is exact (41_frequency_counter.md R120 check 1). -/
theorem addCount_one_toNat (c : Config) {total n : Count} (ht : total.toNat < 2 ^ c.cntw) (hm : total ≠ c.cntMax)
    (hn : n.toNat ≤ total.toNat) : (c.addCount n 1#32).toNat = n.toNat + 1 := by
  have hne : total.toNat ≠ 2 ^ c.cntw - 1 := fun e => hm (BitVec.eq_of_toNat_eq (e.trans c.cntMax_toNat.symm))
  exact c.addCount_toNat n 1#32 (show n.toNat + 1 < _ by omega)

/-- A new symbol takes the slot after the valid ones. -/
theorem ftValid_countFirst {s : State} (sym : Symbol) (hn : s.ftn.toNat < s.cfg.nsym) :
    (s.countFirst sym).ftValid = s.ftValid ++ [⟨sym, 1#32⟩] := by
  simp only [State.ftValid, State.countFirst, s.cfg.succ_toNat _ hn, take_writeSlot]

/-- A known symbol's slot is found among the valid ones, and its count is the only thing that changes. -/
theorem ftValid_countAgain {s : State} {sym : Symbol} {i : Nat} (hi : s.ftFind sym = some i) :
    ∃ l₁ x l₂, s.ftValid = l₁ ++ x :: l₂ ∧
      (s.countAgain i).ftValid = l₁ ++ { x with count := s.cfg.addCount x.count 1#32 } :: l₂ := by
  obtain ⟨x, hx, -⟩ := ftFind_eq_some hi
  obtain ⟨l₁, y, l₂, e, -, em⟩ := List.exists_of_modify
    (fun x : FtSlot => { x with count := s.cfg.addCount x.count 1#32 }) (List.getElem?_eq_some_iff.1 hx).1
  refine ⟨l₁, y, l₂, e, ?_⟩
  rw [← em]
  exact List.take_modify _ _ _ _

theorem inv_countFirst {s : State} {sym : Symbol} (h : s.Inv) (hsym : sym.toNat < 2 ^ s.cfg.symw)
    (ht : s.total ≠ s.cfg.cntMax) (hf : s.ftFind sym = none) (hn : s.ftn.toNat ≠ s.cfg.nsym)
    (hstored : TablesStored (s.countFirst sym)) (hphase : PhaseOk (s.countFirst sym)) :
    (s.countFirst sym).Inv := by
  have hlt : s.ftn.toNat < s.cfg.nsym := by have := h.frequencyTable.size; omega
  have hvalid := ftValid_countFirst sym hlt
  have htotal : (s.countFirst sym).total.toNat = s.total.toNat + 1 :=
    addCount_one_toNat s.cfg h.widths.total ht (Nat.le_refl _)
  have hftn : (s.countFirst sym).ftn.toNat = s.ftn.toNat + 1 := s.cfg.succ_toNat _ hlt
  exact {
    stored := hstored
    frequencyTable := {
      distinct := by
        rw [hvalid, List.map_append, List.nodup_append]
        refine ⟨h.frequencyTable.distinct, List.pairwise_singleton _ _, ?_⟩
        simpa using ftFind_eq_none_iff.1 hf
      counts := by
        rw [hvalid, htotal]
        refine List.forall_mem_append.2 ⟨fun x hx => ?_, by simp⟩
        have := h.frequencyTable.counts x hx
        omega
      sum := by simp [hvalid, htotal, h.frequencyTable.sum]
      size := by have := h.frequencyTable.size; rw [hftn, htotal]; simp only [State.countFirst]; omega
      empty := by
        rw [← BitVec.toNat_inj, ← BitVec.toNat_inj, hftn, htotal]
        simp }
    codebook := { h.codebook with }
    built := builtCodebookOk_of_not_complete rfl
    phase := hphase
    widths := { h.widths with
      total := s.cfg.addCount_lt _ _
      ftSyms := by
        rw [hvalid]
        exact List.forall_mem_append.2 ⟨h.widths.ftSyms, List.forall_mem_singleton.2 hsym⟩ }
    latches := { h.latches with } }

theorem inv_countAgain {s : State} {sym : Symbol} {i : Nat} (h : s.Inv) (ht : s.total ≠ s.cfg.cntMax)
    (hf : s.ftFind sym = some i) (hstored : TablesStored (s.countAgain i)) (hphase : PhaseOk (s.countAgain i)) :
    (s.countAgain i).Inv := by
  obtain ⟨l₁, x, l₂, hold, hvalid⟩ := ftValid_countAgain hf
  have htotal : (s.countAgain i).total.toNat = s.total.toNat + 1 :=
    addCount_one_toNat s.cfg h.widths.total ht (Nat.le_refl _)
  obtain ⟨hdistinct, hcounts, hsum, hsize, hempty⟩ := h.frequencyTable
  have hwidth := h.widths.ftSyms
  rw [hold] at hdistinct hcounts hsum hwidth
  have hx := hcounts x (by simp)
  have hcount := addCount_one_toNat s.cfg h.widths.total ht hx.2
  have hftn : s.ftn ≠ 0#17 := fun e => by
    have := hempty.1 e
    simp [this] at hx
    omega
  exact {
    stored := hstored
    frequencyTable := {
      distinct := by rw [hvalid]; simpa using hdistinct
      counts := by
        rw [hvalid, htotal]
        intro y hy
        rcases List.mem_append.1 hy with hy | hy
        · have := hcounts y (by simp [hy]); omega
        · rcases List.mem_cons.1 hy with rfl | hy
          · simp only [hcount]; omega
          · have := hcounts y (by simp [hy]); omega
      sum := by
        rw [hvalid, htotal, ← hsum]
        simp only [List.map_append, List.map_cons, List.sum_append, List.sum_cons, hcount]
        omega
      size := by rw [htotal]; simp only [State.countAgain]; omega
      empty := by
        rw [← BitVec.toNat_inj (x := (s.countAgain i).total), htotal]
        simpa [State.countAgain] using hftn }
    codebook := { h.codebook with }
    built := builtCodebookOk_of_not_complete rfl
    phase := hphase
    widths := { h.widths with
      total := s.cfg.addCount_lt _ _
      ftSyms := by rw [hvalid]; simpa [State.countAgain, or_imp, forall_and] using hwidth }
    latches := { h.latches with } }

/-! ### `BUILD` -/

theorem inv_buildCodebook {s : State} (h : s.Inv) (hacc : s.acc = []) (hopen : s.openv = false)
    (hphase : PhaseOk (buildCodebook s)) : (buildCodebook s).Inv := by
  obtain ⟨hn, hbook⟩ := buildCodebook_bookFor h.stored
  have hstored := tablesStored_buildCodebook h.stored
  have hgl := buildCodebook_gl h.latches.groups
  have hlen := length_ftValid h.stored
  have hsize := h.frequencyTable.size
  obtain ⟨cb, cbn, gl, e⟩ : ∃ cb cbn gl, buildCodebook s = { s with cb := cb, cbn := cbn, gl := gl, phase := .ready } :=
    ⟨_, _, _, buildCodebook_frame s⟩
  rw [e] at hn hbook hstored hgl hphase ⊢
  exact {
    stored := hstored
    frequencyTable := { h.frequencyTable with }
    codebook := {
      distinctSyms := hbook.syms.nodup_iff.2 h.frequencyTable.distinct
      distinctCodes := hbook.prefixFree.nodup
      lengths := fun d hd => by
        obtain ⟨hne, hl⟩ := hbook.lengths d hd
        exact ⟨hne, by simp only [Config.maxLen]; omega⟩
      size := by have := congrArg BitVec.toNat hn; dsimp only at this ⊢; omega
      openEntry := fun ho => by simp [hopen] at ho }
    built := ⟨fun _ _ => hn, fun _ _ => hbook.syms, fun _ _ => hbook.prefixFree⟩
    phase := hphase
    widths := { h.widths with
      cbSyms := fun d hd => by
        obtain ⟨x, hx, hs⟩ := List.mem_map.1 (hbook.syms.mem_iff.1 (List.mem_map_of_mem hd))
        exact hs ▸ h.widths.ftSyms x hx }
    latches := { h.latches with
      groups := hgl
      unmatched := unmatched_of_acc_nil (fun d hd => (hbook.lengths d hd).1) hacc } }

/-! ### Pack and decode runs -/

/-- What the invariant says of the elements the walk engine writes (44_unpacker_decoder.md R172). -/
structure WalkOk (s : State) : Prop where
  symOut : ∀ v ∈ s.symOut, v.toNat < 2 ^ s.cfg.symw
  acc : s.acc.length ≤ s.cfg.maxLen
  unmatched : ∀ e ∈ s.cbValid, ¬ e.code <+: s.acc

theorem State.Inv.walk {s : State} (h : s.Inv) : WalkOk s := ⟨h.widths.symOut, h.widths.acc, h.latches.unmatched⟩

theorem code_ne_nil {s : State} (h : s.Inv) : ∀ e ∈ s.cbValid, e.code ≠ [] :=
  fun e he => (h.codebook.lengths e he).1

/-- A change within READY, PACK and DECODE that leaves the tables, the load latches and the fault registers. -/
theorem inv_of_run {s t : State} (h : s.Inv) (hc : s.phase.codebookComplete = true)
    (e : t = { s with
      phase := t.phase, pad := t.pad, pacc := t.pacc, pcnt := t.pcnt, hold := t.hold, holdv := t.holdv,
      acc := t.acc, byteOut := t.byteOut, symOut := t.symOut })
    (hphase : PhaseOk t) (hwalk : WalkOk t) : t.Inv := by
  rw [e] at hphase hwalk ⊢
  exact {
    stored := { h.stored with }
    frequencyTable := { h.frequencyTable with }
    codebook := { h.codebook with }
    built := ⟨fun _ => h.built.size hc, fun _ => h.built.sameSyms hc, fun _ => h.built.prefixFree hc⟩
    phase := hphase
    widths := { h.widths with symOut := hwalk.symOut, acc := hwalk.acc }
    latches := { h.latches with unmatched := hwalk.unmatched } }

/-- A state of a decode run that meets the invariant. -/
structure InDecodeRun (s : State) : Prop where
  inv : s.Inv
  phase : s.phase = .decode

/-- A change of the unpacker's elements alone in DECODE. -/
theorem InDecodeRun.of_walk {s t : State} (h : InDecodeRun s)
    (e : t = { s with hold := t.hold, holdv := t.holdv, acc := t.acc, symOut := t.symOut }) (hwalk : WalkOk t) :
    InDecodeRun t where
  inv := by
    have hp := h.phase
    refine inv_of_run h.inv (by rw [hp]; rfl) (by rw [e]) ?_ hwalk
    rw [e]
    exact { h.inv.phase with unpacker := fun hne => absurd hp hne }
  phase := by rw [e]; exact h.phase

theorem inDecodeRun_feedBit {b : Bool} {s t : State} (h : InDecodeRun s) (ht : s.feedBit b = .done t) :
    InDecodeRun t := by
  obtain ⟨hsym, hacc, hun⟩ := h.inv.walk
  rcases feedBit_cases b s with ⟨-, e⟩ | ⟨hl, ⟨hnone, e⟩ | ⟨d, hd, e⟩⟩ <;> rw [e] at ht <;> cases ht
  · refine h.of_walk rfl ⟨hsym, by simp only [List.length_append, List.length_singleton]; omega, fun x hx hpre => ?_⟩
    rcases List.prefix_concat_iff.1 hpre with hxe | hpre
    · exact cbFindCode_eq_none_iff.1 hnone x hx hxe
    · exact hun x hx hpre
  · refine h.of_walk rfl ⟨?_, Nat.zero_le _, unmatched_of_acc_nil (book := s.cbValid) (code_ne_nil h.inv) rfl⟩
    exact List.forall_mem_append.2 ⟨hsym, List.forall_mem_singleton.2 (h.inv.widths.cbSyms d (cbFindCode_eq_some hd).1)⟩

theorem inDecodeRun_feedBits_done {bits : BitString} {s t : State} (h : InDecodeRun s)
    (ht : s.feedBits bits = .done t) : InDecodeRun t := by
  induction bits generalizing s with
  | nil => exact Progress.done.inj ht ▸ h
  | cons b bits ih =>
    obtain ⟨u, hu, ht⟩ := Progress.andThen_eq_done.1 ht
    exact ih (inDecodeRun_feedBit h hu) ht

/-- Feeding bits, up to the fault if one is raised: what the bits before it left (60_exceptions.md R213). -/
theorem inDecodeRun_feedBits {s : State} (bits : BitString) (h : InDecodeRun s) :
    InDecodeRun (s.feedBits bits).state := by
  cases ht : s.feedBits bits with
  | done t => exact inDecodeRun_feedBits_done h ht
  | raised f t =>
    obtain ⟨k, -, hk⟩ := feedBits_raised_at ht
    exact inDecodeRun_feedBits_done h hk

/-- A property that a part of a rule reaches, and that the rest of the rule keeps from there. -/
theorem Progress.state_andThen {P : State → Prop} {p : Progress} {k : State → Progress} (hp : P p.state)
    (hk : ∀ t, p = .done t → P t → P (k t).state) : P (p.andThen k).state := by
  cases p with
  | done t => exact hk t rfl hp
  | raised f t => exact hp

theorem inDecodeRun_decodeByte {s : State} (v : Byte) (h : InDecodeRun s) : InDecodeRun (decodeByte v s).state := by
  refine Progress.state_andThen ?_ fun t _ ht => ht.of_walk rfl { ht.inv.walk with }
  split
  · exact inDecodeRun_feedBits _ h
  · exact h

theorem inDecodeRun_feedLastByte {s : State} (h : InDecodeRun s) : InDecodeRun (feedLastByte s).state := by
  rw [feedLastByte]
  split
  · exact Progress.state_andThen (inDecodeRun_feedBits _ h) fun t _ ht => ht.of_walk rfl { ht.inv.walk with }
  · split <;> exact h

theorem inv_finishDecoding {s : State} (h : InDecodeRun s) : (finishDecoding s).state.Inv := by
  refine Progress.state_andThen (inDecodeRun_feedLastByte h).inv fun t hdone ht => ?_
  split
  · next hacc =>
    obtain ⟨hp, hv⟩ : t.phase = .decode ∧ t.holdv = false := by
      obtain ⟨syms, acc, rfl⟩ := feedLastByte_done hdone
      exact ⟨h.phase, rfl⟩
    exact inv_of_run ht (by rw [hp]; rfl) rfl
      (.of_latches_empty (.inr rfl) (ht.phase.packer (by simp [hp])) ⟨hv, hacc⟩
        (ht.phase.load (by simp [hp])) (by simp)) { ht.walk with }
  · exact ht

/-! ### Codebook load -/

theorem inv_openEntry {s : State} {sym : Symbol} (h : s.Inv) (hsym : sym.toNat < 2 ^ s.cfg.symw)
    (hphase : PhaseOk (openEntry sym s).state) : (openEntry sym s).state.Inv := by
  rcases openEntry_cases sym s with ⟨f, e⟩ | ⟨hn, hf, e⟩ <;> rw [e] at hphase ⊢
  · exact h
  · exact {
      stored := { h.stored with }
      frequencyTable := { h.frequencyTable with }
      codebook := { h.codebook with
        openEntry := fun _ => ⟨Nat.lt_of_le_of_ne h.codebook.size hn, cbFindSym_eq_none_iff.1 hf⟩ }
      built := builtCodebookOk_of_not_complete rfl
      phase := hphase
      widths := { h.widths with osym := hsym, ocode := Nat.zero_le _ }
      latches := { h.latches with } }

theorem inv_appendCodeBit {s : State} (b : Bool) (h : s.Inv) : (appendCodeBit b s).state.Inv := by
  rcases appendCodeBit_cases b s with ⟨f, e⟩ | ⟨hl, e⟩ <;> rw [e]
  · exact h
  · have hlen : (s.ocode ++ [b]).length ≤ s.cfg.maxLen := by
      have := h.widths.ocode
      rw [List.length_append, List.length_singleton]
      omega
    exact {
      stored := { h.stored with }
      frequencyTable := { h.frequencyTable with }
      codebook := { h.codebook with }
      built := { h.built with }
      phase := { h.phase with }
      widths := { h.widths with ocode := hlen }
      latches := { h.latches with } }

/-- The committed entry takes the slot after the valid ones. -/
theorem cbValid_commitEntry {s : State} (hn : s.cbn.toNat < s.cfg.nsym) :
    s.commitEntry.cbValid = s.cbValid ++ [⟨s.osym, s.ocode⟩] := by
  simp only [State.cbValid, State.commitEntry, s.cfg.succ_toNat _ hn, take_writeSlot]

theorem inv_closeEntry {s : State} (h : s.Inv) (hp : s.phase = .load) (hopen : s.openv = true)
    (hphase : PhaseOk (closeEntry s).state) : (closeEntry s).state.Inv := by
  obtain ⟨hlt, hnew⟩ := h.codebook.openEntry hopen
  have hvalid := cbValid_commitEntry hlt
  rcases closeEntry_cases s with ⟨f, e⟩ | ⟨hne, hf, e⟩
  · rw [e]; exact h
  · have hstored := tablesStored_closeEntry h.stored hlt e
    rw [e] at hphase ⊢
    have hlengths : ∀ d ∈ s.commitEntry.cbValid, d.code ≠ [] ∧ d.code.length ≤ s.cfg.maxLen := by
      rw [hvalid]
      exact List.forall_mem_append.2 ⟨h.codebook.lengths, List.forall_mem_singleton.2 ⟨hne, h.widths.ocode⟩⟩
    exact {
      stored := hstored
      frequencyTable := { h.frequencyTable with }
      codebook := {
        distinctSyms := by
          rw [Progress.state_done, hvalid, List.map_append, List.nodup_append]
          exact ⟨h.codebook.distinctSyms, List.pairwise_singleton _ _, by simpa using hnew⟩
        distinctCodes := by
          rw [Progress.state_done, hvalid, List.map_append, List.nodup_append]
          exact ⟨h.codebook.distinctCodes, List.pairwise_singleton _ _, by simpa using cbFindCode_eq_none_iff.1 hf⟩
        lengths := hlengths
        size := Nat.le_trans hstored.cb hstored.cbCapacity
        openEntry := fun ho => nomatch ho }
      built := builtCodebookOk_of_not_complete (show s.phase.codebookComplete = false by rw [hp]; rfl)
      phase := hphase
      widths := { h.widths with
        cbSyms := by
          rw [Progress.state_done, hvalid]
          exact List.forall_mem_append.2 ⟨h.widths.cbSyms, List.forall_mem_singleton.2 h.widths.osym⟩ }
      latches := { h.latches with
        unmatched := unmatched_of_acc_nil (fun d hd => (hlengths d hd).1)
          (h.phase.unpacker (by simp [hp])).2 } }

/-! ### Every command and every step -/

theorem inv_commandRule {i : Instr} {s : State} (h : s.Inv) (hi : i ≠ .clear) (ha : admitted i s = true) :
    (commandRule i s).state.Inv := by
  have hphase := phaseOk_commandRule h.phase hi ha
  obtain ⟨hp, ho⟩ := admitted_iff.1 ha
  cases i with
  | nop => exact h
  | clear => exact absurd rfl hi
  | cntSym a =>
    rw [commandRule] at hphase ⊢
    rcases countSymbol_cases (symbolOperand s.cfg a) s with ⟨f, e⟩ | ⟨ht, ⟨hf, hn, e⟩ | ⟨i, hf, e⟩⟩
    · rw [e]; exact h
    · have hstored := tablesStored_countSymbol h.stored e
      rw [e] at hphase ⊢
      exact inv_countFirst h (symbolOperand_lt _ _) ht hf hn hstored hphase
    · have hstored := tablesStored_countSymbol h.stored e
      rw [e] at hphase ⊢
      exact inv_countAgain h ht hf hstored hphase
  | build =>
    exact inv_buildCodebook h (h.phase.unpacker (phase_ne_of_admitted ha)).2 (h.phase.load (phase_ne_of_admitted ha))
      hphase
  | packBegin =>
    have hp : s.phase = .ready := by simpa [admittingPhases] using hp
    exact inv_of_run h (by rw [hp]; rfl) rfl hphase { h.walk with }
  | packSym a =>
    have hp : s.phase = .pack := by simpa [admittingPhases] using hp
    rw [commandRule] at hphase ⊢
    rcases packSymbol_cases (symbolOperand s.cfg a) s with ⟨f, e⟩ | ⟨code, e⟩ <;> rw [e] at hphase ⊢
    · exact h
    · rw [Progress.state_done, pushBits_frame] at hphase ⊢
      exact inv_of_run h (by rw [hp]; rfl) rfl hphase { h.walk with }
  | packEnd =>
    have hp : s.phase = .pack := by simpa [admittingPhases] using hp
    rw [commandRule, Progress.state_done, finishPacking_frame] at hphase ⊢
    exact inv_of_run h (by rw [hp]; rfl) rfl hphase { h.walk with }
  | decBegin a =>
    have hp : s.phase = .ready := by simpa [admittingPhases] using hp
    exact inv_of_run h (by rw [hp]; rfl) rfl hphase
      ⟨h.walk.symOut, Nat.zero_le _, unmatched_of_acc_nil (book := s.cbValid) (code_ne_nil h) rfl⟩
  | decByte a => exact (inDecodeRun_decodeByte _ ⟨h, by simpa [admittingPhases] using hp⟩).inv
  | decEnd => exact inv_finishDecoding ⟨h, by simpa [admittingPhases] using hp⟩
  | cblOpen a => exact inv_openEntry h (symbolOperand_lt _ _) hphase
  | cblBit a => exact inv_appendCodeBit _ h
  | cblClose => exact inv_closeEntry h (by simpa [admittingPhases] using hp) (ho true rfl) hphase
  | cblEnd =>
    have hftn := (h.phase.frequency (by simpa [admittingPhases] using hp)).1
    exact {
      stored := { h.stored with }
      frequencyTable := { h.frequencyTable with }
      codebook := { h.codebook with }
      built := builtCodebookOk_of_ftn_zero hftn
      phase := hphase
      widths := { h.widths with }
      latches := { h.latches with } }

/-- Settles O59: reset, `CLEAR`, the fault entry and every command's own rule keep the invariant and `cfg`. -/
theorem stepKeepsTheInvariant : Obligations.StepKeepsTheInvariant := by
  refine fun s t hs h => step_induction (P := fun u => u.Inv ∧ u.cfg = s.cfg) ?_ ?_ ?_ ?_ ?_ ⟨hs, rfl⟩ h
  · exact fun _ _ _ _ ⟨hu, hc⟩ => ⟨inv_host hu _ _ _, hc⟩
  · exact fun u ⟨_, hc⟩ => ⟨inv_host (inv_resetOf u.cfg) _ _ _, hc⟩
  · exact fun _ ⟨hu, hc⟩ => ⟨inv_clear hu, hc⟩
  · exact fun _ f cmd ⟨hu, hc⟩ => ⟨inv_raise hu f cmd, hc⟩
  · intro i u ⟨hu, hc⟩ hi ha
    obtain ⟨hcfg, -⟩ := (commandRule_writes hi u).1.hostSide
    exact ⟨inv_commandRule hu hi ha, hcfg.trans hc⟩

end Sys2Proof.Machine
end

section
/-! PROOF. What the read port returns: `STATUS`, the other registers and the valid slots of both windows (10_state.md
R26 to R39), and the values after reset (R46). -/

namespace Sys2Proof

/-! ### The parameters in registers (10_state.md R34) -/

/-- A concatenation as a number. -/
theorem toNat_append_eq {n m : Nat} (x : BitVec n) (y : BitVec m) : (x ++ y).toNat = x.toNat * 2 ^ m + y.toNat := by
  rw [BitVec.toNat_append, ← Nat.shiftLeft_add_eq_or_of_lt y.isLt, Nat.shiftLeft_eq]

theorem Config.maxLen_lt (c : Config) : c.maxLen < 2 ^ 16 := by
  have := c.nsym_range.2
  rw [Config.maxLen]
  omega

theorem Config.param0_toNat (c : Config) :
    (0#18 ++ BitVec.ofNat 6 c.cntw ++ 0#2 ++ BitVec.ofNat 6 c.symw : Word).toNat = c.cntw * 256 + c.symw := by
  have := c.cntw_range
  have := c.symw_range
  rw [toNat_append_eq, toNat_append_eq, toNat_append_eq]
  simp only [BitVec.toNat_ofNat]
  omega

theorem Config.param1_toNat (c : Config) :
    (BitVec.ofNat 16 c.maxLen ++ BitVec.ofNat 16 c.nsym : Word).toNat = max 1 (c.nsym - 1) * 65536 + c.nsym := by
  have := c.nsym_range
  rw [toNat_append_eq, BitVec.toNat_ofNat, BitVec.toNat_ofNat, Nat.mod_eq_of_lt c.maxLen_lt,
    Nat.mod_eq_of_lt (by omega)]
  rfl

namespace Machine

/-! ### Reads the spec gives a value for -/

theorem regRead_of_registerRead {s : State} {a w : Word} (h : registerRead s a = some w) : regRead s a = w := by
  rw [regRead, h, Option.getD_some]

theorem regRead_control {s : State} {a w : Word} (ha : a.toNat ≤ 0xE) (h : registerWord s a.toNat = some w) :
    regRead s a = w :=
  regRead_of_registerRead ((registerRead_control ha).trans h)

theorem toNat_regRead_control {s : State} {a w : Word} {n : Nat} (ha : a.toNat ≤ 0xE)
    (h : registerWord s a.toNat = some w) (hw : w.toNat = n) : (regRead s a).toNat = n := by
  rw [regRead_control ha h, hw]

/-! ### `STATUS` -/

theorem FaultCode.code_ne_zero (f : FaultCode) : f.code ≠ 0#4 := by cases f <;> decide

theorem State.faultedFlag_iff (s : State) : s.faultedFlag = true ↔ s.fault ≠ none := by
  rw [State.faultedFlag, State.faultValue]
  cases s.fault with
  | none => simp
  | some f => simp [FaultCode.code_ne_zero f]

theorem Phase.codebookComplete_iff (p : Phase) : p.codebookComplete = true ↔ p = .ready ∨ p = .pack ∨ p = .decode := by
  cases p <;> simp [Phase.codebookComplete]

theorem State.emptyFlag_iff (s : State) :
    s.emptyFlag = true ↔ (s.phase = .ready ∨ s.phase = .pack ∨ s.phase = .decode) ∧ s.cbn.toNat = 0 := by
  rw [State.emptyFlag, Bool.and_eq_true, Phase.codebookComplete_iff, beq_iff_eq, ← BitVec.toNat_inj]
  rfl

/-- The bits of `STATUS` above `PHASE` (10_state.md R27). -/
theorem State.getLsbD_statusWord (s : State) {k : Nat} (hk : 3 ≤ k) :
    s.statusWord.getLsbD k = [s.openv, s.holdv, s.emptyFlag, s.faultedFlag].getD (k - 3) false := by
  obtain ⟨j, rfl⟩ := Nat.exists_eq_add_of_le hk
  simp only [State.statusWord, BitVec.getLsbD_append]
  match j with
  | 0 | 1 | 2 | 3 => simp
  | j + 4 => simp

theorem State.statusWord_phase (s : State) : s.statusWord.extractLsb' 0 3 = s.phase.code :=
  BitVec.extractLsb'_append_eq_right

/-- Settles O50: each field is a part of the concatenation `statusWord`. -/
theorem statusWordHoldsItsFields : Obligations.StatusWordHoldsItsFields := by
  intro s
  refine ⟨regRead_control (by decide) rfl, s.statusWord_phase, s.getLsbD_statusWord (by decide),
    s.getLsbD_statusWord (by decide), ?_, ?_, fun k hk => ?_, rfl⟩
  · rw [s.getLsbD_statusWord (by decide), ← State.emptyFlag_iff]
    rfl
  · rw [s.getLsbD_statusWord (by decide), ← State.faultedFlag_iff]
    rfl
  · rw [s.getLsbD_statusWord (by omega)]
    exact List.getD_eq_default _ _ (by simp; omega)

/-! ### The registers 0x1 to 0xE -/

/-- The length of a stored code or of the accumulator fits its register. -/
theorem toNat_length_register {c : Config} {bits : BitString} (h : bits.length ≤ c.maxLen) :
    (BitVec.ofNat 32 bits.length).toNat = bits.length := by
  have := c.maxLen_lt
  rw [BitVec.toNat_ofNat]
  omega

theorem State.pstate_toNat (s : State) :
    (0#21 ++ s.pcnt ++ s.pacc : Word).toNat = s.pcnt.toNat * 256 + s.pacc.toNat := by
  rw [toNat_append_eq, toNat_append_eq]
  simp

theorem State.faultValue_of_fault {s : State} {f : FaultCode} (h : s.fault = some f) : s.faultValue = f.code := by
  rw [State.faultValue, h]

theorem State.faultValue_of_no_fault {s : State} (h : s.fault = none) : s.faultValue = 0#4 := by
  rw [State.faultValue, h]

/-- Settles O51: each address reads its row of `registerWord`, and the fields of a row fit their bits. -/
theorem controlRegistersReadTheState : Obligations.ControlRegistersReadTheState := by
  intro s h
  exact ⟨regRead_control (by decide) rfl, State.faultValue_of_no_fault,
    fun f hf => ⟨State.faultValue_of_fault hf, f.code_ne_zero⟩,
    regRead_control (by decide) rfl, regRead_control (by decide) rfl, h.latches.fcmd,
    toNat_regRead_control (by decide) rfl (BitVec.toNat_setWidth_of_le (by decide)),
    toNat_regRead_control (by decide) rfl rfl,
    toNat_regRead_control (by decide) rfl (BitVec.toNat_setWidth_of_le (by decide)),
    toNat_regRead_control (by decide) rfl (BitVec.toNat_setWidth_of_le (by decide)),
    toNat_regRead_control (by decide) rfl s.pstate_toNat,
    toNat_regRead_control (by decide) rfl (BitVec.toNat_setWidth_of_le (by decide)),
    toNat_regRead_control (by decide) rfl (toNat_length_register h.widths.acc),
    regRead_control (by decide) rfl,
    toNat_regRead_control (by decide) rfl (toNat_length_register h.widths.ocode),
    toNat_regRead_control (by decide) rfl s.cfg.param0_toNat,
    toNat_regRead_control (by decide) rfl s.cfg.param1_toNat⟩

/-! ### The two windows -/

/-- A valid slot of `FT` is a slot of the table (10_state.md R35). -/
theorem lt_nsym_of_ftValid {s : State} {i : Nat} {x : FtSlot} (h : TablesStored s) (hx : s.ftValid[i]? = some x) :
    i < s.cfg.nsym := by
  have := (List.getElem?_eq_some_iff.1 hx).1
  have := length_ftValid h
  have := h.ft
  have := h.ftCapacity
  omega

theorem length_cbValid {s : State} (h : TablesStored s) : s.cbValid.length = s.cbn.toNat := by
  simp [State.cbValid, h.cb]

/-- A valid slot of `CB` is a slot of the table (10_state.md R38). -/
theorem lt_nsym_of_cbValid {s : State} {i : Nat} {e : CodeEntry} (h : TablesStored s) (he : s.cbValid[i]? = some e) :
    i < s.cfg.nsym := by
  have := (List.getElem?_eq_some_iff.1 he).1
  have := length_cbValid h
  have := h.cb
  have := h.cbCapacity
  omega

theorem regRead_ftSlot {s : State} {i o : Nat} {x : FtSlot} (h : TablesStored s) (hx : s.ftValid[i]? = some x)
    (ho : o < 2) : regRead s (BitVec.ofNat 32 (0x00010000 + 2 * i + o)) = ftSlotWord x o := by
  have hi := lt_nsym_of_ftValid h hx
  have haddr : (BitVec.ofNat 32 (0x00010000 + 2 * i + o)).toNat = ftBase + 2 * i + o := by
    have := s.cfg.nsym_range.2
    rw [BitVec.toNat_ofNat, Nat.mod_eq_of_lt (by omega), ftBase]
  rw [regRead_of_registerRead ((registerRead_ft hi ho haddr).trans (by rw [hx]; rfl))]

/-- Settles O52: the two words of a slot are its symbol and its count. -/
theorem frequencyTableWindowReadsItsSlots : Obligations.FrequencyTableWindowReadsItsSlots :=
  fun _ _ _ h hx => ⟨regRead_ftSlot (o := 0) h.stored hx (by decide), regRead_ftSlot (o := 1) h.stored hx (by decide)⟩

/-- The `CB` window ends within the 32-bit word addresses (20_memory.md R62). -/
theorem cbAddress_toNat (c : Config) {i o : Nat} (hi : i < c.nsym) (ho : o < c.cbStride) :
    (BitVec.ofNat 32 (0x01000000 + i * (2 + (c.maxLen + 31) / 32) + o)).toNat = cbBase + i * c.cbStride + o := by
  have hn := c.nsym_range.2
  have hm := c.maxLen_lt
  have hstride : c.cbStride ≤ 2050 := by rw [Config.cbStride, Config.cw]; omega
  have hoff : i * c.cbStride ≤ 65535 * 2050 := Nat.mul_le_mul (by omega) hstride
  rw [← Config.cw, ← Config.cbStride, BitVec.toNat_ofNat, Nat.mod_eq_of_lt (by omega), cbBase]

theorem regRead_cbSlot {s : State} {i : Nat} {e : CodeEntry} (o : Nat) (h : TablesStored s)
    (he : s.cbValid[i]? = some e) (ho : o < s.cfg.cbStride) :
    regRead s (BitVec.ofNat 32 (0x01000000 + i * (2 + (s.cfg.maxLen + 31) / 32) + o)) = cbSlotWord e o := by
  have hi := lt_nsym_of_cbValid h he
  have haddr := cbAddress_toNat s.cfg hi ho
  rw [regRead_of_registerRead ((registerRead_cb hi ho haddr).trans (by rw [he]; rfl))]

/-- Bit `31 - j mod 32` of word `+2 + j / 32` of a slot is code bit `j`, 0 beyond the code (10_state.md R39). -/
theorem getLsbD_regRead_code {s : State} {i j : Nat} {e : CodeEntry} (h : TablesStored s)
    (he : s.cbValid[i]? = some e) (hj : j < 32 * ((s.cfg.maxLen + 31) / 32)) :
    (regRead s (BitVec.ofNat 32 (0x01000000 + i * (2 + (s.cfg.maxLen + 31) / 32) + 2 + j / 32))).getLsbD
      (31 - j % 32) = e.code.getD j false := by
  rw [Nat.add_assoc, regRead_cbSlot (2 + j / 32) h he (by rw [Config.cbStride, Config.cw]; omega), cbSlotWord,
    if_neg (by omega), if_neg (by omega), getLsbD_codeWord _ _ (by omega)]
  congr 1
  omega

/-- Settles O53: a slot's words by offset, and the bits of the code words by position. -/
theorem codebookWindowReadsItsSlots : Obligations.CodebookWindowReadsItsSlots := by
  intro s i e h he
  have hlen : e.code.length ≤ s.cfg.maxLen :=
    (h.codebook.lengths e (List.mem_of_getElem? he)).2
  refine ⟨regRead_cbSlot 0 h.stored he (by simp [Config.cbStride]), ?_, fun j b hb => ?_, fun j hl hj => ?_⟩
  · rw [regRead_cbSlot 1 h.stored he (by simp [Config.cbStride]; omega)]
    exact toNat_length_register hlen
  · have hj := (List.getElem?_eq_some_iff.1 hb).1
    rw [getLsbD_regRead_code h.stored he (by omega), List.getD_eq_getElem?_getD, hb, Option.getD_some]
  · rw [getLsbD_regRead_code h.stored he hj, List.getD_eq_default _ _ hl]

/-! ### The values after reset -/

theorem State.statusWord_eq_zero {s : State} (hp : s.phase = .idle) (hf : s.fault = none) (hv : s.holdv = false)
    (ho : s.openv = false) : s.statusWord = 0#32 := by
  have hempty : s.emptyFlag = false := by rw [State.emptyFlag, hp]; rfl
  have hfaulted : s.faultedFlag = false := by rw [State.faultedFlag, State.faultValue, hf]; rfl
  rw [State.statusWord, hp, hv, ho, hempty, hfaulted]
  decide

/-- Settles O19: the reset pin gives a reset state but for the host's side, and `CLEAR` writes the same values. -/
theorem resetGivesTheResetValues : Obligations.ResetGivesTheResetValues := by
  constructor
  · rintro t (rfl | ⟨c, rfl⟩ | ⟨s, rfl⟩)
    all_goals exact ⟨rfl, rfl, rfl, rfl, rfl, rfl, rfl, rfl, rfl, rfl, rfl, rfl, rfl, rfl, rfl, rfl, rfl, rfl, rfl, rfl,
      State.statusWord_eq_zero rfl rfl rfl rfl, rfl⟩
  · intro s
    exact ⟨rfl, ⟨rfl, rfl⟩, rfl, rfl, rfl, rfl, rfl, rfl, rfl, ⟨rfl, rfl⟩, ⟨rfl, rfl, rfl⟩, ⟨rfl, rfl, rfl⟩, rfl, rfl,
      ⟨rfl, rfl⟩⟩

end Machine

end Sys2Proof
end

section
/-! PROOF. No command word reads or writes the pending actions, so the words of the queue run as accepting them one
after another does (20_memory.md R73). -/

namespace Sys2Proof.Machine

/-! ### Commands do not see the pending actions -/

/-- The state with other pending actions. -/
def State.withHost (host : List HostAction) (s : State) : State := { s with host := host }

/-- The end of a rule with other pending actions. -/
def Progress.withHost (host : List HostAction) : Progress → Progress
  | .done s => .done (s.withHost host)
  | .raised f s => .raised f (s.withHost host)

/-- A check whose two ends commute with `f` commutes with `f`. -/
theorem ite_eq_apply_ite {α β : Type} {c : Prop} [Decidable c] {a b : α} {a' b' : β} (f : α → β) (ha : a' = f a)
    (hb : b' = f b) : (if c then a' else b') = f (if c then a else b) := by
  rw [apply_ite f, ha, hb]

section
variable (host : List HostAction) (s : State)

theorem State.withHost_acc : (s.withHost host).acc = s.acc := rfl

theorem State.withHost_ftValid : (s.withHost host).ftValid = s.ftValid := rfl

theorem State.withHost_ftFind (sym : Symbol) : (s.withHost host).ftFind sym = s.ftFind sym := rfl

theorem State.withHost_cbFindSym (sym : Symbol) : (s.withHost host).cbFindSym sym = s.cbFindSym sym := rfl

theorem State.withHost_cbFindCode (code : BitString) :
    (s.withHost host).cbFindCode code = s.cbFindCode code := rfl

/-- Two parts of a rule that do not see the pending actions make a rule that does not. -/
theorem Progress.withHost_andThen {p q : Progress} {k : State → Progress} (hp : q = p.withHost host)
    (hk : ∀ t : State, k (t.withHost host) = (k t).withHost host) :
    q.andThen k = (p.andThen k).withHost host := by
  subst hp
  cases p with
  | done t => exact hk t
  | raised f t => rfl

theorem Progress.withHost_finish (cmd : CommandWord) (p : Progress) :
    (p.withHost host).finish cmd = (p.finish cmd).withHost host := by
  cases p <;> rfl

theorem countSymbol_withHost (sym : Symbol) :
    countSymbol sym (s.withHost host) = (countSymbol sym s).withHost host := by
  refine ite_eq_apply_ite _ rfl ?_
  rw [State.withHost_ftFind]
  cases s.ftFind sym with
  | none => exact ite_eq_apply_ite _ rfl rfl
  | some i => rfl

theorem buildCodebook_withHost : buildCodebook (s.withHost host) = (buildCodebook s).withHost host := by
  rw [buildCodebook, buildCodebook, State.withHost_ftValid]
  rcases s.ftValid with _ | ⟨x, _ | ⟨y, slots⟩⟩ <;> rfl

theorem pushBit_withHost (b : Bool) : (s.withHost host).pushBit b = (s.pushBit b).withHost host :=
  ite_eq_apply_ite _ rfl rfl

theorem pushBits_withHost (code : BitString) :
    (s.withHost host).pushBits code = (s.pushBits code).withHost host := by
  induction code generalizing s with
  | nil => rfl
  | cons b bs ih => rw [pushBits_cons, pushBit_withHost, ih, pushBits_cons]

theorem packSymbol_withHost (sym : Symbol) :
    packSymbol sym (s.withHost host) = (packSymbol sym s).withHost host := by
  rw [packSymbol, packSymbol, State.withHost_cbFindSym]
  cases s.cbFindSym sym with
  | none => rfl
  | some e => exact congrArg Progress.done (pushBits_withHost host s e.code)

theorem finishPacking_withHost : finishPacking (s.withHost host) = (finishPacking s).withHost host :=
  ite_eq_apply_ite _ rfl rfl

theorem feedBit_withHost (b : Bool) : (s.withHost host).feedBit b = (s.feedBit b).withHost host := by
  refine ite_eq_apply_ite _ rfl ?_
  rw [State.withHost_cbFindCode, State.withHost_acc]
  cases s.cbFindCode (s.acc ++ [b]) with
  | none => rfl
  | some e => rfl

theorem feedBits_withHost (bits : BitString) :
    (s.withHost host).feedBits bits = (s.feedBits bits).withHost host := by
  induction bits generalizing s with
  | nil => rfl
  | cons b bs ih => exact Progress.withHost_andThen host (feedBit_withHost host s b) ih

theorem decodeByte_withHost (v : Byte) :
    decodeByte v (s.withHost host) = (decodeByte v s).withHost host :=
  Progress.withHost_andThen host (ite_eq_apply_ite _ (feedBits_withHost host s _) rfl) fun _ => rfl

theorem feedLastByte_withHost : feedLastByte (s.withHost host) = (feedLastByte s).withHost host :=
  ite_eq_apply_ite _ (Progress.withHost_andThen host (feedBits_withHost host s _) fun _ => rfl)
    (ite_eq_apply_ite _ rfl rfl)

theorem finishDecoding_withHost : finishDecoding (s.withHost host) = (finishDecoding s).withHost host :=
  Progress.withHost_andThen host (feedLastByte_withHost host s) fun _ => ite_eq_apply_ite _ rfl rfl

theorem openEntry_withHost (sym : Symbol) :
    openEntry sym (s.withHost host) = (openEntry sym s).withHost host :=
  ite_eq_apply_ite _ rfl (ite_eq_apply_ite _ rfl rfl)

theorem appendCodeBit_withHost (b : Bool) :
    appendCodeBit b (s.withHost host) = (appendCodeBit b s).withHost host :=
  ite_eq_apply_ite _ rfl rfl

theorem closeEntry_withHost : closeEntry (s.withHost host) = (closeEntry s).withHost host :=
  ite_eq_apply_ite _ rfl (ite_eq_apply_ite _ rfl rfl)

theorem commandRule_withHost (i : Instr) :
    commandRule i (s.withHost host) = (commandRule i s).withHost host := by
  cases i with
  | nop | clear | packBegin | decBegin _ | cblEnd => rfl
  | cntSym arg => exact countSymbol_withHost host s _
  | build => exact congrArg Progress.done (buildCodebook_withHost host s)
  | packSym arg => exact packSymbol_withHost host s _
  | packEnd => exact congrArg Progress.done (finishPacking_withHost host s)
  | decByte arg => exact decodeByte_withHost host s _
  | decEnd => exact finishDecoding_withHost host s
  | cblOpen arg => exact openEntry_withHost host s _
  | cblBit arg => exact appendCodeBit_withHost host s _
  | cblClose => exact closeEntry_withHost host s

theorem processCommand_withHost (i : Instr) :
    processCommand i (commandRule i) (s.withHost host) = (processCommand i (commandRule i) s).withHost host := by
  rw [processCommand, commandRule_withHost, Progress.withHost_finish]
  exact ite_eq_apply_ite _ rfl (ite_eq_apply_ite _ rfl (ite_eq_apply_ite _ rfl rfl))

theorem refuseWord_withHost (w : CommandWord) :
    refuseWord w (s.withHost host) = (refuseWord w s).withHost host :=
  ite_eq_apply_ite _ rfl rfl

end

section
variable {w : CommandWord} {s t : State}

theorem exec_withHost {i : Instr} (h : exec i s = .next t) (host : List HostAction) :
    exec i (s.withHost host) = .next (t.withHost host) := by
  by_cases hi : i = .clear
  · subst hi
    obtain rfl := Host.Outcome.next.inj h
    rfl
  · rw [exec_eq_processCommand hi] at h ⊢
    rw [processCommand_withHost, Host.Outcome.next.inj h]

/-- What a command word does, it does whatever actions are pending behind it (20_memory.md R73). -/
theorem acceptCommand_withHost (h : acceptCommand w s = .next t) (host : List HostAction) :
    acceptCommand w (s.withHost host) = .next (t.withHost host) := by
  rw [acceptCommand] at h ⊢
  cases hw : decode w with
  | ok i =>
    rw [hw] at h
    exact exec_withHost h host
  | error e =>
    rw [hw] at h
    rw [refuseWord_withHost, Host.Outcome.next.inj h]

theorem acceptCommand_host (h : acceptCommand w s = .next t) : t.host = s.host := by
  have hself : acceptCommand w s = .next (t.withHost s.host) := acceptCommand_withHost h s.host
  have ht : t = t.withHost s.host := Host.Outcome.next.inj (h.symm.trans hself)
  rw [ht, State.withHost]

/-! ### Queued words -/

theorem run_succ_of_step (h : step s = .next t) (k : Nat) : core.run (k + 1) s = core.run k t := by
  have hcore : core.step s = .next t := h
  simp only [Host.Core.run, hcore]

/-- The words accepted one after another are the steps that take them from the queue. -/
theorem run_queue (ws : List CommandWord) (hs : s.host = []) (h : runWords ws s = .next t) :
    core.run ws.length (s.withHost (ws.map .command)) = .next t := by
  induction ws generalizing s with
  | nil => rwa [List.map_nil, ← hs]
  | cons w ws ih =>
    obtain ⟨u, hu⟩ := acceptCommand_next w s
    have hstep : step (s.withHost ((w :: ws).map .command)) = .next (u.withHost (ws.map .command)) :=
      (step_of_host_command rfl).trans (acceptCommand_withHost hu _)
    rw [runWords, hu] at h
    rw [List.length_cons, run_succ_of_step hstep]
    exact ih ((acceptCommand_host hu).trans hs) h

end

/-- Settles O8: by induction on the words, as no word sees the ones behind it. -/
theorem queuedCommandsRunInOrder : Obligations.QueuedCommandsRunInOrder := fun ws _ _ hs h => run_queue ws hs h

end Sys2Proof.Machine
end

section
/-! PROOF. A read of an unmapped address and of a slot beyond the valid count (20_memory.md R66, R68), and the steps
that take no command word (R65, R74; 60_exceptions.md R230; 70_reset_and_hazards.md R240). -/

namespace Sys2Proof.Machine

/-! ### What a read changes -/

section
variable {s : State} {a : Word}

theorem regRead_of_open (h : registerRead s a = none) : regRead s a = Config.freeWord s.draws := by
  rw [regRead, h, Option.getD_none]

/-- A read the spec gives a word for takes no draw. -/
theorem serveRead_draws_of_isSome (h : (registerRead s a).isSome) : (serveRead a s).draws = s.draws :=
  if_pos h

theorem serveRead_of_registerRead {w : Word} (h : registerRead s a = some w) :
    serveRead a s = { s with rdOut := s.rdOut ++ [w] } := by
  rw [serveRead_frame, serveRead_draws_of_isSome (by rw [h]; rfl), serveRead, regRead_of_registerRead h]

theorem serveRead_draws_of_open (h : registerRead s a = none) : (serveRead a s).draws = s.draws + 1 :=
  if_neg (by simp [h])

/-! ### The unmapped addresses and the open words -/

/-- Outside the registers and the two windows every address reads 0 (20_memory.md R66). -/
theorem registerRead_unmapped (hreg : ¬ a.toNat ≤ 0xE)
    (hft : ¬ (ftBase ≤ a.toNat ∧ a.toNat < ftBase + 2 * s.cfg.nsym))
    (hcb : ¬ (cbBase ≤ a.toNat ∧ a.toNat < cbBase + s.cfg.nsym * s.cfg.cbStride)) :
    registerRead s a = some 0#32 := by
  simp only [registerRead, if_neg hreg, if_neg hft, if_neg hcb]

/-- An `FT` slot beyond the valid count, inside the window (20_memory.md R68). -/
theorem registerRead_ft_open (hlow : ftBase + 2 * s.ftn.toNat ≤ a.toNat)
    (hhigh : a.toNat < ftBase + 2 * s.cfg.nsym) : registerRead s a = none := by
  have hread := registerRead_ft (s := s) (a := a) (i := (a.toNat - ftBase) / 2) (o := (a.toNat - ftBase) % 2)
    (by omega) (by omega) (by omega)
  have hlen : s.ftValid.length ≤ s.ftn.toNat := List.length_take_le _ _
  rw [hread, List.getElem?_eq_none (by omega), Option.map_none]

/-- A `CB` slot beyond the valid count, inside the window (20_memory.md R68). -/
theorem registerRead_cb_open (hlow : cbBase + s.cbn.toNat * s.cfg.cbStride ≤ a.toNat)
    (hhigh : a.toNat < cbBase + s.cfg.nsym * s.cfg.cbStride) : registerRead s a = none := by
  have hpos : 0 < s.cfg.cbStride := by rw [Config.cbStride]; omega
  have hslot : (a.toNat - cbBase) / s.cfg.cbStride < s.cfg.nsym := (Nat.div_lt_iff_lt_mul hpos).2 (by omega)
  have hbeyond : s.cbn.toNat ≤ (a.toNat - cbBase) / s.cfg.cbStride := (Nat.le_div_iff_mul_le hpos).2 (by omega)
  have hread := registerRead_cb (s := s) (a := a) hslot (Nat.mod_lt (a.toNat - cbBase) hpos)
    (by rw [Nat.add_assoc, Nat.div_add_mod']; omega)
  have hlen : s.cbValid.length ≤ s.cbn.toNat := List.length_take_le _ _
  rw [hread, List.getElem?_eq_none (by omega), Option.map_none]

end

/-- Settles O54: the three ranges are what the registers and the two windows leave. -/
theorem unmappedReadsReturnZero : Obligations.UnmappedReadsReturnZero := by
  intro s a ha
  have hwin := ftWindow_lt_cbBase s.cfg
  rw [← Config.cw, ← Config.cbStride] at ha
  have hread : registerRead s a = some 0#32 := by
    rw [ftBase, cbBase] at hwin
    refine registerRead_unmapped (by omega) ?_ ?_
    · rw [ftBase]
      omega
    · rw [cbBase]
      omega
  exact ⟨regRead_of_registerRead hread, serveRead_of_registerRead hread⟩

/-- Settles O55: the slot of the address is beyond the valid slots of its table. -/
theorem invalidSlotReadsAreFreeDraws : Obligations.InvalidSlotReadsAreFreeDraws := by
  intro s a ha
  have hread : registerRead s a = none := by
    rcases ha with ⟨hlow, hhigh⟩ | ⟨hlow, hhigh⟩
    · exact registerRead_ft_open hlow hhigh
    · exact registerRead_cb_open hlow hhigh
  exact ⟨hread, regRead_of_open hread, serveRead_draws_of_open hread⟩

/-! ### Steps that take no command word -/

theorem step_of_host_cons {s : State} {a : HostAction} {rest : List HostAction} (hs : s.host = a :: rest) :
    step s = serve a (s.withHost rest) := by
  simp only [step, hs, State.withHost]

theorem step_of_host_nil {s : State} (hs : s.host = []) : step s = .next s := by
  simp only [step, hs, waitForHost]

/-- Settles O7: one action of the host at a time; which word an address reads does not depend on the pending ones. -/
theorem stepServesReadsResetAndIdling : Obligations.StepServesReadsResetAndIdling :=
  ⟨fun s a _ hs => ⟨(serveRead a s).draws, step_of_host_cons hs, serveRead_draws_of_isSome⟩,
    fun _ _ hs => step_of_host_cons hs, fun _ => ⟨rfl, rfl, rfl, rfl⟩, fun _ hs => step_of_host_nil hs⟩

end Sys2Proof.Machine
end

section
/-! PROOF. The decoder is the inverse of the encoder: a word decodes to a command exactly when it is the command's word
(30_encoding.md R90, R92, R98), and the words left over are the illegal ones (R95). -/

namespace Sys2Proof

/-! ### The rows of the opcode map -/

/-- A row is made as 30_encoding.md R92 says: its pattern has only the field `op`, the opcode of the row's command, and
its mask compares `arg` exactly when the command has no operand. -/
structure OpcodeRow.WellFormed (r : OpcodeRow) : Prop where
  rsv : rsvField r.pattern = 0#24
  arg : argField r.pattern = 0#32
  op : ∀ a, (r.make a).op = opField r.pattern
  operand : r.mask = 0xFFFFFFFFFFFFFFFF#64 ∧ (∀ a, (r.make a).arg = 0#32) ∨
    r.mask = 0xFFFFFFFF00000000#64 ∧ ∀ a, (r.make a).arg = a

theorem opcodeTable_wellFormed {r : OpcodeRow} (hr : r ∈ opcodeTable) : r.WellFormed := by
  fin_cases hr <;> exact ⟨by decide, by decide, fun _ => rfl, by simp [Instr.arg]⟩

/-- The rows have pairwise distinct opcodes. -/
theorem opcodeTable_nodup : (opcodeTable.map fun r => opField r.pattern).Nodup := by decide

theorem encode_eq_iff {i : Instr} {w : CommandWord} :
    encode i = w ↔ opField w = i.op ∧ rsvField w = 0#24 ∧ argField w = i.arg := by
  rw [eq_comm, word_eq_iff, opField_encode, rsvField_encode, argField_encode]

section
variable {r q : OpcodeRow} {w : CommandWord}

/-- A row matches exactly the words of its command (30_encoding.md R92). -/
theorem accepts_iff_encode (hr : r ∈ opcodeTable) : r.accepts w = true ↔ encode (r.make (argField w)) = w := by
  obtain ⟨hrsv, harg, hop, hoperand⟩ := opcodeTable_wellFormed hr
  rw [OpcodeRow.accepts, beq_iff_eq, encode_eq_iff, hop]
  rcases hoperand with ⟨hmask, hmake⟩ | ⟨hmask, hmake⟩
  · rw [hmask, and_fullMask, hmake, word_eq_iff, hrsv, harg]
  · rw [hmask, and_operandMask_eq_iff _ _ harg, hmake, hrsv, and_iff_left rfl]

theorem opField_of_accepts (hr : r ∈ opcodeTable) (h : r.accepts w = true) : opField w = opField r.pattern := by
  rw [← (opcodeTable_wellFormed hr).op (argField w)]
  exact (encode_eq_iff.1 ((accepts_iff_encode hr).1 h)).1

/-- No word matches two rows (30_encoding.md R92). -/
theorem eq_of_accepts (hr : r ∈ opcodeTable) (hq : q ∈ opcodeTable) (h : r.accepts w = true)
    (h' : q.accepts w = true) : r = q :=
  List.inj_on_of_nodup_map opcodeTable_nodup hr hq ((opField_of_accepts hr h).symm.trans (opField_of_accepts hq h'))

theorem mem_and_accepts_of_find? (h : opcodeTable.find? (fun r => r.accepts w) = some r) :
    r ∈ opcodeTable ∧ r.accepts w = true :=
  ⟨List.mem_of_find?_eq_some h, List.find?_some (p := (OpcodeRow.accepts · w)) h⟩

/-- The search for a row finds the one that matches. -/
theorem decode_of_accepts (hr : r ∈ opcodeTable) (h : r.accepts w = true) : decode w = .ok (r.make (argField w)) := by
  have hsome : (opcodeTable.find? fun r => r.accepts w).isSome := List.find?_isSome.2 ⟨r, hr, h⟩
  obtain ⟨q, hfind⟩ := Option.isSome_iff_exists.1 hsome
  obtain ⟨hq, hq'⟩ := mem_and_accepts_of_find? hfind
  obtain rfl := eq_of_accepts hr hq h hq'
  rw [decode, hfind]

theorem accepts_of_decode {i : Instr} (h : decode w = .ok i) :
    ∃ r ∈ opcodeTable, r.accepts w = true ∧ r.make (argField w) = i := by
  rw [decode] at h
  split at h
  case h_1 r hfind =>
    obtain ⟨hr, hacc⟩ := mem_and_accepts_of_find? hfind
    exact ⟨r, hr, hacc, Except.ok.inj h⟩
  case h_2 => cases h

end

/-! ### Decoding and encoding are inverse -/

/-- Every command has the fields of its word and a row that makes it again. -/
theorem encodingFields (i : Instr) : Laws.EncodingFields.Statement i := by
  cases i with
  | nop => exact Laws.EncodingFields.nop
  | clear => exact Laws.EncodingFields.clear
  | cntSym a => exact Laws.EncodingFields.cntSym a
  | build => exact Laws.EncodingFields.build
  | packBegin => exact Laws.EncodingFields.packBegin
  | packSym a => exact Laws.EncodingFields.packSym a
  | packEnd => exact Laws.EncodingFields.packEnd
  | decBegin a => exact Laws.EncodingFields.decBegin a
  | decByte a => exact Laws.EncodingFields.decByte a
  | decEnd => exact Laws.EncodingFields.decEnd
  | cblOpen a => exact Laws.EncodingFields.cblOpen a
  | cblBit a => exact Laws.EncodingFields.cblBit a
  | cblClose => exact Laws.EncodingFields.cblClose
  | cblEnd => exact Laws.EncodingFields.cblEnd

@[simp] theorem decode_encode (i : Instr) : decode (encode i) = .ok i := by
  obtain ⟨-, -, -, r, hr, hacc, hmake⟩ := encodingFields i
  rw [decode_of_accepts hr hacc, argField_encode, hmake]

theorem encode_of_decode {w : CommandWord} {i : Instr} (h : decode w = .ok i) : encode i = w := by
  obtain ⟨r, hr, hacc, rfl⟩ := accepts_of_decode h
  exact (accepts_iff_encode hr).1 hacc

theorem decode_eq_ok_iff {w : CommandWord} {i : Instr} : decode w = .ok i ↔ encode i = w :=
  ⟨encode_of_decode, fun h => h ▸ decode_encode i⟩

/-- Settles O3: the command's row matches its word, and no other row does. -/
theorem encodedCommandsDecodeToThemselves : Obligations.EncodedCommandsDecodeToThemselves := decode_encode

/-- Settles O4: the row that matches a word matches only the words of its command. -/
theorem everyCommandHasOneWord : Obligations.EveryCommandHasOneWord := fun _ _ => encode_of_decode

/-! ### The opcode map row by row -/

theorem decode_plain_iff (w : CommandWord) {i : Instr} {p : CommandWord} (hp : encode i = p := by decide) :
    decode w = .ok i ↔ w &&& 0xFFFFFFFFFFFFFFFF#64 = p := by
  rw [decode_eq_ok_iff, hp, and_fullMask, eq_comm]

theorem decode_operand_iff (w : CommandWord) {i : Instr} {p : CommandWord} (hop : opField p = i.op := by rfl)
    (hrsv : rsvField p = 0#24 := by decide) (harg : argField p = 0#32 := by decide) :
    decode w = .ok i ↔ w &&& 0xFFFFFFFF00000000#64 = p ∧ i.arg = w.extractLsb' 0 32 := by
  rw [decode_eq_ok_iff, encode_eq_iff, and_operandMask_eq_iff _ _ harg, hop, hrsv, and_assoc, argField,
    @eq_comm _ i.arg]

theorem opcodeTable_disjoint :
    opcodeTable.Pairwise fun r q => ∀ w : CommandWord, ¬ (w &&& r.mask = r.pattern ∧ w &&& q.mask = q.pattern) := by
  refine (List.pairwise_map.1 opcodeTable_nodup).imp_of_mem fun {r q} hr hq hne w => ?_
  rintro ⟨hw, hw'⟩
  exact hne ((opField_of_accepts hr (beq_iff_eq.2 hw)).symm.trans (opField_of_accepts hq (beq_iff_eq.2 hw')))

/-- Settles O2: a word decodes to a command when it is the command's word, and masks compare the fields of words. -/
theorem decodingFollowsTheOpcodeMap : Obligations.DecodingFollowsTheOpcodeMap :=
  ⟨fun w => ⟨decode_plain_iff w, decode_plain_iff w, fun _ => decode_operand_iff w, decode_plain_iff w,
    decode_plain_iff w, fun _ => decode_operand_iff w, decode_plain_iff w, fun _ => decode_operand_iff w,
    fun _ => decode_operand_iff w, decode_plain_iff w, fun _ => decode_operand_iff w,
    fun _ => decode_operand_iff w, decode_plain_iff w, decode_plain_iff w⟩, opcodeTable_disjoint⟩

/-- Settles O1: the decoder evaluated on the eleven words. -/
theorem commandWordsDecodeToTheirCommands : Obligations.CommandWordsDecodeToTheirCommands := by
  unfold Obligations.CommandWordsDecodeToTheirCommands
  decide

/-! ### Illegal words -/

theorem decode_error_iff {w : CommandWord} : (∃ e, decode w = .error e) ↔ ∀ i, encode i ≠ w := by
  simp only [ne_eq, ← decode_eq_ok_iff]
  cases decode w <;> simp

/-- The words of commands by their fields (30_encoding.md R90, R92). -/
theorem exists_encode_iff {w : CommandWord} :
    (∃ i, encode i = w) ↔
      opField w ∈ [0x00#8, 0x01#8, 0x10#8, 0x20#8, 0x30#8, 0x31#8, 0x32#8, 0x40#8, 0x41#8, 0x42#8,
        0x50#8, 0x51#8, 0x52#8, 0x53#8] ∧
      rsvField w = 0#24 ∧
      (opField w ∈ [0x00#8, 0x01#8, 0x20#8, 0x30#8, 0x32#8, 0x42#8, 0x52#8, 0x53#8] → argField w = 0#32) := by
  constructor
  · rintro ⟨i, rfl⟩
    rw [opField_encode, rsvField_encode, argField_encode]
    cases i <;> simp [Instr.op, Instr.arg]
  · rintro ⟨hop, hrsv, harg⟩
    obtain ⟨r, hr, hrw⟩ : ∃ r ∈ opcodeTable, opField r.pattern = opField w := List.mem_map.1 hop
    obtain ⟨-, -, hopcode, hoperand⟩ := opcodeTable_wellFormed hr
    refine ⟨r.make (argField w), encode_eq_iff.2 ⟨hrw.symm.trans (hopcode _).symm, hrsv, ?_⟩⟩
    rcases hoperand with ⟨hmask, hmake⟩ | ⟨-, hmake⟩
    · have hplain : ∀ q ∈ opcodeTable, q.mask = 0xFFFFFFFFFFFFFFFF#64 →
          opField q.pattern ∈ [0x00#8, 0x01#8, 0x20#8, 0x30#8, 0x32#8, 0x42#8, 0x52#8, 0x53#8] := by decide
      rw [hmake, harg (hrw ▸ hplain r hr hmask)]
    · exact (hmake _).symm

namespace Machine

/-- Step 3 of the processing of a word, when it fails (30_encoding.md R94, R95). -/
theorem acceptCommand_of_decode_error {w : CommandWord} (hw : ∃ e, decode w = .error e) (s : State) :
    acceptCommand w s = .next (refuseWord w s) := by
  obtain ⟨e, hw⟩ := hw
  rw [acceptCommand, hw]

theorem refuseWord_of_faulted {s : State} (hf : s.fault ≠ none) (w : CommandWord) : refuseWord w s = s :=
  if_pos (Option.isSome_iff_ne_none.2 hf)

theorem refuseWord_of_no_fault {s : State} (hf : s.fault = none) (w : CommandWord) :
    refuseWord w s = s.raise .illegalCmd w := by
  simp [refuseWord, hf]

/-- Settles O5: a word that is no command's word fails one of the three conditions on its fields. -/
theorem illegalWordsRaiseIllegalCmd : Obligations.IllegalWordsRaiseIllegalCmd := by
  refine ⟨fun w => ?_, fun w s hw hf => ?_⟩
  · rw [decode_error_iff, ← not_exists, exists_encode_iff, not_and_or, not_and_or, Classical.not_imp]
    rfl
  · rw [acceptCommand_of_decode_error hw, refuseWord_of_no_fault hf, State.raise]

/-! ### The order of the checks -/

/-- A command that is admitted with its operand out of range (30_encoding.md R94 step 5). -/
theorem exec_of_not_legal {i : Instr} {s : State} (hf : s.fault = none) (ha : admitted i s = true)
    (hl : ¬ operandLegal s.cfg i = true) : exec i s = .next (s.raise .badOperand (encode i)) := by
  have hi : i ≠ .clear := by
    rintro rfl
    exact hl rfl
  rw [exec_eq_processCommand hi, processCommand_of_not_legal hf ha (Bool.eq_false_of_not_eq_true hl)]

theorem acceptCommand_of_faulted {w : CommandWord} {s : State} (hw : w ≠ encode .clear) (hf : s.fault ≠ none) :
    acceptCommand w s = .next s := by
  cases hd : decode w with
  | error e => rw [acceptCommand_of_decode_error ⟨e, hd⟩, refuseWord_of_faulted hf]
  | ok i =>
    have hi : i ≠ .clear := by
      rintro rfl
      exact hw (encode_of_decode hd).symm
    rw [acceptCommand_of_decode_ok hd, exec_eq_processCommand hi, processCommand_of_faulted hf]

/-- Settles O9: one lemma for each step of the order. -/
theorem commandProcessingOrder : Obligations.CommandProcessingOrder := by
  intro w s
  have hclear : encode .clear = 0x0100000000000000#64 := by decide
  refine ⟨fun hw => ?_, fun hw => acceptCommand_of_faulted (hclear ▸ hw), fun _ hf => ⟨fun he => ?_, fun i hi => ?_⟩⟩
  · rw [acceptCommand_of_decode_ok (decode_eq_ok_iff.2 (hclear.trans hw.symm))]
    exact ⟨rfl, exec_clear s⟩
  · rw [acceptCommand_of_decode_error he, refuseWord_of_no_fault hf]
  · rw [acceptCommand_of_decode_ok hi, ← encode_of_decode hi]
    exact ⟨exec_of_not_admitted hf, exec_of_not_legal hf, fun _ _ => rfl⟩

/-- The legal range of an operand is the numbers below its bound (30_encoding.md R91, R97). -/
theorem not_operandLegal {c : Config} {i : Instr} {bound : Nat} (hb : operandBound c (operandKind i) = some bound)
    (h : bound ≤ i.arg.toNat) : ¬ operandLegal c i = true := by
  rw [operandLegal, hb]
  simpa using h

/-- Settles O11: each bound is the number of values of the command's operand form, and admission is checked first. -/
theorem operandOutOfRangeRaisesBadOperand : Obligations.OperandOutOfRangeRaisesBadOperand := by
  intro i s a hf hrange
  have hl : ¬ operandLegal s.cfg i = true := by
    rcases hrange with ⟨rfl | rfl | rfl, h⟩ | ⟨rfl, h⟩ | ⟨rfl, h⟩ | ⟨rfl, h⟩ <;> exact not_operandLegal rfl h
  exact ⟨fun ha => exec_of_not_legal hf ha hl, exec_of_not_admitted hf⟩

end Machine

end Sys2Proof
end

section
/-! PROOF. The control commands `NOP` and `CLEAR` (40_control.md R110, R111). -/

namespace Sys2Proof

theorem Instr.op_eq_clear_iff {i : Instr} : i.op = 0x01#8 ↔ i = .clear := by
  cases i <;> simp [Instr.op]

theorem encode_clear : encode .clear = 0x0100000000000000#64 := by decide

/-- `CLEAR` is the only command with its `op`, and it has one word (30_encoding.md R92, R95). -/
theorem decode_error_of_clear_op {w : CommandWord} (hop : opField w = 0x01#8) (hw : w ≠ encode .clear) :
    ∃ e, decode w = .error e := by
  refine decode_error_iff.2 ?_
  rintro i rfl
  rw [opField_encode, Instr.op_eq_clear_iff] at hop
  exact hw (congrArg encode hop)

namespace Machine

/-- Settles O17: `NOP` is admitted in every phase, has no operand to check, and its own rule completes at once. -/
theorem nopChangesNothing : Obligations.NopChangesNothing := ⟨by decide, exec_nop⟩

/-- Settles O18: no other word with the `op` of `CLEAR` decodes, and `CLEAR` leaves `State.clear`, whose phase and
flags make `STATUS` 0. -/
theorem clearReturnsToTheInitialState : Obligations.ClearReturnsToTheInitialState := by
  refine ⟨encode_clear, fun w s hop hw => ?_, fun s => ⟨s.clear, exec_clear s, ?_⟩⟩
  · rw [← encode_clear] at hw
    refine ⟨fun hf => ?_, acceptCommand_of_faulted hw⟩
    rw [acceptCommand_of_decode_error (decode_error_of_clear_op hop hw), refuseWord_of_no_fault hf, State.raise]
  · have hstatus : s.clear.statusWord = 0#32 := State.statusWord_eq_zero rfl rfl rfl rfl
    exact ⟨rfl, rfl, rfl, rfl, rfl, rfl, rfl, rfl, rfl, rfl, rfl, rfl, rfl, rfl, rfl, rfl, rfl, rfl, ⟨rfl, rfl⟩,
      ⟨rfl, rfl, rfl, rfl⟩, rfl, rfl, hstatus, rfl⟩

end Machine

end Sys2Proof
end

section
/-! PROOF. The Frequency Counter: one `CNT_SYM` (41_frequency_counter.md R120) and a whole counting pass (R121). -/

namespace Sys2Proof

/-! ### The head of a command's rule -/

/-- The word of a command is the pattern of its row with `arg` filled in (30_encoding.md R90, R100). -/
theorem encode_eq_pattern_or {i : Instr} {p : CommandWord} (hop : opField p = i.op) (hrsv : rsvField p = 0#24)
    (harg : argField p = 0#32) : encode i = p ||| i.arg.zeroExtend 64 := by
  have hfields : i.arg.zeroExtend 64 = 0#8 ++ 0#24 ++ i.arg := by
    rw [BitVec.zero_append_zero]
    exact BitVec.setWidth_eq_append (by decide)
  rw [word_eq_fields p, hop, hrsv, harg, hfields]
  refine Eq.symm ((BitVec.or_append (x₁ := i.op ++ 0#24)).trans ?_)
  rw [BitVec.or_append, BitVec.or_zero, BitVec.or_zero, BitVec.zero_or, encode]

namespace Machine

/-- The head of a rule is the command's word, its admission and the bound of its operand (30_encoding.md R96, R97). -/
theorem CommandHeader.of_admitted_iff {i : Instr} {w : CommandWord} {phases : List Phase} {openv : List Bool}
    {bound : Config → Nat} (hword : encode i = w)
    (hadmitted : ∀ s : State, admitted i s = true ↔ s.phase ∈ phases ∧ s.openv ∈ openv)
    (hbound : ∀ c, bound c ≤ i.arg.toNat → ¬ operandLegal c i = true) : CommandHeader i w phases openv bound where
  word := hword
  admission s hf ha := by rw [exec_of_not_admitted hf ((hadmitted s).not.2 ha), hword, State.raise]
  operand s hf hp ho hb := by
    rw [exec_of_not_legal hf ((hadmitted s).2 ⟨hp, ho⟩) (hbound s.cfg hb), hword, State.raise]

/-! ### The rule of `CNT_SYM` -/

theorem admitted_cntSym_iff {a : Word} {s : State} :
    admitted (.cntSym a) s = true ↔ s.phase = .idle ∨ s.phase = .count := by
  simp [admitted_iff, admittingPhases, neededOpenv]

theorem operandLegal_cntSym_iff {c : Config} {a : Word} :
    operandLegal c (.cntSym a) = true ↔ a.toNat < 2 ^ c.symw := decide_eq_true_iff

theorem commandHeader_cntSym (a : Word) :
    CommandHeader (.cntSym a) (0x1000000000000000#64 ||| a.zeroExtend 64) [.idle, .count] [false, true]
      (fun c => 2 ^ c.symw) := by
  refine .of_admitted_iff (encode_eq_pattern_or rfl (by decide) (by decide)) (fun s => ?_) fun _ => not_operandLegal rfl
  simp [admitted_cntSym_iff]

/-- In range the operand is the symbol itself, so `CNT_SYM` ends as its rule for that symbol does. -/
theorem exec_cntSym {a : Word} {s : State} (hf : s.fault = none) (hp : s.phase = .idle ∨ s.phase = .count)
    (ha : a.toNat < 2 ^ s.cfg.symw) :
    exec (.cntSym a) s = .next ((countSymbol a s).finish (encode (.cntSym a))) := by
  rw [exec_of_legal hf (admitted_cntSym_iff.2 hp) (operandLegal_cntSym_iff.2 ha), commandRule,
    symbolOperand_eq s.cfg a ha]

section
variable {sym : Symbol} {s : State}

theorem total_eq_cntMax_iff : s.total = s.cfg.cntMax ↔ s.total.toNat = 2 ^ s.cfg.cntw - 1 := by
  rw [← BitVec.toNat_inj, Config.cntMax_toNat]

theorem countSymbol_of_overflow (ht : s.total = s.cfg.cntMax) : countSymbol sym s = .raised .countOverflow s :=
  if_pos ht

theorem countSymbol_of_full (ht : s.total ≠ s.cfg.cntMax) (hf : s.ftFind sym = none) (hn : s.ftn.toNat = s.cfg.nsym) :
    countSymbol sym s = .raised .tableFull s := by
  rw [countSymbol, if_neg ht, hf]
  exact if_pos hn

theorem countSymbol_of_new (ht : s.total ≠ s.cfg.cntMax) (hf : s.ftFind sym = none) (hn : s.ftn.toNat ≠ s.cfg.nsym) :
    countSymbol sym s = .done (s.countFirst sym) := by
  rw [countSymbol, if_neg ht, hf]
  exact if_neg hn

theorem countSymbol_of_known {i : Nat} (ht : s.total ≠ s.cfg.cntMax) (hf : s.ftFind sym = some i) :
    countSymbol sym s = .done (s.countAgain i) := by
  rw [countSymbol, if_neg ht, hf, State.countAgain]

/-! ### What a counted symbol leaves -/

theorem ftn_lt_nsym (h : TablesStored s) (hn : s.ftn.toNat ≠ s.cfg.nsym) : s.ftn.toNat < s.cfg.nsym :=
  Nat.lt_of_le_of_ne (Nat.le_trans h.ft h.ftCapacity) hn

/-- A valid slot of `FT` is a slot of the table, at the same index (10_state.md R35). -/
theorem getElem?_ft_of_ftValid {i : Nat} {x : FtSlot} (hx : s.ftValid[i]? = some x) : s.ft[i]? = some x := by
  obtain ⟨hi, rfl⟩ := List.getElem?_eq_some_iff.1 hx
  exact List.prefix_iff_getElem?.1 (List.take_prefix _ _) i hi

/-- Below `CNTMAX` the new total is exact (41_frequency_counter.md R120 check 1). -/
theorem total_succ_toNat (h : s.Inv) (ht : s.total ≠ s.cfg.cntMax) :
    (s.cfg.addCount s.total 1#32).toNat = s.total.toNat + 1 :=
  addCount_one_toNat s.cfg h.widths.total ht (Nat.le_refl _)

/-- Below `CNTMAX` the new count of a valid slot is exact, as no count exceeds the total (10_state.md R37 (b)). -/
theorem count_succ_toNat {x : FtSlot} (h : s.Inv) (ht : s.total ≠ s.cfg.cntMax) (hx : x ∈ s.ftValid) :
    (s.cfg.addCount x.count 1#32).toNat = x.count.toNat + 1 :=
  addCount_one_toNat s.cfg h.widths.total ht (h.frequencyTable.counts x hx).2

/-- The slot of a known symbol `sym` is the only valid one that holds it, and the only one that is written: a valid
slot afterwards is that slot with its new count, or one that was valid before and holds another symbol. -/
theorem mem_ftValid_countAgain {i : Nat} {y : FtSlot} (h : s.Inv) (hf : s.ftFind sym = some i)
    (hy : y ∈ (s.countAgain i).ftValid) : ∃ x ∈ s.ftValid,
      x.sym = sym ∧ y = { x with count := s.cfg.addCount x.count 1#32 } ∨ x.sym ≠ sym ∧ y = x := by
  obtain ⟨z, hz, hsym⟩ := ftFind_eq_some hf
  have hvalid : (s.countAgain i).ftValid =
      s.ftValid.modify i fun x => { x with count := s.cfg.addCount x.count 1#32 } := List.take_modify _ _ _ _
  obtain ⟨j, hj⟩ := List.mem_iff_getElem?.1 (hvalid ▸ hy)
  by_cases hij : i = j
  · subst hij
    rw [List.getElem?_modify_eq, hz] at hj
    exact ⟨z, List.mem_of_getElem? hz, .inl ⟨hsym, (Option.some.inj hj).symm⟩⟩
  · rw [List.getElem?_modify_ne _ _ hij] at hj
    refine ⟨y, List.mem_of_getElem? hj, .inr ⟨fun e => hij ?_, rfl⟩⟩
    exact Option.some.inj (hf.symm.trans (ftFind_eq_some_of_nodup h.frequencyTable.distinct hj e))

end

/-- Settles O20: the four ends of the rule, and what the two writes of a slot leave in each slot. -/
theorem cntSymCountsOneSymbol : Obligations.CntSymCountsOneSymbol := by
  refine ⟨commandHeader_cntSym, fun s a h hf hp ha => ?_⟩
  rw [exec_cntSym hf hp ha]
  simp only [ne_eq, ← total_eq_cntMax_iff]
  refine ⟨fun ht => ?_, fun ht hnew hn => ?_, fun ht hnew hn => ?_, fun i x ht hx hsym => ?_⟩
  · rw [countSymbol_of_overflow ht, Progress.finish_raised, State.raise]
  · rw [countSymbol_of_full ht (ftFind_eq_none_iff.2 hnew) hn, Progress.finish_raised, State.raise]
  · rw [countSymbol_of_new ht (ftFind_eq_none_iff.2 hnew) hn]
    exact ⟨s.countFirst a, rfl, rfl, s.cfg.succ_toNat _ (ftn_lt_nsym h.stored hn), total_succ_toNat h ht,
      getElem?_writeSlot_self _ _ _ h.stored.ft, fun j hj => getElem?_writeSlot_ne _ _ _ h.stored.ft hj⟩
  · rw [countSymbol_of_known ht (ftFind_eq_some_of_nodup h.frequencyTable.distinct hx hsym)]
    refine ⟨s.countAgain i, { x with count := s.cfg.addCount x.count 1#32 }, rfl, rfl, total_succ_toNat h ht, ?_, hsym,
      count_succ_toNat h ht (List.mem_of_getElem? hx), fun j hj => List.getElem?_modify_ne _ _ (Ne.symm hj)⟩
    rw [State.countAgain, List.getElem?_modify_eq, getElem?_ft_of_ftValid hx]
    rfl

/-! ### Runs without a fault -/

/-- A command other than `CLEAR` that leaves no fault found none, was admitted and in range, and its own rule
completed (30_encoding.md R94). -/
theorem exec_without_fault {i : Instr} {s t : State} (hi : i ≠ .clear) (h : exec i s = .next t) (ht : t.fault = none) :
    s.fault = none ∧ admitted i s = true ∧ operandLegal s.cfg i = true ∧ commandRule i s = .done t := by
  rcases exec_cases h with ⟨e, -⟩ | ⟨-, ⟨hf, rfl⟩ | ⟨-, -, rfl⟩ | ⟨-, -, -, rfl⟩ | ⟨hf, ha, hl, hd | ⟨f, u, -, rfl⟩⟩⟩
  · exact absurd e hi
  · exact absurd ht hf
  · cases ht
  · cases ht
  · exact ⟨hf, ha, hl, hd⟩
  · cases ht

theorem runInstrs_nil {s t : State} : runInstrs [] s = .next t ↔ s = t := by
  simp [runInstrs, runWords]

theorem runInstrs_cons {i : Instr} {is : List Instr} {s t : State} :
    runInstrs (i :: is) s = .next t ↔ ∃ u, exec i s = .next u ∧ runInstrs is u = .next t := by
  obtain ⟨u, hu⟩ := exec_next i s
  simp [runInstrs, runWords, acceptCommand_of_decode_ok (decode_encode i), hu]

/-- A run without `CLEAR` that ends without a fault began without one (60_exceptions.md R214). -/
theorem RunsWithoutFault.fault_eq_none {is : List Instr} {s t : State} (hclear : .clear ∉ is)
    (h : RunsWithoutFault is s t) : s.fault = none := by
  obtain ⟨hrun, ht⟩ := h
  induction is generalizing s with
  | nil => rwa [runInstrs_nil.1 hrun]
  | cons i is ih =>
    obtain ⟨hi, hclear⟩ := List.ne_and_not_mem_of_not_mem_cons hclear
    obtain ⟨u, hu, hrun⟩ := runInstrs_cons.1 hrun
    exact (exec_without_fault hi.symm hu (ih hclear hrun)).1

/-! ### The counting pass -/

/-- In state `t` the Frequency Table is the one of the text, after a counting pass from `s` (41_frequency_counter.md
R121). -/
structure CountedFrom (s : State) (text : List Symbol) (t : State) : Prop where
  inv : t.Inv
  syms : t.ftValid.map FtSlot.sym = text.eraseDups
  counts : ∀ x ∈ t.ftValid, x.count.toNat = text.count x.sym
  total : t.total.toNat = text.length
  phase : t.phase = if text = [] then Phase.idle else Phase.count
  frame : ∃ ft ftn total phase, t = { s with ft := ft, ftn := ftn, total := total, phase := phase }

/-- Before the first symbol the table is empty (10_state.md R47). -/
theorem countedFrom_nil {s : State} (h : s.Inv) (hp : s.phase = .idle) : CountedFrom s [] s := by
  obtain ⟨hftn, htotal⟩ := h.phase.frequency (.inl hp)
  have hvalid : s.ftValid = [] := by simp [State.ftValid, hftn]
  exact ⟨h, by simp [hvalid], by simp [hvalid], by simp [htotal], hp, _, _, _, _, rfl⟩

section
variable {s t : State} {text : List Symbol} {a : Symbol}

theorem eraseDups_concat_of_mem (h : a ∈ text) : (text ++ [a]).eraseDups = text.eraseDups := by
  simp [List.eraseDups_append, List.cons_removeAll, h]

theorem eraseDups_concat_of_not_mem (h : a ∉ text) : (text ++ [a]).eraseDups = text.eraseDups ++ [a] := by
  simp [List.eraseDups_append, List.cons_removeAll, h, List.eraseDups_cons]

/-- The symbols of the valid slots are those of the text. -/
theorem CountedFrom.mem_iff (h : CountedFrom s text t) : a ∈ text ↔ ∃ x ∈ t.ftValid, x.sym = a := by
  rw [← List.mem_eraseDups, ← h.syms, List.mem_map]

/-- The valid slots are as many as the symbols of the text. -/
theorem CountedFrom.ftn_toNat (h : CountedFrom s text t) : t.ftn.toNat = text.eraseDups.length := by
  rw [← length_ftValid h.inv.stored, ← h.syms, List.length_map]

/-- A new symbol's slot is the last one, with the count 1. -/
theorem CountedFrom.countFirst (h : CountedFrom s text t) (ht : t.total ≠ t.cfg.cntMax) (hf : t.ftFind a = none)
    (hn : t.ftn.toNat ≠ t.cfg.nsym) (hinv : (t.countFirst a).Inv) : CountedFrom s (text ++ [a]) (t.countFirst a) := by
  have hnew : ∀ x ∈ t.ftValid, x.sym ≠ a := ftFind_eq_none_iff.1 hf
  have ha : a ∉ text := by simpa [h.mem_iff] using hnew
  have htotal : (t.countFirst a).total.toNat = t.total.toNat + 1 := total_succ_toNat h.inv ht
  have hvalid := ftValid_countFirst a (ftn_lt_nsym h.inv.stored hn)
  refine ⟨hinv, ?_, ?_, by simp [htotal, h.total], by simp [State.countFirst], ?_⟩
  · rw [hvalid, List.map_append, h.syms, eraseDups_concat_of_not_mem ha]
    rfl
  · rw [hvalid]
    refine List.forall_mem_append.2 ⟨fun x hx => ?_, by simp [List.count_eq_zero_of_not_mem ha]⟩
    simp [h.counts x hx, (hnew x hx).symm]
  · obtain ⟨ft, ftn, total, phase, rfl⟩ := h.frame
    exact ⟨_, _, _, _, rfl⟩

/-- A known symbol's slot stays where it is, with one more in its count. -/
theorem CountedFrom.countAgain {i : Nat} (h : CountedFrom s text t) (ht : t.total ≠ t.cfg.cntMax)
    (hf : t.ftFind a = some i) (hinv : (t.countAgain i).Inv) : CountedFrom s (text ++ [a]) (t.countAgain i) := by
  obtain ⟨z, hz, hsym⟩ := ftFind_eq_some hf
  have ha : a ∈ text := h.mem_iff.2 ⟨z, List.mem_of_getElem? hz, hsym⟩
  have htotal : (t.countAgain i).total.toNat = t.total.toNat + 1 := total_succ_toNat h.inv ht
  refine ⟨hinv, ?_, fun y hy => ?_, by simp [htotal, h.total], by simp [State.countAgain], ?_⟩
  · obtain ⟨l₁, x, l₂, hold, hnew⟩ := ftValid_countAgain hf
    rw [eraseDups_concat_of_mem ha, ← h.syms, hnew, hold]
    simp
  · obtain ⟨x, hx, ⟨hxa, rfl⟩ | ⟨hxa, rfl⟩⟩ := mem_ftValid_countAgain h.inv hf hy
    · simp [count_succ_toNat h.inv ht hx, h.counts x hx, hxa]
    · simp [h.counts y hx, hxa.symm]
  · obtain ⟨ft, ftn, total, phase, rfl⟩ := h.frame
    exact ⟨_, _, _, _, rfl⟩

/-- One more `CNT_SYM` that leaves no fault. -/
theorem CountedFrom.exec_cntSym {u : State} (h : CountedFrom s text t) (hu : exec (.cntSym a) t = .next u)
    (hf : u.fault = none) : CountedFrom s (text ++ [a]) u := by
  obtain ⟨-, ha, hl, hdone⟩ := exec_without_fault (by simp) hu hf
  have hinv := inv_commandRule h.inv (by simp) ha
  rw [hdone] at hinv
  rw [commandRule, symbolOperand_eq _ _ (operandLegal_cntSym_iff.1 hl)] at hdone
  rcases countSymbol_cases a t with ⟨f, e⟩ | ⟨ht, ⟨hfind, hn, e⟩ | ⟨i, hfind, e⟩⟩ <;> rw [e] at hdone <;> cases hdone
  · exact h.countFirst ht hfind hn hinv
  · exact h.countAgain ht hfind hinv

/-- The rest of a counting pass. -/
theorem CountedFrom.run {u : State} {rest : List Symbol} (h : CountedFrom s text t)
    (hrun : RunsWithoutFault (Pseudo.cntStr rest) t u) : CountedFrom s (text ++ rest) u := by
  induction rest generalizing text t with
  | nil =>
    obtain rfl := runInstrs_nil.1 hrun.1
    rwa [List.append_nil]
  | cons a rest ih =>
    obtain ⟨hrun, hf⟩ := hrun
    obtain ⟨v, hv, hrun⟩ := runInstrs_cons.1 hrun
    have hrest : RunsWithoutFault (Pseudo.cntStr rest) v u := ⟨hrun, hf⟩
    have hvf := hrest.fault_eq_none (by simp [Pseudo.cntStr])
    rw [List.append_cons]
    exact ih (h.exec_cntSym hv hvf) hrest

end

/-- Settles O21: the table is that of the text counted so far, by induction on the rest of the text. -/
theorem countingPassBuildsTheFrequencyTable : Obligations.CountingPassBuildsTheFrequencyTable := by
  intro s t text h hp hrun
  have hcounted : CountedFrom s text t := (countedFrom_nil h hp).run hrun
  have hftn := hcounted.ftn_toNat
  obtain ⟨-, hsyms, hcounts, htotal, hphase, ft, ftn, total, phase, rfl⟩ := hcounted
  exact ⟨hsyms, hcounts, hftn, htotal, hphase, ⟨rfl, rfl⟩, ⟨rfl, rfl⟩, ⟨rfl, rfl, rfl⟩, ⟨rfl, rfl, rfl⟩, ⟨rfl, rfl⟩,
    ⟨rfl, rfl, rfl, rfl⟩, ⟨rfl, rfl⟩, rfl, rfl⟩

end Machine

end Sys2Proof
end

section
/-! PROOF. The loop of `BUILD` is the greedy merge (42_tree_builder.md R130 to R133): the two least groups are unique,
the weights never overflow, and the result does not depend on the order of the groups (R139). -/

namespace Sys2Proof.Machine

/-! ### Lists of groups that can be merged -/

/-- The symbols of all members of all groups. -/
abbrev groupSyms (gl : List Group) : List Symbol := (gl.flatMap Group.members).map CodeEntry.sym

/-- The sum of the group weights (42_tree_builder.md R133). -/
def weightSum (gl : List Group) : Nat := (gl.map fun g => g.w.toNat).sum

@[simp] theorem weightSum_nil : weightSum [] = 0 := rfl

@[simp] theorem weightSum_cons (g : Group) (gl : List Group) : weightSum (g :: gl) = g.w.toNat + weightSum gl := rfl

theorem weightSum_of_perm {gl gl' : List Group} (h : gl.Perm gl') : weightSum gl = weightSum gl' :=
  (h.map _).sum_eq

/-- What a group list satisfies throughout the loop: the symbol sets are disjoint, so the selection order is total, and
the weights add up to less than `2^CNTW`, so no addition overflows (42_tree_builder.md R131, R133). -/
structure Mergeable (c : Config) (gl : List Group) : Prop where
  distinct : (groupSyms gl).Nodup
  fits : weightSum gl < 2 ^ c.cntw

/-- Groups with disjoint symbol sets have different first symbols (42_tree_builder.md R131). -/
theorem pairwise_first_sym_ne {gl : List Group} (hd : (groupSyms gl).Nodup) :
    gl.Pairwise fun x y => x.first.sym ≠ y.first.sym := by
  have hfirst (g : Group) : g.first.sym ∈ g.members.map CodeEntry.sym := List.mem_cons_self
  rw [groupSyms, List.map_flatMap, List.nodup_flatMap] at hd
  exact hd.2.imp fun {x y} hdisjoint e => hdisjoint (hfirst x) (by rw [e]; exact hfirst y)

/-- With disjoint symbol sets the groups one pass takes out come before all others in the selection order
(42_tree_builder.md R130 steps 2a and 2b). -/
theorem mergeLowestTwo_selects (c : Config) {gl : List Group} (hl : 2 ≤ gl.length) (hd : (groupSyms gl).Nodup) :
    ∃ a b others, gl.Perm (a :: b :: others) ∧ (∀ x ∈ b :: others, a.precedes x = true) ∧
      (∀ x ∈ others, b.precedes x = true) ∧ mergeLowestTwo c gl = mergeGroups c a b :: others := by
  obtain ⟨a, b, others, hp, ha, hb, e⟩ := mergeLowestTwo_cases c hl
  have hne := pairwise_first_sym_ne (((hp.flatMap_right Group.members).map CodeEntry.sym).nodup_iff.1 hd)
  obtain ⟨hne_a, hne⟩ := List.pairwise_cons.1 hne
  obtain ⟨hne_b, -⟩ := List.pairwise_cons.1 hne
  exact ⟨a, b, others, hp, fun x hx => Group.precedes_of_not_precedes (ha x hx) (hne_a x hx),
    fun x hx => Group.precedes_of_not_precedes (hb x hx) (hne_b x hx), e⟩

theorem Group.w_le_of_precedes {x y : Group} (h : x.precedes y = true) : x.w.toNat ≤ y.w.toNat := by
  rw [Group.precedes_iff] at h
  omega

/-- Settles O25: one pass takes out the two least groups and puts their merge in, which only permutes the symbols. -/
theorem mergeReplacesTheTwoLeastGroups : Obligations.MergeReplacesTheTwoLeastGroups := by
  refine ⟨fun _ _ => Group.precedes_iff, fun c gl hl hd => ?_⟩
  obtain ⟨a, b, others, hp, ha, hb, e⟩ := mergeLowestTwo_selects c hl hd
  exact ⟨a, b, mergeGroups c a b, others, hp, ha, hb, e, rfl, rfl,
    Group.w_le_of_precedes (ha b List.mem_cons_self), fun x hx => Group.w_le_of_precedes (hb x hx),
    e ▸ mergeLowestTwo_syms c gl⟩

/-! ### The weights -/

theorem weightSum_initialGroups (slots : List FtSlot) :
    weightSum (initialGroups slots) = (slots.map fun x => x.count.toNat).sum := by
  simp [weightSum, initialGroups, Function.comp_def]

/-- The weights of two different groups of a list add up without overflow (42_tree_builder.md R133). -/
theorem addCount_toNat_of_perm (c : Config) {gl others : List Group} {a b : Group} (hp : gl.Perm (a :: b :: others))
    (hw : weightSum gl < 2 ^ c.cntw) : (c.addCount a.w b.w).toNat = a.w.toNat + b.w.toNat := by
  rw [weightSum_of_perm hp, weightSum_cons, weightSum_cons] at hw
  exact c.addCount_toNat _ _ (by omega)

/-- One pass keeps the sum of the weights (42_tree_builder.md R133). -/
theorem weightSum_mergeLowestTwo (c : Config) {gl : List Group} (hl : 2 ≤ gl.length)
    (hw : weightSum gl < 2 ^ c.cntw) : weightSum (mergeLowestTwo c gl) = weightSum gl := by
  obtain ⟨a, b, others, hp, -, -, e⟩ := mergeLowestTwo_cases c hl
  rw [e, weightSum_of_perm hp, weightSum_cons, weightSum_cons, weightSum_cons, mergeGroups_w,
    addCount_toNat_of_perm c hp hw, Nat.add_assoc]

theorem Mergeable.mergeLowestTwo {c : Config} {gl : List Group} (h : Mergeable c gl) (hl : 2 ≤ gl.length) :
    Mergeable c (mergeLowestTwo c gl) where
  distinct := (mergeLowestTwo_syms c gl).nodup_iff.2 h.distinct
  fits := by rw [weightSum_mergeLowestTwo c hl h.fits]; exact h.fits

theorem Mergeable.weightSum_mergeLoop {c : Config} {gl : List Group} (h : Mergeable c gl) (fuel : Nat) :
    weightSum (mergeLoop c fuel gl) = weightSum gl :=
  (mergeLoop_induction c (P := fun l => Mergeable c l ∧ weightSum l = weightSum gl)
    (fun _ hl ⟨hm, hsum⟩ => ⟨hm.mergeLowestTwo hl, (weightSum_mergeLowestTwo c hl hm.fits).trans hsum⟩)
    fuel gl ⟨h, rfl⟩).2

theorem weightSum_ftValid {s : State} (h : s.Inv) : weightSum (initialGroups s.ftValid) = s.total.toNat :=
  (weightSum_initialGroups s.ftValid).trans h.frequencyTable.sum

/-- The groups `BUILD` begins with (10_state.md R37; 42_tree_builder.md R130 step 1). -/
theorem mergeable_ftValid {s : State} (h : s.Inv) : Mergeable s.cfg (initialGroups s.ftValid) where
  distinct := by simpa [groupSyms, Function.comp_def] using h.frequencyTable.distinct
  fits := by rw [weightSum_ftValid h]; exact h.widths.total

theorem mergeLoop_of_two_le (c : Config) (fuel : Nat) {gl : List Group} (hl : 2 ≤ gl.length) :
    mergeLoop c (fuel + 1) gl = mergeLoop c fuel (mergeLowestTwo c gl) := if_pos hl

theorem mergeLoop_of_length_le_one (c : Config) (fuel : Nat) {gl : List Group} (hl : gl.length ≤ 1) :
    mergeLoop c fuel gl = gl := by
  cases fuel with
  | zero => rfl
  | succ fuel => exact if_neg (Nat.not_lt.2 hl)

/-- After as many passes as it takes to leave one group, one more changes nothing. -/
theorem mergeLoop_succ (c : Config) :
    ∀ (fuel : Nat) (gl : List Group), gl.length ≤ fuel + 1 → mergeLoop c (fuel + 1) gl = mergeLoop c fuel gl
  | 0, _, h => mergeLoop_of_length_le_one c 1 h
  | fuel + 1, gl, h => by
    rcases Nat.lt_or_ge 1 gl.length with hl | hl
    · have hless := length_mergeLowestTwo c hl
      rw [mergeLoop_of_two_le c _ hl, mergeLoop_of_two_le c _ hl, mergeLoop_succ c fuel _ (by omega)]
    · rw [mergeLoop_of_length_le_one c _ hl, mergeLoop_of_length_le_one c _ hl]

/-- Settles O26: each pass keeps the sum of the weights, and the one group left after `n - 1` passes has all of it. -/
theorem mergeWeightsNeverOverflow : Obligations.MergeWeightsNeverOverflow := by
  refine ⟨fun c gl hl hw => ⟨length_mergeLowestTwo c hl, weightSum_mergeLowestTwo c hl hw⟩, fun s h hn => ?_⟩
  obtain ⟨n, hn'⟩ : ∃ n, s.ftn.toNat = n + 1 := ⟨s.ftn.toNat - 1, by omega⟩
  have hlen : (initialGroups s.ftValid).length = n + 1 := by rw [length_initialGroups, length_ftValid h.stored, hn']
  have hone := length_mergeLoop s.cfg n _ (List.ne_nil_of_length_eq_add_one hlen) hlen.le
  obtain ⟨g, hg⟩ := List.length_eq_one_iff.1 hone
  have hsum : weightSum [g] = s.total.toNat := by
    rw [← hg, (mergeable_ftValid h).weightSum_mergeLoop, weightSum_ftValid h]
  rw [hn', Nat.add_sub_cancel, mergeLoop_succ s.cfg n _ hlen.le]
  exact ⟨g, hg, hg, BitVec.eq_of_toNat_eq (by simpa using hsum)⟩

/-! ### The greedy merge -/

/-- The one group the loop leaves is a result of the greedy merge (42_tree_builder.md R130). -/
theorem Mergeable.greedyMerge {c : Config} {final : Group} :
    ∀ (fuel : Nat) {gl : List Group}, Mergeable c gl → mergeLoop c fuel gl = [final] → GreedyMerge c gl final
  | 0, gl, _, e => by
    obtain rfl : gl = [final] := e
    exact .last final
  | fuel + 1, gl, h, e => by
    rcases Nat.lt_or_ge 1 gl.length with hl | hl
    · rw [mergeLoop_of_two_le c _ hl] at e
      have hnext := (h.mergeLowestTwo hl).greedyMerge fuel e
      obtain ⟨a, b, others, hp, ha, hb, hmerged⟩ := mergeLowestTwo_selects c hl h.distinct
      exact .merge gl a b (mergeGroups c a b) others final hp (fun x hx => Group.precedes_iff.1 (ha x hx))
        (fun x hx => Group.precedes_iff.1 (hb x hx)) (addCount_toNat_of_perm c hp h.fits) rfl (hmerged ▸ hnext)
    · obtain rfl : gl = [final] := mergeLoop_of_length_le_one c _ hl ▸ e
      exact .last final

/-- The least group is the same in whatever order the groups are listed (42_tree_builder.md R131). -/
theorem least_eq_of_perm {a b : Group} {xs ys : List Group} (hp : (a :: xs).Perm (b :: ys))
    (ha : ∀ x ∈ xs, SelectedBefore a x) (hb : ∀ y ∈ ys, SelectedBefore b y) : a = b := by
  rcases List.mem_cons.1 (hp.mem_iff.1 List.mem_cons_self) with rfl | hmem
  · rfl
  rcases List.mem_cons.1 (hp.mem_iff.2 List.mem_cons_self) with rfl | hmem'
  · rfl
  have hab := ha b hmem'
  have hba := hb a hmem
  unfold SelectedBefore at hab hba
  omega

theorem Group.eq_of_members_eq {x y : Group} (hw : x.w.toNat = y.w.toNat) (hm : x.members = y.members) : x = y := by
  cases x
  cases y
  obtain ⟨rfl, rfl⟩ := List.cons.inj hm
  obtain rfl := BitVec.eq_of_toNat_eq hw
  rfl

/-- The greedy merge has one result, in whatever order the groups are listed (42_tree_builder.md R139). -/
theorem GreedyMerge.eq_of_perm {c : Config} {gl gl' : List Group} {final final' : Group} (h : GreedyMerge c gl final)
    (h' : GreedyMerge c gl' final') (hp : gl.Perm gl') : final = final' := by
  induction h generalizing gl' final' with
  | last g =>
    cases h' with
    | last g' => exact List.singleton_perm_singleton.1 hp
    | merge _ _ _ _ _ _ removed => exact absurd (hp.trans removed).length_eq (by simp)
  | merge gl a b merged rest final removed leastA leastB weight members _ ih =>
    cases h' with
    | last g' => exact absurd (removed.symm.trans hp).length_eq (by simp)
    | merge _ a' b' merged' rest' _ removed' leastA' leastB' weight' members' next' =>
      have hperm := removed.symm.trans (hp.trans removed')
      obtain rfl := least_eq_of_perm hperm leastA leastA'
      have hperm := (List.perm_cons a).1 hperm
      obtain rfl := least_eq_of_perm hperm leastB leastB'
      have hperm := (List.perm_cons b).1 hperm
      obtain rfl := Group.eq_of_members_eq (weight.trans weight'.symm) (members.trans members'.symm)
      exact ih next' (hperm.cons merged)

end Sys2Proof.Machine
end

section
/-! PROOF. The codes of a group are the leaves of a full binary tree, from left to right (42_tree_builder.md R135,
R138). -/

namespace Sys2Proof.Machine

/-- The paths from the root of a full binary tree to its leaves, from left to right: 0 goes left, 1 goes right
(42_tree_builder.md R138). -/
inductive FullTree : List BitString → Prop where
  | leaf : FullTree [[]]
  | node {left right : List BitString} (hl : FullTree left) (hr : FullTree right) :
      FullTree (left.map (false :: ·) ++ right.map (true :: ·))

variable {codes : List BitString}

/-- Every bit string leads from the root to an inner node, or to a leaf and beyond (42_tree_builder.md R138). -/
theorem FullTree.covers (h : FullTree codes) (bits : BitString) : ∃ code ∈ codes, bits <+: code ∨ code <+: bits := by
  induction h generalizing bits with
  | leaf => exact ⟨[], List.mem_singleton_self _, .inr List.nil_prefix⟩
  | node _ _ ihl ihr =>
    match bits with
    | [] =>
      obtain ⟨code, hmem, -⟩ := ihl []
      exact ⟨false :: code, by simp [hmem], .inl List.nil_prefix⟩
    | false :: bits =>
      obtain ⟨code, hmem, hpre⟩ := ihl bits
      exact ⟨false :: code, by simp [hmem], by simpa [List.cons_prefix_cons] using hpre⟩
    | true :: bits =>
      obtain ⟨code, hmem, hpre⟩ := ihr bits
      exact ⟨true :: code, by simp [hmem], by simpa [List.cons_prefix_cons] using hpre⟩

/-- The sum of `2^(-len)` over the leaves is 1, here times `2^k` (42_tree_builder.md R138). -/
theorem FullTree.kraft_sum (h : FullTree codes) {k : Nat} (hk : ∀ code ∈ codes, code.length ≤ k) :
    (codes.map fun code => 2 ^ (k - code.length)).sum = 2 ^ k := by
  induction h generalizing k with
  | leaf => simp
  | @node left right hl _ ihl ihr =>
    obtain ⟨hkl, hkr⟩ : (∀ code ∈ left, code.length + 1 ≤ k) ∧ ∀ code ∈ right, code.length + 1 ≤ k := by
      simpa [or_imp, forall_and] using hk
    obtain ⟨k, rfl⟩ : ∃ m, k = m + 1 := by
      obtain ⟨code, hmem, -⟩ := hl.covers []
      have := hkl code hmem
      exact ⟨k - 1, by omega⟩
    have hleft := ihl fun code hc => Nat.le_of_succ_le_succ (hkl code hc)
    have hright := ihr fun code hc => Nat.le_of_succ_le_succ (hkr code hc)
    simp [Function.comp_def, hleft, hright, Nat.pow_succ, Nat.mul_two]

/-- The leaves from left to right are in lexicographic order (42_tree_builder.md R135). -/
theorem FullTree.sorted (h : FullTree codes) : codes.Pairwise (List.Lex fun x y => x = false ∧ y = true) := by
  induction h with
  | leaf => exact List.pairwise_singleton _ _
  | node _ _ ihl ihr =>
    have hcons (b : Bool) {cs : List BitString} (hcs : cs.Pairwise (List.Lex fun x y => x = false ∧ y = true)) :
        (cs.map (b :: ·)).Pairwise (List.Lex fun x y => x = false ∧ y = true) :=
      List.pairwise_map.2 (hcs.imp .cons)
    refine List.pairwise_append.2 ⟨hcons false ihl, hcons true ihr, fun x hx y hy => ?_⟩
    obtain ⟨x, -, rfl⟩ := List.mem_map.1 hx
    obtain ⟨y, -, rfl⟩ := List.mem_map.1 hy
    exact .rel ⟨rfl, rfl⟩

/-- A merge makes an inner node of two trees (42_tree_builder.md R132, R138). -/
theorem mergeGroups_fullTree (c : Config) {a b : Group} (ha : FullTree (a.members.map CodeEntry.code))
    (hb : FullTree (b.members.map CodeEntry.code)) : FullTree ((mergeGroups c a b).members.map CodeEntry.code) := by
  rw [mergeGroups_members, List.map_append, map_code_prependBit, map_code_prependBit]
  exact .node ha hb

theorem mergeLoop_fullTree (c : Config) (fuel : Nat) (slots : List FtSlot) :
    ∀ g ∈ mergeLoop c fuel (initialGroups slots), FullTree (g.members.map CodeEntry.code) := by
  refine mergeLoop_induction c (P := fun gl => ∀ g ∈ gl, FullTree (g.members.map CodeEntry.code))
    (fun gl hl h => ?_) fuel _ fun g hg => ?_
  · obtain ⟨a, b, others, hp, -, -, e⟩ := mergeLowestTwo_cases c hl
    simp only [hp.mem_iff, List.forall_mem_cons] at h
    obtain ⟨ha, hb, ho⟩ := h
    rw [e]
    exact List.forall_mem_cons.2 ⟨mergeGroups_fullTree c ha hb, ho⟩
  · obtain ⟨x, -, rfl⟩ := List.mem_map.1 hg
    exact .leaf

end Sys2Proof.Machine
end

section
/-! PROOF. `BUILD` in its three cases (42_tree_builder.md R130, R134, R136): the codebook it writes, and what it leaves
unchanged. -/

namespace Sys2Proof.Machine

/-! ### The codebook of a table -/

/-- The slots `BUILD` writes for the valid slots of `FT` (42_tree_builder.md R130). -/
def bookOf (c : Config) (slots : List FtSlot) : List CodeEntry :=
  match slots with
  | [] => []
  | [x] => [⟨x.sym, [false]⟩]
  | x :: y :: rest =>
    (mergeLoop c (x :: y :: rest).length (initialGroups (x :: y :: rest))).flatMap Group.members

/-- With two or more symbols the codebook is the one group that the loop leaves (42_tree_builder.md R135). -/
theorem bookOf_of_two_le (c : Config) {slots : List FtSlot} (h : 2 ≤ slots.length) :
    ∃ final, mergeLoop c slots.length (initialGroups slots) = [final] ∧ bookOf c slots = final.members := by
  match slots, h with
  | x :: y :: rest, _ =>
    obtain ⟨final, hfinal, -, -⟩ := mergeLoop_initialGroups c (slots := x :: y :: rest) (by simp)
    exact ⟨final, hfinal, by rw [bookOf, hfinal, List.flatMap_singleton]⟩

@[simp] theorem length_bookOf (c : Config) (slots : List FtSlot) : (bookOf c slots).length = slots.length := by
  match slots with
  | [] => rfl
  | [_] => rfl
  | _ :: _ :: _ => exact length_mergeLoop_members c _ _

/-! ### What `BUILD` leaves -/

section
variable {s : State}

theorem buildCodebook_of_empty (h : s.ftValid = []) :
    buildCodebook s = { s with cbn := 0#17, phase := .ready } := by
  rw [buildCodebook, h]

theorem buildCodebook_of_single {x : FtSlot} (h : s.ftValid = [x]) :
    buildCodebook s = { s with cb := writeSlot s.cb 0 ⟨x.sym, [false]⟩, cbn := 1#17, phase := .ready } := by
  rw [buildCodebook, h]

theorem buildCodebook_of_two_le (h : 2 ≤ s.ftValid.length) :
    buildCodebook s = { s with
      cb := bookOf s.cfg s.ftValid ++ s.cb.drop s.ftValid.length, cbn := s.ftn, gl := [], phase := .ready } := by
  rw [← length_bookOf s.cfg s.ftValid, buildCodebook]
  match s.ftValid, h with
  | x :: y :: rest, _ => simp only [State.commitCodebook, bookOf, length_initialGroups]

/-- The three cases in one: the codebook of the table goes to the first slots (42_tree_builder.md R130). -/
theorem buildCodebook_eq (h : TablesStored s) (hgl : s.gl = []) :
    buildCodebook s = { s with
      cb := bookOf s.cfg s.ftValid ++ s.cb.drop s.ftValid.length, cbn := s.ftn, phase := .ready } := by
  have hcbn := (buildCodebook_bookFor h).1
  match e : s.ftValid with
  | [] =>
    rw [buildCodebook_of_empty e] at hcbn ⊢
    rw [← hcbn]
    rfl
  | [x] =>
    rw [buildCodebook_of_single e] at hcbn ⊢
    rw [← hcbn]
    rfl
  | x :: y :: rest =>
    rw [buildCodebook_of_two_le (by simp [e]), ← hgl, e]

theorem cbValid_buildCodebook (h : TablesStored s) (hgl : s.gl = []) :
    (buildCodebook s).cbValid = bookOf s.cfg s.ftValid := by
  rw [buildCodebook_eq h hgl, State.cbValid, ← length_ftValid h, ← length_bookOf s.cfg, List.take_left']
  rfl

/-! ### `BUILD` as a command -/

theorem admitted_build_iff : admitted .build s = true ↔ s.phase = .idle ∨ s.phase = .count := by
  simp [admitted_iff, admittingPhases, neededOpenv]

/-- Without a fault pending, `BUILD` in IDLE or COUNT completes (42_tree_builder.md R130). -/
theorem exec_build_eq (hf : s.fault = none) (hp : s.phase = .idle ∨ s.phase = .count) :
    exec .build s = .next (buildCodebook s) :=
  exec_of_legal hf (admitted_build_iff.2 hp) rfl

theorem commandHeader_build :
    CommandHeader .build 0x2000000000000000#64 [.idle, .count] [false, true] (fun _ => 2 ^ 32) :=
  .of_admitted_iff (by decide) (fun s => by simp [admitted_build_iff]) fun _ h => absurd h (by simp [Instr.arg])

/-- The greedy merge from one group for each valid slot gives the codebook (42_tree_builder.md R130, R135). -/
theorem greedyMerge_bookOf (h : s.Inv) (hn : 2 ≤ s.ftn.toNat) :
    ∃ final, GreedyMerge s.cfg (initialGroups s.ftValid) final ∧ bookOf s.cfg s.ftValid = final.members := by
  obtain ⟨final, hloop, hbook⟩ := bookOf_of_two_le s.cfg (by rwa [length_ftValid h.stored])
  exact ⟨final, (mergeable_ftValid h).greedyMerge _ hloop, hbook⟩

theorem ftValid_of_ftn_one {x : FtSlot} (hn : s.ftn = 1#17) (hx : s.ft[0]? = some x) : s.ftValid = [x] := by
  have htake : s.ftValid = s.ft.take 1 := by rw [State.ftValid, hn]; rfl
  rw [htake, List.take_one, List.head?_eq_getElem?, hx]
  rfl

end

/-- Settles O22: the case of no valid slot. -/
theorem buildOfTheEmptyTable : Obligations.BuildOfTheEmptyTable := by
  intro s hf hp hn
  have hvalid : s.ftValid = [] := by simp [State.ftValid, hn]
  exact ⟨_, exec_build_eq hf hp, buildCodebook_of_empty hvalid, by rw [buildCodebook_of_empty hvalid]; rfl⟩

/-- Settles O23: the case of one valid slot, a write to slot 0. -/
theorem buildOfASingleSymbol : Obligations.BuildOfASingleSymbol := by
  intro s x hf hp hn hx
  refine ⟨_, exec_build_eq hf hp, ?_⟩
  rw [buildCodebook_of_single (ftValid_of_ftn_one hn hx)]
  exact ⟨rfl, getElem?_writeSlot_self _ _ _ (Nat.zero_le _), fun j => getElem?_writeSlot_ne _ _ _ (Nat.zero_le _)⟩

/-- The codebook of the worked trace (42_tree_builder.md R140). -/
theorem bookOf_abracadabra :
    bookOf Config.ref [⟨97#32, 5#32⟩, ⟨98#32, 2#32⟩, ⟨114#32, 2#32⟩, ⟨99#32, 1#32⟩, ⟨100#32, 1#32⟩] =
      [⟨97#32, [false]⟩, ⟨114#32, [true, false]⟩, ⟨98#32, [true, true, false]⟩,
        ⟨99#32, [true, true, true, false]⟩, ⟨100#32, [true, true, true, true]⟩] := by
  decide

/-- Settles O32: the case of two or more valid slots, and the loop run on the five of the trace. -/
theorem buildOfAbracadabra : Obligations.BuildOfAbracadabra := by
  intro s hc hf hp hn hft
  have hvalid : s.ftValid = s.ft.take 5 := by rw [State.ftValid, hn]; rfl
  refine ⟨_, exec_build_eq hf (.inr hp), ?_⟩
  rw [buildCodebook_of_two_le (by simp [hvalid, hft]), hvalid, hft, hc, bookOf_abracadabra]
  exact ⟨hn, rfl⟩

/-- Settles O24: the codebook of the table stands in the first `FTN` slots, and `GL` is empty again. -/
theorem buildRunsTheGreedyMerge : Obligations.BuildRunsTheGreedyMerge := by
  refine ⟨commandHeader_build, fun s h hf hp => ⟨_, exec_build_eq hf hp, ?_⟩⟩
  have hlen := length_ftValid h.stored
  rw [cbValid_buildCodebook h.stored h.latches.groups, buildCodebook_eq h.stored h.latches.groups]
  refine ⟨rfl, fun j hj => ?_, ?_, fun x hn hx => ?_, greedyMerge_bookOf h⟩
  · rw [List.getElem?_append_right (by simpa [hlen] using hj), List.getElem?_drop, length_bookOf,
      Nat.add_sub_cancel' (hlen ▸ hj)]
  · simp [State.emptyFlag, Phase.codebookComplete]
  · rw [ftValid_of_ftn_one hn hx, bookOf]

/-- Settles O27: in a group none of the codes begins another one, and every merge keeps that. -/
theorem builtCodebookIsPrefixFree : Obligations.BuiltCodebookIsPrefixFree := by
  intro s t h hf hp ht
  rw [exec_build hf hp ht]
  exact (buildCodebook_bookFor h.stored).2.prefixFree

/-- With two or more symbols the codes are the leaves of a full binary tree (42_tree_builder.md R138). -/
theorem fullTree_bookOf (c : Config) {slots : List FtSlot} (h : 2 ≤ slots.length) :
    FullTree ((bookOf c slots).map CodeEntry.code) := by
  obtain ⟨final, hloop, hbook⟩ := bookOf_of_two_le c h
  rw [hbook]
  exact mergeLoop_fullTree c slots.length slots final (by simp [hloop])

/-- Settles O29: the codes are the leaves of a full binary tree with `n` leaves. -/
theorem builtCodesFillTheTree : Obligations.BuiltCodesFillTheTree := by
  intro s t h hf hp ht
  obtain rfl := exec_build hf hp ht
  have hlen := length_ftValid h.stored
  have hlengths := (buildCodebook_bookFor h.stored).2.lengths
  rw [cbValid_buildCodebook h.stored h.latches.groups] at hlengths ⊢
  refine ⟨fun hn => ?_, fun hn e he => ?_⟩
  · have hsize := h.frequencyTable.size
    have htree := fullTree_bookOf s.cfg (hlen.symm ▸ hn)
    have hshort : ∀ e ∈ bookOf s.cfg s.ftValid, e.code.length ≤ s.ftn.toNat - 1 := fun e he => by
      have := (hlengths e he).2
      omega
    refine ⟨fun e he => ⟨List.length_pos_of_ne_nil (hlengths e he).1, hshort e he, ?_⟩, ?_, fun bits => ?_⟩
    · have := hshort e he
      rw [Config.maxLen]
      omega
    · simpa [Function.comp_def] using htree.kraft_sum (by simpa using hshort)
    · simpa using htree.covers bits
  · obtain ⟨x, hx⟩ := List.length_eq_one_iff.1 (hlen.trans (by rw [hn]; rfl))
    obtain rfl : e = ⟨x.sym, [false]⟩ := by simpa [hx, bookOf] using he
    simp

/-- Settles O30: the leaves of a full binary tree from left to right are sorted; fewer than two codes always are. -/
theorem builtCodebookIsSortedByCode : Obligations.BuiltCodebookIsSortedByCode := by
  intro s t h hf hp ht
  obtain rfl := exec_build hf hp ht
  rw [cbValid_buildCodebook h.stored h.latches.groups]
  refine ⟨greedyMerge_bookOf h, ?_⟩
  match e : s.ftValid with
  | [] => exact .nil
  | [x] => exact List.pairwise_singleton _ _
  | x :: y :: rest => exact List.pairwise_map.1 (fullTree_bookOf s.cfg (by simp)).sorted

end Sys2Proof.Machine
end

section
/-! PROOF. `BUILD` depends on the set of counts alone, and an encoding run on the text alone (42_tree_builder.md
R139). -/

namespace Sys2Proof.Machine

section
variable {s s' t t' u u' : State} {text text' : List Symbol}

/-! ### The codebook of a set of counts -/

/-- The order of the slots of `FT` has no influence on the codebook (42_tree_builder.md R139). -/
theorem bookOf_eq_of_perm (h : s.Inv) (h' : s'.Inv) (hc : s.cfg = s'.cfg) (hp : s.ftValid.Perm s'.ftValid) :
    bookOf s.cfg s.ftValid = bookOf s'.cfg s'.ftValid := by
  match e : s.ftValid with
  | [] =>
    rw [e] at hp
    rw [hc, List.nil_perm.1 hp]
  | [x] =>
    rw [e] at hp
    rw [hc, List.singleton_perm.1 hp]
  | x :: y :: rest =>
    have hlen : 2 ≤ s.ftValid.length := by simp [e]
    obtain ⟨final, hmerge, hbook⟩ := greedyMerge_bookOf h (length_ftValid h.stored ▸ hlen)
    obtain ⟨final', hmerge', hbook'⟩ := greedyMerge_bookOf h' (length_ftValid h'.stored ▸ hp.length_eq ▸ hlen)
    rw [hc] at hmerge
    obtain rfl : final = final' := hmerge.eq_of_perm hmerge' (hp.map _)
    rw [← e, hbook, hbook']

theorem buildCodebook_eq_of_perm (h : s.Inv) (h' : s'.Inv) (hc : s.cfg = s'.cfg) (hp : s.ftValid.Perm s'.ftValid) :
    (buildCodebook s).cbValid = (buildCodebook s').cbValid ∧ (buildCodebook s).cbn = (buildCodebook s').cbn := by
  rw [cbValid_buildCodebook h.stored h.latches.groups, cbValid_buildCodebook h'.stored h'.latches.groups,
    bookOf_eq_of_perm h h' hc hp, (buildCodebook_bookFor h.stored).1, (buildCodebook_bookFor h'.stored).1]
  exact ⟨rfl, BitVec.eq_of_toNat_eq (by rw [← length_ftValid h.stored, ← length_ftValid h'.stored, hp.length_eq])⟩

@[simp] theorem buildCodebook_cfg : (buildCodebook s).cfg = s.cfg := by rw [buildCodebook_frame]

@[simp] theorem buildCodebook_byteOut : (buildCodebook s).byteOut = s.byteOut := by rw [buildCodebook_frame]

/-! ### The table of a text -/

/-- The valid slots of `FT` are the pairs of a symbol of the text and its number of occurrences. -/
theorem CountedFrom.mem_ftValid_iff (h : CountedFrom s text t) {x : FtSlot} :
    x ∈ t.ftValid ↔ x.sym ∈ text ∧ x.count.toNat = text.count x.sym := by
  refine ⟨fun hx => ⟨h.mem_iff.2 ⟨x, hx, rfl⟩, h.counts x hx⟩, fun ⟨hsym, hcount⟩ => ?_⟩
  obtain ⟨y, hy, hys⟩ := h.mem_iff.1 hsym
  have hyc : y.count = x.count := BitVec.eq_of_toNat_eq (by rw [h.counts y hy, hys, hcount])
  cases x
  cases y
  cases hys
  cases hyc
  exact hy

theorem CountedFrom.ftValid_perm (h : CountedFrom s text t) (h' : CountedFrom s' text' t') (hp : text.Perm text') :
    t.ftValid.Perm t'.ftValid := by
  refine (List.perm_ext_iff_of_nodup h.inv.frequencyTable.distinct.of_map h'.inv.frequencyTable.distinct.of_map).2
    fun x => ?_
  rw [h.mem_ftValid_iff, h'.mem_ftValid_iff, hp.mem_iff, hp.count_eq]

theorem CountedFrom.cfg_eq (h : CountedFrom s text t) : t.cfg = s.cfg := by
  obtain ⟨_, _, _, _, rfl⟩ := h.frame
  rfl

theorem CountedFrom.byteOut_eq (h : CountedFrom s text t) : t.byteOut = s.byteOut := by
  obtain ⟨_, _, _, _, rfl⟩ := h.frame
  rfl

/-- Texts with the same symbol counts have the same codebook (42_tree_builder.md R139). -/
theorem CountedFrom.cbValid_buildCodebook_eq (h : CountedFrom s text t) (h' : CountedFrom s' text' t')
    (hc : s.cfg = s'.cfg) (hp : text.Perm text') : (buildCodebook t).cbValid = (buildCodebook t').cbValid :=
  (buildCodebook_eq_of_perm h.inv h'.inv (by rw [h.cfg_eq, h'.cfg_eq, hc]) (h.ftValid_perm h' hp)).1

/-! ### Runs taken apart -/

theorem runInstrs_append {is js : List Instr} :
    runInstrs (is ++ js) s = .next t ↔ ∃ u, runInstrs is s = .next u ∧ runInstrs js u = .next t := by
  induction is generalizing s with
  | nil => simp [runInstrs_nil]
  | cons i is ih =>
    simp only [List.cons_append, runInstrs_cons, ih]
    exact ⟨fun ⟨v, hv, u, his, hjs⟩ => ⟨u, ⟨v, hv, his⟩, hjs⟩, fun ⟨u, ⟨v, hv, his⟩, hjs⟩ => ⟨v, hv, u, his, hjs⟩⟩

theorem RunsWithoutFault.append {is js : List Instr} (hclear : .clear ∉ js) (h : RunsWithoutFault (is ++ js) s t) :
    ∃ u, RunsWithoutFault is s u ∧ RunsWithoutFault js u t := by
  obtain ⟨hrun, hf⟩ := h
  obtain ⟨u, his, hjs⟩ := runInstrs_append.1 hrun
  have hrest : RunsWithoutFault js u t := ⟨hjs, hf⟩
  exact ⟨u, ⟨his, hrest.fault_eq_none hclear⟩, hrest⟩

theorem RunsWithoutFault.cons {i : Instr} {is : List Instr} (hclear : .clear ∉ i :: is)
    (h : RunsWithoutFault (i :: is) s t) : ∃ u, commandRule i s = .done u ∧ RunsWithoutFault is u t := by
  obtain ⟨hi, hclear⟩ := List.ne_and_not_mem_of_not_mem_cons hclear
  obtain ⟨hrun, hf⟩ := h
  obtain ⟨u, hu, hrun⟩ := runInstrs_cons.1 hrun
  have hrest : RunsWithoutFault is u t := ⟨hrun, hf⟩
  obtain ⟨-, -, -, hdone⟩ := exec_without_fault hi.symm hu (hrest.fault_eq_none hclear)
  exact ⟨u, hdone, hrest⟩

/-- A counting pass with `BUILD` at its end, and what follows it. -/
theorem RunsWithoutFault.countAndBuild {is : List Instr} (h : s.Inv) (hp : s.phase = .idle) (hclear : .clear ∉ is)
    (hrun : RunsWithoutFault (Pseudo.cntStr text ++ .build :: is) s t) :
    ∃ u, CountedFrom s text u ∧ RunsWithoutFault is (buildCodebook u) t := by
  have hclear' : .clear ∉ .build :: is := by simp [hclear]
  obtain ⟨u, hcount, hrun⟩ := hrun.append hclear'
  obtain ⟨v, hbuild, hrun⟩ := hrun.cons hclear'
  obtain rfl := Progress.done.inj hbuild
  exact ⟨u, (countedFrom_nil h hp).run hcount, hrun⟩

/-! ### Two pack runs over the same text -/

/-- Since `s` and `s'` the same bits were packed, with the same codebook, in `u` and `u'` (43_bit_packer.md R154). -/
structure SamePacking (s s' u u' : State) : Prop where
  cfg : u.cfg = u'.cfg
  book : u.cbValid = u'.cbValid
  pacc : u.pacc = u'.pacc
  pcnt : u.pcnt = u'.pcnt
  bytes : ∃ bytes, u.byteOut = s.byteOut ++ bytes ∧ u'.byteOut = s'.byteOut ++ bytes

theorem SamePacking.emitByte (h : SamePacking s s' u u') (v : Byte) :
    SamePacking s s' (u.emitByte v) (u'.emitByte v) where
  cfg := h.cfg
  book := h.book
  pacc := h.pacc
  pcnt := h.pcnt
  bytes := by
    obtain ⟨bytes, hu, hu'⟩ := h.bytes
    exact ⟨bytes ++ [v], by simp [hu], by simp [hu']⟩

theorem SamePacking.pushBit (h : SamePacking s s' u u') (b : Bool) : SamePacking s s' (u.pushBit b) (u'.pushBit b) := by
  rw [State.pushBit, State.pushBit, h.pacc, h.pcnt]
  split
  · exact { h.emitByte _ with pacc := rfl, pcnt := rfl }
  · exact { h with pacc := rfl, pcnt := rfl }

theorem SamePacking.pushBits (code : BitString) (h : SamePacking s s' u u') :
    SamePacking s s' (u.pushBits code) (u'.pushBits code) := by
  induction code generalizing u u' with
  | nil => exact h
  | cons b code ih => exact ih (h.pushBit b)

theorem SamePacking.packSym {a : Word} (h : SamePacking s s' u u') (ht : commandRule (.packSym a) u = .done t)
    (ht' : commandRule (.packSym a) u' = .done t') : SamePacking s s' t t' := by
  rw [commandRule, packSymbol, State.cbFindSym, h.cfg, h.book] at ht
  rw [commandRule, packSymbol, State.cbFindSym] at ht'
  cases hfind : u'.cbValid.find? (fun x => x.sym == symbolOperand u'.cfg a) with
  | none =>
    rw [hfind] at ht
    cases ht
  | some e =>
    rw [hfind] at ht ht'
    cases ht
    cases ht'
    exact h.pushBits e.code

theorem SamePacking.packStr (h : SamePacking s s' u u') (hrun : RunsWithoutFault (Pseudo.packStr text) u t)
    (hrun' : RunsWithoutFault (Pseudo.packStr text) u' t') : SamePacking s s' t t' := by
  induction text generalizing u u' with
  | nil =>
    obtain rfl := runInstrs_nil.1 hrun.1
    obtain rfl := runInstrs_nil.1 hrun'.1
    exact h
  | cons a text ih =>
    have hclear : .clear ∉ Pseudo.packStr (a :: text) := by simp [Pseudo.packStr]
    obtain ⟨v, hv, hrun⟩ := hrun.cons hclear
    obtain ⟨v', hv', hrun'⟩ := hrun'.cons hclear
    exact ih (h.packSym hv hv') hrun hrun'

/-- Packing the same bits ends with the same padding (43_bit_packer.md R156). -/
theorem SamePacking.finishPacking (h : SamePacking s s' u u') :
    SamePacking s s' (finishPacking u) (finishPacking u') ∧ (finishPacking u).pad = (finishPacking u').pad := by
  rw [Machine.finishPacking, Machine.finishPacking, h.pacc, h.pcnt]
  split
  · exact ⟨{ h.emitByte _ with pacc := rfl, pcnt := rfl }, rfl⟩
  · exact ⟨{ h with pacc := rfl, pcnt := rfl }, rfl⟩

theorem RunsWithoutFault.eq_finishPacking (h : RunsWithoutFault [.packEnd] s t) : t = Machine.finishPacking s := by
  obtain ⟨u, hdone, hrun⟩ := h.cons (by simp)
  rw [← runInstrs_nil.1 hrun.1, Progress.done.inj hdone]

/-- `PACK_BEGIN` empties the packer (43_bit_packer.md R150). -/
theorem samePacking_packBegin (hc : s.cfg = s'.cfg) (hbook : s.cbValid = s'.cbValid)
    (ht : commandRule .packBegin s = .done t) (ht' : commandRule .packBegin s' = .done t') : SamePacking s s' t t' := by
  cases ht
  cases ht'
  exact ⟨hc, hbook, rfl, rfl, [], by simp, by simp⟩

/-- Pack runs over one text with one codebook emit the same bytes and end with the same padding (43_bit_packer.md R150
to R156). -/
theorem samePacking_of_packRuns (hc : s.cfg = s'.cfg) (hbook : s.cbValid = s'.cbValid)
    (hrun : RunsWithoutFault (.packBegin :: Pseudo.packStr text ++ [.packEnd]) s t)
    (hrun' : RunsWithoutFault (.packBegin :: Pseudo.packStr text ++ [.packEnd]) s' t') :
    SamePacking s s' t t' ∧ t.pad = t'.pad := by
  have hclear : .clear ∉ .packBegin :: Pseudo.packStr text := by simp [Pseudo.packStr]
  obtain ⟨w, hrun, hend⟩ := hrun.append (by simp)
  obtain ⟨w', hrun', hend'⟩ := hrun'.append (by simp)
  obtain ⟨v, hbegin, hrun⟩ := hrun.cons hclear
  obtain ⟨v', hbegin', hrun'⟩ := hrun'.cons hclear
  have hpacked := (samePacking_packBegin hc hbook hbegin hbegin').packStr hrun hrun'
  obtain rfl := hend.eq_finishPacking
  obtain rfl := hend'.eq_finishPacking
  exact hpacked.finishPacking

end

/-- Settles O31: the greedy merge has one result in whatever order the slots are listed, texts with the same symbol
counts have tables that are permutations of one another, and the codes of a text decide the bits packed. -/
theorem buildDependsOnlyOnTheSetOfCounts : Obligations.BuildDependsOnlyOnTheSetOfCounts := by
  intro s s' t t' h h' hc hf hf'
  refine ⟨fun hp hp' hperm ht ht' => ?_, fun text text' hp hp' hperm hrun hrun' => ?_, fun text hp hp' hrun hrun' => ?_⟩
  · rw [exec_build hf hp ht, exec_build hf' hp' ht']
    exact buildCodebook_eq_of_perm h h' hc hperm
  · obtain ⟨u, hu, hrun⟩ := hrun.countAndBuild h hp (by simp)
    obtain ⟨u', hu', hrun'⟩ := hrun'.countAndBuild h' hp' (by simp)
    obtain rfl := runInstrs_nil.1 hrun.1
    obtain rfl := runInstrs_nil.1 hrun'.1
    exact hu.cbValid_buildCodebook_eq hu' hc hperm
  · have hclear : .clear ∉ .packBegin :: Pseudo.packStr text ++ [.packEnd] := by simp [Pseudo.packStr]
    rw [Pseudo.encodeText, List.append_assoc] at hrun hrun'
    obtain ⟨u, hu, hrun⟩ := hrun.countAndBuild h hp hclear
    obtain ⟨u', hu', hrun'⟩ := hrun'.countAndBuild h' hp' hclear
    obtain ⟨hpacked, hpad⟩ := samePacking_of_packRuns (by simp [hu.cfg_eq, hu'.cfg_eq, hc])
      (hu.cbValid_buildCodebook_eq hu' hc (.refl text)) hrun hrun'
    obtain ⟨bytes, hbytes, hbytes'⟩ := hpacked.bytes
    exact ⟨bytes, by simpa [hu.byteOut_eq] using hbytes, by simpa [hu'.byteOut_eq] using hbytes', hpad, hpacked.book⟩

end Sys2Proof.Machine
end

section
/-! PROOF. The Bit Packer: `PACK_BEGIN` (43_bit_packer.md R150), `PushBit` (R154), `PACK_SYM` (R152), `PACK_END` (R156)
and a whole pack run (R157). -/

namespace Sys2Proof.Machine

/-! ### The bits of a byte (20_memory.md R69) -/

@[simp] theorem length_byteBits (v : Byte) : (byteBits v).length = 8 := rfl

/-- A bit that enters at the bottom becomes the last one, and the first one is lost. -/
theorem byteBits_shiftIn (v : Byte) (b : Bool) :
    byteBits ((v <<< 1) ||| (BitVec.ofBool b).zeroExtend 8) = (byteBits v).drop 1 ++ [b] := by
  cases b <;> simp [byteBits]

theorem byteBits_shiftLeft_one (v : Byte) : byteBits (v <<< 1) = (byteBits v).drop 1 ++ [false] := by
  simpa using byteBits_shiftIn v false

/-- A shift by `k` drops the first `k` bits and puts `k` zeros at the end. -/
theorem byteBits_shiftLeft (v : Byte) {k : Nat} (hk : k ≤ 8) :
    byteBits (v <<< k) = (byteBits v).drop k ++ List.replicate k false := by
  induction k with
  | zero => simp
  | succ k ih =>
    have hroom : 1 ≤ ((byteBits v).drop k).length := by rw [List.length_drop, length_byteBits]; omega
    rw [BitVec.shiftLeft_add, byteBits_shiftLeft_one, ih (by omega), List.drop_append_of_le_length hroom,
      List.drop_drop, List.append_assoc, ← List.replicate_succ']

theorem length_flatMap_byteBits (bytes : List Byte) : (bytes.flatMap byteBits).length = 8 * bytes.length := by
  simp [List.length_flatMap, Nat.mul_comm]

/-! ### The bitstream (20_memory.md R69) -/

section
variable {s t : State}

/-- `PCNT` counts the bits beyond the whole bytes, so the length of the bitstream gives the byte count and `PCNT`. -/
theorem length_packedBits (s : State) : s.packedBits.length = 8 * s.byteOut.length + s.pcnt.toNat := by
  rw [State.packedBits, State.pendingBits, List.length_append, length_flatMap_byteBits, List.length_drop,
    length_byteBits]
  omega

theorem packedBits_of_pcnt_zero (h : s.pcnt = 0#3) : s.packedBits = s.byteOut.flatMap byteBits := by
  simp [State.packedBits, State.pendingBits, h]

/-- What a longer bitstream says of `PCNT` and of the number of bytes emitted. -/
theorem counts_of_packedBits_append {bits : BitString} (h : t.packedBits = s.packedBits ++ bits) :
    t.pcnt.toNat = (s.pcnt.toNat + bits.length) % 8 ∧
    t.byteOut.length = s.byteOut.length + (s.pcnt.toNat + bits.length) / 8 := by
  have hlength := congrArg List.length h
  rw [List.length_append, length_packedBits, length_packedBits] at hlength
  omega

/-! ### `PushBit` -/

theorem packedBits_pushBit (s : State) (b : Bool) : (s.pushBit b).packedBits = s.packedBits ++ [b] := by
  rw [State.pushBit]
  split
  · next hfull =>
    have hcnt : s.pcnt.toNat = 7 := by omega
    simp [State.packedBits, State.pendingBits, byteBits_shiftIn, hcnt]
  · next hroom =>
    have hcnt : (s.pcnt + 1#3).toNat = s.pcnt.toNat + 1 := by
      rw [BitVec.toNat_add, BitVec.toNat_ofNat]
      omega
    have hdrop : 1 + (8 - (s.pcnt.toNat + 1)) = 8 - s.pcnt.toNat := by omega
    simp only [State.packedBits, State.pendingBits, hcnt, byteBits_shiftIn, List.append_assoc]
    rw [List.drop_append_of_le_length (by simp), List.drop_drop, hdrop]

/-- Settles O34: both counts follow from the length of the bitstream, which grows by the bit. -/
theorem pushBitAppendsOneBit : Obligations.PushBitAppendsOneBit := by
  intro s b
  have hbits := packedBits_pushBit s b
  obtain ⟨hcnt, hbytes⟩ := counts_of_packedBits_append hbits
  exact ⟨hbits, hcnt, hbytes, pushBit_pending b, pushBit_frame s b⟩

theorem packedBits_pushBits (code : BitString) (s : State) : (s.pushBits code).packedBits = s.packedBits ++ code := by
  induction code generalizing s with
  | nil => rw [pushBits_nil, List.append_nil]
  | cons b code ih => rw [pushBits_cons, ih, packedBits_pushBit, List.append_assoc, List.singleton_append]

theorem pushBits_append (code rest : BitString) (s : State) :
    s.pushBits (code ++ rest) = (s.pushBits code).pushBits rest := List.foldl_append

@[simp] theorem pushBits_phase (code : BitString) (s : State) : (s.pushBits code).phase = s.phase := by
  rw [pushBits_frame]

@[simp] theorem pushBits_fault (code : BitString) (s : State) : (s.pushBits code).fault = s.fault := by
  rw [pushBits_frame]

@[simp] theorem pushBits_cbValid (code : BitString) (s : State) : (s.pushBits code).cbValid = s.cbValid := by
  rw [pushBits_frame]
  rfl

/-! ### `PACK_BEGIN` -/

theorem admitted_packBegin_iff : admitted .packBegin s = true ↔ s.phase = .ready := by
  simp [admitted_iff, admittingPhases, neededOpenv]

theorem commandHeader_packBegin :
    CommandHeader .packBegin 0x3000000000000000#64 [.ready] [false, true] (fun _ => 2 ^ 32) :=
  .of_admitted_iff (by decide) (fun s => by simp [admitted_packBegin_iff]) fun _ h => absurd h (by simp [Instr.arg])

theorem exec_packBegin (hf : s.fault = none) (hp : s.phase = .ready) :
    exec .packBegin s = .next { s with pacc := 0#8, pcnt := 0#3, phase := .pack } :=
  exec_of_legal hf (admitted_packBegin_iff.2 hp) rfl

/-- Settles O33: its word, its admission and its rule. -/
theorem packBeginOpensAPackRun : Obligations.PackBeginOpensAPackRun :=
  ⟨commandHeader_packBegin, fun _ => exec_packBegin⟩

/-! ### `PACK_SYM` -/

theorem admitted_packSym_iff {a : Word} : admitted (.packSym a) s = true ↔ s.phase = .pack := by
  simp [admitted_iff, admittingPhases, neededOpenv]

theorem commandHeader_packSym (a : Word) :
    CommandHeader (.packSym a) (0x3100000000000000#64 ||| a.zeroExtend 64) [.pack] [false, true]
      (fun c => 2 ^ c.symw) := by
  refine .of_admitted_iff (encode_eq_pattern_or rfl (by decide) (by decide)) (fun s => ?_) fun _ => not_operandLegal rfl
  simp [admitted_packSym_iff]

/-- In range the operand is the symbol itself, so `PACK_SYM` ends as its rule for that symbol does. -/
theorem exec_packSym {a : Word} (hf : s.fault = none) (hp : s.phase = .pack) (ha : a.toNat < 2 ^ s.cfg.symw) :
    exec (.packSym a) s = .next ((packSymbol a s).finish (encode (.packSym a))) := by
  rw [exec_of_legal hf (admitted_packSym_iff.2 hp) (decide_eq_true ha), commandRule, symbolOperand_eq s.cfg a ha]

theorem packSymbol_of_missing {sym : Symbol} (h : ∀ e ∈ s.cbValid, e.sym ≠ sym) :
    packSymbol sym s = .raised .missingCode s := by
  rw [packSymbol, cbFindSym_eq_none_iff.2 h]

/-- A symbol of the codebook has one entry (10_state.md R40 (a)), whose code is pushed. -/
theorem packSymbol_of_entry {e : CodeEntry} (h : CodebookOk s) (he : e ∈ s.cbValid) :
    packSymbol e.sym s = .done (s.pushBits e.code) := by
  rw [packSymbol, cbFindSym_eq_some_of_nodup h.distinctSyms he]

/-- `PACK_SYM` of a symbol of the codebook. -/
theorem exec_packSym_of_entry {e : CodeEntry} (h : s.Inv) (hf : s.fault = none) (hp : s.phase = .pack)
    (he : e ∈ s.cbValid) : exec (.packSym e.sym) s = .next (s.pushBits e.code) := by
  rw [exec_packSym hf hp (h.widths.cbSyms e he), packSymbol_of_entry h.codebook he, Progress.finish_done]

/-- Settles O35: the two ends of the rule, and what pushing a code leaves. -/
theorem packSymPushesTheCode : Obligations.PackSymPushesTheCode := by
  refine ⟨commandHeader_packSym, fun s a h hf hp ha => ⟨fun hmissing => ?_, fun e he hsym => ?_⟩⟩
  · rw [exec_packSym hf hp ha, packSymbol_of_missing hmissing, Progress.finish_raised, State.raise]
  · subst hsym
    have hbits := packedBits_pushBits e.code s
    obtain ⟨hcnt, hbytes⟩ := counts_of_packedBits_append hbits
    exact ⟨_, exec_packSym_of_entry h hf hp he, pushBits_frame _ _, byteOut_pushBits _ _, hbits, hcnt,
      pushBits_pending _ h.phase.pending, hbytes⟩

/-! ### `PACK_END` -/

theorem admitted_packEnd_iff : admitted .packEnd s = true ↔ s.phase = .pack := by
  simp [admitted_iff, admittingPhases, neededOpenv]

theorem commandHeader_packEnd :
    CommandHeader .packEnd 0x3200000000000000#64 [.pack] [false, true] (fun _ => 2 ^ 32) :=
  .of_admitted_iff (by decide) (fun s => by simp [admitted_packEnd_iff]) fun _ h => absurd h (by simp [Instr.arg])

theorem exec_packEnd (hf : s.fault = none) (hp : s.phase = .pack) : exec .packEnd s = .next (finishPacking s) :=
  exec_of_legal hf (admitted_packEnd_iff.2 hp) rfl

theorem paddingFor_toNat (pcnt : BitVec 3) : (paddingFor pcnt).toNat = (8 - pcnt.toNat) % 8 := by
  rw [paddingFor, BitVec.toNat_ofNat, Nat.mod_mod]

/-- On a byte boundary `PACK_END` writes `PAD` and `PHASE` only. -/
theorem finishPacking_of_whole (h : s.pcnt = 0#3) : finishPacking s = { s with pad := 0#3, phase := .ready } := by
  rw [finishPacking, h]
  rfl

/-- Off a byte boundary the pending bits become the last byte, with zeros behind them. -/
theorem finishPacking_of_partial (h : s.pcnt ≠ 0#3) :
    finishPacking s = { s with
      pad := paddingFor s.pcnt, byteOut := s.byteOut ++ [s.pacc <<< (8 - s.pcnt.toNat)], pacc := 0#8, pcnt := 0#3,
      phase := .ready } := by
  rw [finishPacking, if_pos (Nat.pos_of_ne_zero fun e => h (BitVec.eq_of_toNat_eq e))]
  rfl

theorem finishPacking_pad (s : State) : (finishPacking s).pad = paddingFor s.pcnt := by
  rw [finishPacking]
  split <;> rfl

/-- `PACK_END` appends `PAD` zeros to the bitstream (43_bit_packer.md R156). -/
theorem packedBits_finishPacking (s : State) :
    (finishPacking s).packedBits = s.packedBits ++ List.replicate (finishPacking s).pad.toNat false := by
  by_cases hcnt : s.pcnt = 0#3
  · rw [finishPacking_of_whole hcnt]
    exact (List.append_nil _).symm
  · have hpad : (paddingFor s.pcnt).toNat = 8 - s.pcnt.toNat := by
      rw [paddingFor_toNat]
      have : s.pcnt.toNat ≠ 0 := fun e => hcnt (BitVec.eq_of_toNat_eq e)
      omega
    rw [finishPacking_of_partial hcnt, packedBits_of_pcnt_zero rfl]
    simp [State.packedBits, State.pendingBits, hpad, byteBits_shiftLeft]

/-- Settles O36: the padding, the zeros appended, and the rule on and off a byte boundary. -/
theorem packEndPadsTheLastByte : Obligations.PackEndPadsTheLastByte := by
  refine ⟨commandHeader_packEnd, fun s hf hp => ⟨_, exec_packEnd hf hp, ?_, packedBits_finishPacking s,
    finishPacking_of_whole, fun hcnt => ⟨s.pacc <<< (8 - s.pcnt.toNat), ?_⟩⟩⟩
  · rw [finishPacking_pad, paddingFor_toNat]
  · rw [finishPacking_of_partial hcnt]

/-! ### A pack run -/

/-- Every command keeps the invariant. -/
theorem inv_exec {i : Instr} (h : s.Inv) (ht : exec i s = .next t) : t.Inv :=
  exec_induction ht h (fun _ => inv_clear h) (fun _ f hu => inv_raise hu f _) (inv_commandRule h)

/-- The state in which a pack run that began in `s` has pushed `bits` (43_bit_packer.md R150, R152). -/
def State.packRun (s : State) (bits : BitString) : State :=
  { s with pacc := 0#8, pcnt := 0#3, phase := .pack }.pushBits bits

/-- The latches are empty at the start, so the bitstream is that of the bytes emitted before and then the run's bits. -/
theorem packedBits_packRun (s : State) (bits : BitString) :
    (s.packRun bits).packedBits = s.byteOut.flatMap byteBits ++ bits := by
  rw [State.packRun, packedBits_pushBits, packedBits_of_pcnt_zero rfl]

theorem packRun_pcnt (s : State) (bits : BitString) : (s.packRun bits).pcnt.toNat = bits.length % 8 :=
  (counts_of_packedBits_append (packedBits_pushBits bits _)).1.trans (by simp)

/-- The bytes of a pack run spell its bits and the padding (43_bit_packer.md R157). -/
theorem finishPacking_packRun (s : State) (bits : BitString) : ∃ bytes,
    (finishPacking (s.packRun bits)).byteOut = s.byteOut ++ bytes ∧
    bytes.flatMap byteBits = bits ++ List.replicate (finishPacking (s.packRun bits)).pad.toNat false := by
  obtain ⟨bytes, hbytes⟩ := (byteOut_pushBits bits _).trans (byteOut_finishPacking (s.packRun bits))
  have hempty := finishPacking_empty (s := s.packRun bits) (pushBits_pending bits Nat.one_pos)
  have hend := packedBits_finishPacking (s.packRun bits)
  rw [packedBits_of_pcnt_zero hempty.1, packedBits_packRun, ← hbytes, List.flatMap_append, List.append_assoc] at hend
  exact ⟨bytes, hbytes.symm, List.append_cancel_left hend⟩

variable {text : List Symbol} {codes : List BitString}

/-- `PACK_SYM` for each symbol of a text with codes pushes the codes one after another (43_bit_packer.md R152). -/
theorem runInstrs_packStr (hcodes : List.Forall₂ (fun x c => (⟨x, c⟩ : CodeEntry) ∈ s.cbValid) text codes)
    (h : s.Inv) (hf : s.fault = none) (hp : s.phase = .pack) :
    runInstrs (Pseudo.packStr text) s = .next (s.pushBits codes.flatten) := by
  induction text generalizing s codes with
  | nil =>
    cases hcodes
    rfl
  | cons x text ih =>
    obtain ⟨c, codes, hx, hcodes, rfl⟩ := List.forall₂_cons_left_iff.1 hcodes
    have hpush := exec_packSym_of_entry h hf hp hx
    refine runInstrs_cons.2 ⟨_, hpush, ?_⟩
    rw [List.flatten_cons, pushBits_append]
    exact ih (by rwa [pushBits_cbValid]) (inv_exec h hpush) (by rwa [pushBits_fault]) (by rwa [pushBits_phase])

/-- A pack run up to the padding. -/
theorem runsWithoutFault_packRun (hcodes : List.Forall₂ (fun x c => (⟨x, c⟩ : CodeEntry) ∈ s.cbValid) text codes)
    (h : s.Inv) (hf : s.fault = none) (hp : s.phase = .ready) :
    RunsWithoutFault (.packBegin :: Pseudo.packStr text) s (s.packRun codes.flatten) := by
  have hbegin := exec_packBegin hf hp
  exact ⟨runInstrs_cons.2 ⟨_, hbegin, runInstrs_packStr hcodes (inv_exec h hbegin) hf rfl⟩,
    by rwa [State.packRun, pushBits_fault]⟩

end

/-- Settles O37: before `PACK_END` the bitstream has grown by the codes, and `PACK_END` fills up the last byte, so that
the bitstream is then the bits of the whole bytes. -/
theorem packRunProducesThePaddedBitstream : Obligations.PackRunProducesThePaddedBitstream := by
  intro s text codes h hf hp hcodes
  refine ⟨fun k _ => ⟨_, runsWithoutFault_packRun (List.forall₂_take k hcodes) h hf hp, packRun_pcnt s _⟩, ?_⟩
  obtain ⟨hrun, hfault⟩ := runsWithoutFault_packRun hcodes h hf hp
  obtain ⟨bytes, hbytes, hbits⟩ := finishPacking_packRun s codes.flatten
  have hend : exec .packEnd (s.packRun codes.flatten) = .next (finishPacking (s.packRun codes.flatten)) :=
    exec_packEnd hfault (by rw [State.packRun, pushBits_phase])
  refine ⟨finishPacking (s.packRun codes.flatten), bytes,
    ⟨runInstrs_append.2 ⟨_, hrun, runInstrs_cons.2 ⟨_, hend, rfl⟩⟩, ?_⟩, ?_, ?_, hbytes, ?_, hbits⟩
  · rwa [finishPacking_frame]
  · rw [finishPacking_frame]
  · rw [finishPacking_pad, paddingFor_toNat, packRun_pcnt]
  · have hlength := congrArg List.length hbits
    rwa [length_flatMap_byteBits, List.length_append, List.length_replicate] at hlength

end Sys2Proof.Machine
end

section
/-! PROOF. The walk engine computes the greedy parse (44_unpacker_decoder.md R172), which takes no entry that begins
with another one (R181). -/

namespace Sys2Proof.Machine

/-! ### The greedy parse from the accumulator -/

/-- What the walk engine relies on: codes that are not empty, fit the accumulator and differ from each other
(10_state.md R40), and an accumulator that no entry is a prefix of (44_unpacker_decoder.md R172). -/
structure WalkReady (s : State) : Prop where
  distinctCodes : (s.cbValid.map CodeEntry.code).Nodup
  lengths : ∀ e ∈ s.cbValid, e.code ≠ [] ∧ e.code.length ≤ s.cfg.maxLen
  fits : s.acc.length ≤ s.cfg.maxLen
  unmatched : ∀ e ∈ s.cbValid, ¬ e.code <+: s.acc

theorem State.Inv.walkReady {s : State} (h : s.Inv) : WalkReady s :=
  ⟨h.codebook.distinctCodes, h.codebook.lengths, h.widths.acc, h.latches.unmatched⟩

section
variable {s t : State} {b : Bool} {bits : BitString} {syms : List Symbol} {left : BitString}

/-- With no more bits the accumulator is what is left. -/
theorem WalkReady.greedyParse_acc_iff (h : WalkReady s) :
    GreedyParse s.cbValid s.cfg.maxLen s.acc syms left ↔ syms = [] ∧ left = s.acc := by
  constructor
  · intro hp
    generalize hacc : s.acc = bits at hp
    cases hp with
    | rest => exact ⟨rfl, rfl⟩
    | symbol e bits syms _ he => exact absurd (hacc ▸ List.prefix_append _ _) (h.unmatched e he)
  · rintro ⟨rfl, rfl⟩
    exact .rest _ h.fits h.unmatched

/-- A full accumulator with one more bit has no parse: what is left may not be longer, and no code is. -/
theorem WalkReady.not_greedyParse_of_full (h : WalkReady s) (hfull : s.acc.length = s.cfg.maxLen) :
    ¬ GreedyParse s.cbValid s.cfg.maxLen (s.acc ++ b :: bits) syms left := by
  intro hp
  generalize hall : s.acc ++ b :: bits = all at hp
  cases hp with
  | rest _ fits =>
    rw [← hall, List.length_append, List.length_cons] at fits
    omega
  | symbol e rest _ _ he =>
    have hcode : e.code <+: s.acc ++ b :: bits := hall ▸ List.prefix_append _ _
    exact h.unmatched e he (List.prefix_of_prefix_length_le hcode (List.prefix_append _ _)
      (hfull ▸ (h.lengths e he).2))

/-- As no entry is a prefix of the accumulator, an entry that one more bit completes is the shortest one. -/
theorem WalkReady.shortest (h : WalkReady s) {d : CodeEntry} (hd : d ∈ s.cbValid) (hpre : d.code <+: s.acc ++ [b]) :
    d.code = s.acc ++ [b] :=
  (List.prefix_concat_iff.1 hpre).resolve_right (h.unmatched d hd)

/-- An entry that the next bit completes is the next symbol of the parse. -/
theorem WalkReady.greedyParse_matched_iff (h : WalkReady s) {e : CodeEntry} (he : e ∈ s.cbValid)
    (hcode : e.code = s.acc ++ [b]) :
    GreedyParse s.cbValid s.cfg.maxLen (s.acc ++ b :: bits) syms left ↔
      ∃ rest, syms = e.sym :: rest ∧ GreedyParse s.cbValid s.cfg.maxLen bits rest left := by
  rw [List.append_cons, ← hcode]
  constructor
  · intro hp
    generalize hall : e.code ++ bits = all at hp
    cases hp with
    | rest _ _ unmatched => exact absurd (hall ▸ List.prefix_append _ _) (unmatched e he)
    | symbol d rest syms _ hd shortest tail =>
      have hsame : d.code = e.code := by
        rcases List.prefix_or_prefix_of_prefix (List.prefix_append d.code rest) (hall ▸ List.prefix_append _ _)
          with hpre | hpre
        · exact (h.shortest hd (hcode ▸ hpre)).trans hcode.symm
        · exact (shortest e he hpre).symm
      obtain rfl := List.inj_on_of_nodup_map h.distinctCodes hd he hsame
      exact ⟨syms, rfl, List.append_cancel_left hall ▸ tail⟩
  · rintro ⟨rest, rfl, hp⟩
    exact .symbol e bits rest left he (fun d hd hpre => (h.shortest hd (hcode ▸ hpre)).trans hcode.symm) hp

/-! ### `FeedBit` -/

/-- A bit that completes no entry joins the accumulator. -/
theorem WalkReady.extend (h : WalkReady s) (hroom : s.acc.length ≠ s.cfg.maxLen)
    (hnone : s.cbFindCode (s.acc ++ [b]) = none) : WalkReady { s with acc := s.acc ++ [b] } where
  distinctCodes := h.distinctCodes
  lengths := h.lengths
  fits := by
    have := h.fits
    rw [List.length_append, List.length_singleton]
    dsimp only
    omega
  unmatched d hd hpre := cbFindCode_eq_none_iff.1 hnone d hd (h.shortest hd hpre)

/-- A bit that completes an entry empties the accumulator. -/
theorem WalkReady.emit (h : WalkReady s) (out : List Symbol) : WalkReady { s with symOut := out, acc := [] } where
  distinctCodes := h.distinctCodes
  lengths := h.lengths
  fits := Nat.zero_le _
  unmatched := unmatched_of_acc_nil (book := s.cbValid) (fun e he => (h.lengths e he).1) rfl

/-- Feeding bits completes exactly when the accumulator and the bits have a greedy parse, and does what it says
(44_unpacker_decoder.md R172). -/
theorem WalkReady.feedBits_done_iff (h : WalkReady s) :
    s.feedBits bits = .done t ↔ ∃ syms left, GreedyParse s.cbValid s.cfg.maxLen (s.acc ++ bits) syms left ∧
      t = { s with symOut := s.symOut ++ syms, acc := left } := by
  induction bits generalizing s with
  | nil => simp [h.greedyParse_acc_iff, eq_comm]
  | cons b bits ih =>
    rcases feedBit_cases b s with ⟨hfull, e⟩ | ⟨hroom, ⟨hnone, e⟩ | ⟨d, hd, e⟩⟩
    · simp [e, h.not_greedyParse_of_full hfull]
    · rw [feedBits_cons, e, Progress.andThen_done, ih (h.extend hroom hnone)]
      simp only [List.append_assoc, List.singleton_append]
      rfl
    · obtain ⟨hmem, hcode⟩ := cbFindCode_eq_some hd
      rw [feedBits_cons, e, Progress.andThen_done, ih (h.emit _)]
      simp only [h.greedyParse_matched_iff hmem hcode, List.append_assoc, List.singleton_append]
      constructor
      · rintro ⟨syms, left, hp, rfl⟩
        exact ⟨_, left, ⟨syms, rfl, hp⟩, rfl⟩
      · rintro ⟨_, left, ⟨syms, rfl, hp⟩, rfl⟩
        exact ⟨syms, left, hp, rfl⟩

/-- A greedy parse is a feed that completes. -/
theorem WalkReady.greedyParse_iff (h : WalkReady s) :
    GreedyParse s.cbValid s.cfg.maxLen (s.acc ++ bits) syms left ↔
      s.feedBits bits = .done { s with symOut := s.symOut ++ syms, acc := left } := by
  rw [h.feedBits_done_iff]
  constructor
  · exact fun hp => ⟨syms, left, hp, rfl⟩
  · rintro ⟨syms', left', hp, e⟩
    obtain rfl : left = left' := congrArg State.acc e
    rwa [List.append_cancel_left (congrArg State.symOut e)]

/-- A feed that faults has taken the bits before the fault, and found the accumulator full (60_exceptions.md R213). -/
theorem WalkReady.of_feedBits_raised {f : FaultCode} (h : WalkReady s) (ht : s.feedBits bits = .raised f t) :
    f = .malformedStream ∧ t.acc.length = s.cfg.maxLen ∧ ∃ k syms, k < bits.length ∧
      GreedyParse s.cbValid s.cfg.maxLen (s.acc ++ bits.take k) syms t.acc ∧
      t = { s with symOut := s.symOut ++ syms, acc := t.acc } := by
  obtain ⟨rfl, hfull, -⟩ := feedBits_raised ht
  obtain ⟨k, hk, hdone⟩ := feedBits_raised_at ht
  obtain ⟨syms, left, hp, rfl⟩ := h.feedBits_done_iff.1 hdone
  exact ⟨rfl, hfull, k, syms, hk, hp, rfl⟩

end

/-- Settles O39: each bit finds the accumulator full, joins it, or completes the shortest entry, by induction on the
bits. -/
theorem feedingBitsIsTheGreedyParse : Obligations.FeedingBitsIsTheGreedyParse :=
  fun _ _ h => ⟨fun _ => h.walkReady.feedBits_done_iff, fun _ _ => h.walkReady.of_feedBits_raised⟩

/-! ### Entries that begin with another one -/

/-- No entry of the book is a proper prefix of the code of `e` (44_unpacker_decoder.md R181). -/
def Reachable (book : List CodeEntry) (e : CodeEntry) : Prop := ∀ d ∈ book, d.code <+: e.code → d.code = e.code

/-- The symbols of a parse are symbols of entries that do not begin with another one. -/
theorem GreedyParse.exists_reachable {book : List CodeEntry} {maxLen : Nat} {bits left : BitString}
    {syms : List Symbol} (h : GreedyParse book maxLen bits syms left) :
    ∀ x ∈ syms, ∃ e ∈ book, Reachable book e ∧ e.sym = x := by
  induction h with
  | rest => simp
  | symbol e _ _ _ he shortest _ ih => exact List.forall_mem_cons.2 ⟨⟨e, he, shortest, rfl⟩, ih⟩

/-- Since `s` only symbols of entries that do not begin with another one were emitted. -/
def EmitsReachable (s t : State) : Prop :=
  ∃ syms, t.symOut = s.symOut ++ syms ∧ ∀ x ∈ syms, ∃ e ∈ s.cbValid, Reachable s.cbValid e ∧ e.sym = x

section
variable {s t : State}

theorem EmitsReachable.of_symOut_eq (h : t.symOut = s.symOut) : EmitsReachable s t :=
  ⟨[], by rw [h, List.append_nil], by simp⟩

theorem WalkReady.emitsReachable_feedBits (h : WalkReady s) (bits : BitString) :
    EmitsReachable s (s.feedBits bits).state := by
  cases ht : s.feedBits bits with
  | done t =>
    obtain ⟨syms, left, hp, rfl⟩ := h.feedBits_done_iff.1 ht
    exact ⟨syms, rfl, hp.exists_reachable⟩
  | raised f t =>
    obtain ⟨-, -, k, syms, -, hp, e⟩ := h.of_feedBits_raised ht
    exact ⟨syms, congrArg State.symOut e, hp.exists_reachable⟩

theorem WalkReady.emitsReachable_decodeByte (h : WalkReady s) (v : Byte) :
    EmitsReachable s (decodeByte v s).state := by
  refine Progress.state_andThen ?_ fun _ _ ht => ht
  split
  · exact h.emitsReachable_feedBits _
  · exact .of_symOut_eq rfl

theorem WalkReady.emitsReachable_finishDecoding (h : WalkReady s) : EmitsReachable s (finishDecoding s).state := by
  refine Progress.state_andThen ?_ fun t _ ht => by split <;> exact ht
  rw [feedLastByte]
  split
  · exact Progress.state_andThen (h.emitsReachable_feedBits _) fun _ _ ht => ht
  · split <;> exact .of_symOut_eq rfl

/-- Every command, faulting or not: only `DEC_BYTE` and `DEC_END` emit symbols (10_state.md R20). -/
theorem emitsReachable_exec {i : Instr} (h : s.Inv) (ht : exec i s = .next t) : EmitsReachable s t := by
  refine exec_induction ht (.of_symOut_eq rfl) (fun _ => .of_symOut_eq rfl) (fun _ _ hu => hu) fun hi _ => ?_
  by_cases hout : (commandRule i s).state.symOut = s.symOut
  · exact .of_symOut_eq hout
  · rcases (commandRule_writes hi s).1.symOut hout with rfl | ⟨a, rfl⟩
    · exact h.walkReady.emitsReachable_finishDecoding
    · exact h.walkReady.emitsReachable_decodeByte _

end

/-- In a prefix-free book no entry begins with another one. -/
theorem PrefixFree.reachable {book : List CodeEntry} (h : PrefixFree (book.map CodeEntry.code)) {e : CodeEntry}
    (he : e ∈ book) : Reachable book e := by
  intro d hd hpre
  have : Std.Symm fun c d : BitString => ¬ c <+: d ∧ ¬ d <+: c := ⟨fun _ _ => And.symm⟩
  by_contra hne
  exact (h.forall (List.mem_map_of_mem hd) (List.mem_map_of_mem he) hne).1 hpre

/-- Settles O40: a built book is prefix-free, and a symbol of a parse belongs to one entry, which does not begin with
another one. -/
theorem shadowedEntriesAreNeverEmitted : Obligations.ShadowedEntriesAreNeverEmitted := by
  refine ⟨fun s h hc ⟨d, hd, e, he, hpre, hne⟩ => ?_, fun i s t h ht => ?_⟩
  · by_contra hftn
    exact hne ((h.built.prefixFree hc hftn).reachable he d hd hpre)
  · obtain ⟨syms, hout, hsyms⟩ := emitsReachable_exec h ht
    refine ⟨syms, hout, fun d hd e he hpre hne hmem => ?_⟩
    obtain ⟨x, hx, hreach, hsym⟩ := hsyms _ hmem
    obtain rfl := List.inj_on_of_nodup_map h.codebook.distinctSyms hx he hsym
    exact hne (hreach d hd hpre)

end Sys2Proof.Machine
end

section
/-! PROOF. The three commands of the decoder (44_unpacker_decoder.md R170, R174, R176), as the rules state them. -/

namespace Sys2Proof.Machine

/-! ### Operands (30_encoding.md R91) -/

@[simp] theorem paddingOperand_zeroExtend (p : BitVec 3) : paddingOperand (p.zeroExtend 32) = p := by
  rw [paddingOperand, ← BitVec.setWidth_eq_extractLsb' (by decide)]
  exact BitVec.setWidth_setWidth_of_le p (by decide)

@[simp] theorem byteOperand_zeroExtend (v : Byte) : byteOperand (v.zeroExtend 32) = v := by
  rw [byteOperand, ← BitVec.setWidth_eq_extractLsb' (by decide)]
  exact BitVec.setWidth_setWidth_of_le v (by decide)

theorem toNat_zeroExtend_lt {n : Nat} (hn : n ≤ 32) (x : BitVec n) : (x.zeroExtend 32).toNat < 2 ^ n := by
  rw [BitVec.toNat_setWidth_of_le hn]
  exact x.isLt

section
variable {s t : State} {v : Byte} {syms : List Symbol} {left : BitString}

/-! ### `DEC_BEGIN` -/

theorem admitted_decBegin_iff {a : Word} : admitted (.decBegin a) s = true ↔ s.phase = .ready := by
  simp [admitted_iff, admittingPhases, neededOpenv]

theorem commandHeader_decBegin (a : Word) :
    CommandHeader (.decBegin a) (0x4000000000000000#64 ||| a.zeroExtend 64) [.ready] [false, true] (fun _ => 8) := by
  refine .of_admitted_iff (encode_eq_pattern_or rfl (by decide) (by decide)) (fun s => ?_) fun _ => not_operandLegal rfl
  simp [admitted_decBegin_iff]

/-- The state `DEC_BEGIN` leaves (44_unpacker_decoder.md R170). -/
def State.beginDecoding (p : BitVec 3) (s : State) : State :=
  { s with pad := p, hold := 0#8, holdv := false, acc := [], phase := .decode }

theorem exec_decBegin (p : BitVec 3) (hf : s.fault = none) (hp : s.phase = .ready) :
    exec (.decBegin (p.zeroExtend 32)) s = .next (s.beginDecoding p) := by
  have hl : operandLegal s.cfg (.decBegin (p.zeroExtend 32)) = true :=
    decide_eq_true (toNat_zeroExtend_lt (by decide) p)
  rw [exec_of_legal hf (admitted_decBegin_iff.2 hp) hl, commandRule, paddingOperand_zeroExtend, Progress.finish_done,
    State.beginDecoding]

/-! ### `DEC_BYTE` -/

theorem admitted_decByte_iff {a : Word} : admitted (.decByte a) s = true ↔ s.phase = .decode := by
  simp [admitted_iff, admittingPhases, neededOpenv]

theorem operandLegal_decByte (c : Config) (v : Byte) : operandLegal c (.decByte (v.zeroExtend 32)) = true :=
  decide_eq_true (toNat_zeroExtend_lt (by decide) v)

theorem commandHeader_decByte (a : Word) :
    CommandHeader (.decByte a) (0x4100000000000000#64 ||| a.zeroExtend 64) [.decode] [false, true] (fun _ => 256) := by
  refine .of_admitted_iff (encode_eq_pattern_or rfl (by decide) (by decide)) (fun s => ?_) fun _ => not_operandLegal rfl
  simp [admitted_decByte_iff]

theorem commandRule_decByte (v : Byte) (s : State) : commandRule (.decByte (v.zeroExtend 32)) s = decodeByte v s := by
  rw [commandRule, byteOperand_zeroExtend]

theorem exec_decByte (hf : s.fault = none) (hp : s.phase = .decode) :
    exec (.decByte (v.zeroExtend 32)) s = .next ((decodeByte v s).finish (encode (.decByte (v.zeroExtend 32)))) := by
  rw [exec_of_legal hf (admitted_decByte_iff.2 hp) (operandLegal_decByte _ v), commandRule_decByte]

theorem heldBits_of_held {dropped : Nat} (hv : s.holdv = true) :
    s.heldBits dropped = (byteBits s.hold).take (8 - dropped) := if_pos hv

/-- `DEC_BYTE` feeds the whole held byte (44_unpacker_decoder.md R174). -/
theorem heldBits_zero_of_held (hv : s.holdv = true) : s.heldBits 0 = byteBits s.hold :=
  (heldBits_of_held hv).trans (List.take_of_length_le (length_byteBits _).le)

theorem heldBits_of_empty {dropped : Nat} (hv : s.holdv = false) : s.heldBits dropped = [] := by
  simp [State.heldBits, hv]

/-- The first byte is a later one with nothing to feed (44_unpacker_decoder.md R174). -/
theorem decodeByte_eq (v : Byte) (s : State) :
    decodeByte v s = (s.feedBits (s.heldBits 0)).andThen fun t => .done { t with hold := v, holdv := true } := by
  cases hv : s.holdv with
  | false => simp [decodeByte, heldBits_of_empty hv, hv]
  | true =>
    rw [decodeByte, if_pos hv, heldBits_zero_of_held hv]

/-- `DEC_BYTE` completes exactly when the held byte can be parsed (44_unpacker_decoder.md R174). -/
theorem WalkReady.decodeByte_done_iff (h : WalkReady s) :
    decodeByte v s = .done t ↔ ∃ syms left,
      GreedyParse s.cbValid s.cfg.maxLen (s.acc ++ s.heldBits 0) syms left ∧
      t = { s with symOut := s.symOut ++ syms, acc := left, hold := v, holdv := true } := by
  rw [decodeByte_eq, Progress.andThen_eq_done]
  simp only [h.feedBits_done_iff]
  constructor
  · rintro ⟨_, ⟨syms, left, hp, rfl⟩, ht⟩
    exact ⟨syms, left, hp, (Progress.done.inj ht).symm⟩
  · rintro ⟨syms, left, hp, rfl⟩
    exact ⟨_, ⟨syms, left, hp, rfl⟩, rfl⟩

/-- Bits without a parse raise `MALFORMED_STREAM` at the bit that does not fit (44_unpacker_decoder.md R172). -/
theorem WalkReady.feedBits_of_no_parse (h : WalkReady s) {bits : BitString}
    (hno : ¬ ∃ syms left, GreedyParse s.cbValid s.cfg.maxLen (s.acc ++ bits) syms left) :
    ∃ t k syms, s.feedBits bits = .raised .malformedStream t ∧ k < bits.length ∧
      GreedyParse s.cbValid s.cfg.maxLen (s.acc ++ bits.take k) syms t.acc ∧ t.acc.length = s.cfg.maxLen ∧
      t = { s with symOut := s.symOut ++ syms, acc := t.acc } := by
  cases ht : s.feedBits bits with
  | done t =>
    obtain ⟨syms, left, hp, -⟩ := h.feedBits_done_iff.1 ht
    exact absurd ⟨syms, left, hp⟩ hno
  | raised f t =>
    obtain ⟨rfl, hfull, k, syms, hk, hp, e⟩ := h.of_feedBits_raised ht
    exact ⟨t, k, syms, rfl, hk, hp, hfull, e⟩

/-! ### `DEC_END` -/

theorem admitted_decEnd_iff : admitted .decEnd s = true ↔ s.phase = .decode := by
  simp [admitted_iff, admittingPhases, neededOpenv]

theorem commandHeader_decEnd :
    CommandHeader .decEnd 0x4200000000000000#64 [.decode] [false, true] (fun _ => 2 ^ 32) :=
  .of_admitted_iff (by decide) (fun s => by simp [admitted_decEnd_iff]) fun _ h => absurd h (by simp [Instr.arg])

theorem exec_decEnd (hf : s.fault = none) (hp : s.phase = .decode) :
    exec .decEnd s = .next ((finishDecoding s).finish (encode .decEnd)) :=
  exec_of_legal hf (admitted_decEnd_iff.2 hp) rfl

theorem feedLastByte_of_held (hv : s.holdv = true) :
    feedLastByte s =
      (s.feedBits ((byteBits s.hold).take (8 - s.pad.toNat))).andThen fun t => .done { t with holdv := false } :=
  if_pos hv

theorem feedLastByte_of_padding (hv : s.holdv = false) (hp : s.pad ≠ 0#3) :
    feedLastByte s = .raised .malformedStream s := by
  have hpos : s.pad.toNat > 0 := Nat.pos_of_ne_zero fun e => hp (BitVec.eq_of_toNat_eq e)
  simp [feedLastByte, hv, hpos]

theorem feedLastByte_of_empty (hv : s.holdv = false) (hp : s.pad = 0#3) : feedLastByte s = .done s := by
  simp [feedLastByte, hv, hp]

/-- `DEC_END` after a feed that leaves nothing (44_unpacker_decoder.md R176 step 3). -/
theorem finishDecoding_of_nothing_left (h : feedLastByte s = .done t) (hacc : t.acc = []) :
    finishDecoding s = .done { t with phase := .ready } := by
  rw [finishDecoding, h, Progress.andThen_done, if_pos hacc]

/-- `DEC_END` after a feed that leaves bits over (44_unpacker_decoder.md R176 step 3). -/
theorem finishDecoding_of_bits_left (h : feedLastByte s = .done t) (hacc : t.acc ≠ []) :
    finishDecoding s = .raised .malformedStream t := by
  rw [finishDecoding, h, Progress.andThen_done, if_neg hacc]

theorem finishDecoding_of_raised {f : FaultCode} (h : feedLastByte s = .raised f t) :
    finishDecoding s = .raised f t := by
  rw [finishDecoding, h, Progress.andThen_raised]

/-- The last byte can be fed exactly when there is a byte to take the padding from and the rest of it can be parsed
(44_unpacker_decoder.md R176 steps 1 and 2). -/
theorem WalkReady.feedLastByte_done_iff (h : WalkReady s) :
    feedLastByte s = .done t ↔ (s.holdv = false → s.pad = 0#3) ∧ ∃ syms left,
      GreedyParse s.cbValid s.cfg.maxLen (s.acc ++ s.heldBits s.pad.toNat) syms left ∧
      t = { s with symOut := s.symOut ++ syms, acc := left, holdv := false } := by
  cases hv : s.holdv with
  | false =>
    rw [heldBits_of_empty hv, List.append_nil]
    simp only [h.greedyParse_acc_iff]
    by_cases hp : s.pad = 0#3
    · rw [feedLastByte_of_empty hv hp]
      have hs : { s with symOut := s.symOut ++ [], acc := s.acc, holdv := false } = s := by
        rw [List.append_nil, ← hv]
      constructor
      · intro ht
        exact ⟨fun _ => hp, [], s.acc, ⟨rfl, rfl⟩, (Progress.done.inj ht).symm.trans hs.symm⟩
      · rintro ⟨-, _, _, ⟨rfl, rfl⟩, rfl⟩
        rw [hs]
    · simp [feedLastByte_of_padding hv hp, hp]
  | true =>
    rw [feedLastByte_of_held hv, heldBits_of_held hv, Progress.andThen_eq_done]
    simp only [h.feedBits_done_iff]
    constructor
    · rintro ⟨_, ⟨syms, left, hp, rfl⟩, ht⟩
      exact ⟨nofun, syms, left, hp, (Progress.done.inj ht).symm⟩
    · rintro ⟨-, syms, left, hp, rfl⟩
      exact ⟨_, ⟨syms, left, hp, rfl⟩, rfl⟩

/-- `DEC_END` completes exactly when the parse of the last bits leaves nothing (44_unpacker_decoder.md R176). -/
theorem WalkReady.finishDecoding_done_iff (h : WalkReady s) :
    finishDecoding s = .done t ↔ (s.holdv = false → s.pad = 0#3) ∧ ∃ syms,
      GreedyParse s.cbValid s.cfg.maxLen (s.acc ++ s.heldBits s.pad.toNat) syms [] ∧
      t = { s with symOut := s.symOut ++ syms, acc := [], holdv := false, phase := .ready } := by
  constructor
  · intro ht
    obtain ⟨u, hu, hclose⟩ := Progress.andThen_eq_done.1 ht
    obtain ⟨hpad, syms, left, hp, rfl⟩ := h.feedLastByte_done_iff.1 hu
    by_cases hleft : left = []
    · subst hleft
      rw [finishDecoding_of_nothing_left hu rfl] at ht
      exact ⟨hpad, syms, hp, (Progress.done.inj ht).symm⟩
    · rw [finishDecoding_of_bits_left hu hleft] at ht
      cases ht
  · rintro ⟨hpad, syms, hp, rfl⟩
    exact finishDecoding_of_nothing_left (h.feedLastByte_done_iff.2 ⟨hpad, syms, [], hp, rfl⟩) rfl

end

/-! ### The three statements -/

/-- Settles O38: its word, its admission and its rule. -/
theorem decBeginOpensADecodeRun : Obligations.DecBeginOpensADecodeRun :=
  ⟨commandHeader_decBegin, fun _ p => exec_decBegin p⟩

/-- Settles O41: without a held byte there is nothing to feed, and with one its bits have a parse or raise. -/
theorem decByteDecodesTheHeldByte : Obligations.DecByteDecodesTheHeldByte := by
  refine ⟨commandHeader_decByte, fun s v h hf hp => ?_⟩
  rw [exec_decByte hf hp, decodeByte_eq]
  refine ⟨fun hv => ?_, fun hv => ⟨fun syms left hparse => ?_, fun hno => ?_⟩⟩
  · rw [heldBits_of_empty hv, feedBits_nil, Progress.andThen_done, Progress.finish_done]
  · rw [heldBits_zero_of_held hv, h.walkReady.greedyParse_iff.1 hparse, Progress.andThen_done,
      Progress.finish_done, hv]
  · obtain ⟨t, k, syms, ht, hk, hparse, hfull, e⟩ := h.walkReady.feedBits_of_no_parse hno
    rw [heldBits_zero_of_held hv, ht, Progress.andThen_raised]
    exact ⟨_, k, syms, rfl, hk, hparse, hfull, by rw [e]; rfl⟩

/-- Settles O42: the feed of the last byte, its three ends without a byte, and what is left over. -/
theorem decEndClosesTheDecodeRun : Obligations.DecEndClosesTheDecodeRun := by
  refine ⟨commandHeader_decEnd, fun s h hf hp => ?_⟩
  have hfeed (hv : s.holdv = true) {syms : List Symbol} {left : BitString}
      (hparse : GreedyParse s.cbValid s.cfg.maxLen (s.acc ++ (byteBits s.hold).take (8 - s.pad.toNat)) syms left) :=
    h.walkReady.feedLastByte_done_iff.2 ⟨by simp [hv], syms, left, (heldBits_of_held hv).symm ▸ hparse, rfl⟩
  rw [exec_decEnd hf hp]
  refine ⟨fun hv syms hparse => ?_, fun hv syms left hleft hparse => ?_, fun hv hno => ?_, fun hv hpad => ?_,
    fun hv hpad hacc => ?_, fun hv hpad hacc => ?_⟩
  · rw [finishDecoding_of_nothing_left (hfeed hv hparse) rfl, Progress.finish_done]
  · rw [finishDecoding_of_bits_left (hfeed hv hparse) hleft, Progress.finish_raised, State.raise]
  · obtain ⟨t, k, syms, ht, hk, hparse, hfull, e⟩ := h.walkReady.feedBits_of_no_parse hno
    have hraised : feedLastByte s = .raised .malformedStream t := by
      rw [feedLastByte_of_held hv, ht, Progress.andThen_raised]
    rw [finishDecoding_of_raised hraised]
    exact ⟨_, k, syms, rfl, hk, hparse, hfull, by rw [e]; rfl⟩
  · rw [finishDecoding_of_raised (feedLastByte_of_padding hv hpad), Progress.finish_raised, State.raise]
  · rw [finishDecoding_of_nothing_left (feedLastByte_of_empty hv hpad) hacc, Progress.finish_done]
  · rw [finishDecoding_of_bits_left (feedLastByte_of_empty hv hpad) hacc, Progress.finish_raised, State.raise]

end Sys2Proof.Machine
end

section
/-! PROOF. A decode run feeds the bits of its bytes less the padding (44_unpacker_decoder.md R177). -/

namespace Sys2Proof.Machine

section
variable {s t : State} {bits more : BitString} {syms : List Symbol} {left : BitString}

/-! ### Runs built up -/

/-- An admitted command in range that completes, and what follows it. -/
theorem runsWithoutFault_cons_iff {i : Instr} {is : List Instr} (hclear : .clear ∉ i :: is) (hf : s.fault = none)
    (ha : admitted i s = true) (hl : operandLegal s.cfg i = true) :
    RunsWithoutFault (i :: is) s t ↔ ∃ u, commandRule i s = .done u ∧ RunsWithoutFault is u t := by
  refine ⟨fun h => h.cons hclear, fun ⟨u, hdone, hrun, ht⟩ => ⟨runInstrs_cons.2 ⟨u, ?_, hrun⟩, ht⟩⟩
  rw [exec_of_legal hf ha hl, hdone, Progress.finish_done]

/-! ### The parse of a concatenation -/

/-- The parse of two parts as the walk engine makes it: what the first part leaves is in the accumulator when the second
one is fed. -/
theorem InDecodeRun.greedyParse_append_iff (h : InDecodeRun s) :
    GreedyParse s.cbValid s.cfg.maxLen (s.acc ++ (bits ++ more)) syms left ↔ ∃ syms₁ mid syms₂,
      GreedyParse s.cbValid s.cfg.maxLen (s.acc ++ bits) syms₁ mid ∧
      GreedyParse s.cbValid s.cfg.maxLen (mid ++ more) syms₂ left ∧ syms = syms₁ ++ syms₂ := by
  have hready := h.inv.walkReady
  have hmid {u : State} (hu : s.feedBits bits = .done u) : WalkReady u := (inDecodeRun_feedBits_done h hu).inv.walkReady
  rw [hready.greedyParse_iff, feedBits_append, Progress.andThen_eq_done]
  constructor
  · rintro ⟨u, hu, hrest⟩
    obtain ⟨syms₁, mid, hp₁, rfl⟩ := hready.feedBits_done_iff.1 hu
    obtain ⟨syms₂, left', hp₂, e⟩ := (hmid hu).feedBits_done_iff.1 hrest
    obtain rfl : left = left' := congrArg State.acc e
    have hout : s.symOut ++ syms = s.symOut ++ syms₁ ++ syms₂ := congrArg State.symOut e
    rw [List.append_assoc] at hout
    exact ⟨syms₁, mid, syms₂, hp₁, hp₂, List.append_cancel_left hout⟩
  · rintro ⟨syms₁, mid, syms₂, hp₁, hp₂, rfl⟩
    have hu := hready.greedyParse_iff.1 hp₁
    refine ⟨_, hu, ?_⟩
    rw [← List.append_assoc]
    exact (hmid hu).greedyParse_iff.1 hp₂

/-! ### The bits of a run -/

/-- The bits a decode run has still to feed when `bytes` follow, padding included: the held byte comes first
(44_unpacker_decoder.md R174). -/
def State.unfedBits (s : State) (bytes : List Byte) : BitString := s.heldBits 0 ++ bytes.flatMap byteBits

theorem rdrop_append_of_le_length {n : Nat} (hn : n ≤ more.length) :
    (bits ++ more).rdrop n = bits ++ more.rdrop n := by
  simp [List.rdrop_eq_reverse_drop_reverse, List.drop_append_of_le_length (l₁ := more.reverse), hn]

/-- `DEC_END` feeds what it has still to feed less the padding (44_unpacker_decoder.md R176). -/
theorem heldBits_pad_eq_rdrop : s.heldBits s.pad.toNat = (s.unfedBits []).rdrop s.pad.toNat := by
  rw [State.unfedBits, List.flatMap_nil, List.append_nil]
  cases hv : s.holdv with
  | false => rw [heldBits_of_empty hv, heldBits_of_empty hv, List.rdrop_nil]
  | true =>
    rw [heldBits_of_held hv, heldBits_zero_of_held hv]
    rfl

/-- The padding is less than a byte, so it fits as soon as a byte is held (44_unpacker_decoder.md R176 step 2). -/
theorem pad_le_unfedBits_nil_iff : s.pad.toNat ≤ (s.unfedBits []).length ↔ (s.holdv = false → s.pad = 0#3) := by
  rw [State.unfedBits, List.flatMap_nil, List.append_nil]
  cases hv : s.holdv with
  | false => simp [heldBits_of_empty hv, ← BitVec.toNat_inj]
  | true =>
    rw [heldBits_zero_of_held hv, length_byteBits]
    exact ⟨nofun, fun _ => s.pad.isLt.le⟩

variable {v : Byte} {bytes : List Byte}

theorem pad_le_of_byte (p : BitVec 3) (v : Byte) (bits : BitString) : p.toNat ≤ (byteBits v ++ bits).length := by
  rw [List.length_append, length_byteBits]
  exact p.isLt.le.trans (Nat.le_add_right _ _)

theorem pad_le_unfedBits_cons (s : State) : s.pad.toNat ≤ (s.unfedBits (v :: bytes)).length := by
  rw [State.unfedBits, List.length_append]
  exact (pad_le_of_byte s.pad v _).trans (Nat.le_add_left _ _)

/-- With a byte to follow, the held byte is fed whole. -/
theorem rdrop_unfedBits_cons (s : State) : (s.unfedBits (v :: bytes)).rdrop s.pad.toNat =
    s.heldBits 0 ++ (byteBits v ++ bytes.flatMap byteBits).rdrop s.pad.toNat :=
  rdrop_append_of_le_length (pad_le_of_byte s.pad v _)

/-! ### A decode run -/

theorem runsWithoutFault_decEnd_iff (hf : s.fault = none) (hp : s.phase = .decode) :
    RunsWithoutFault [.decEnd] s t ↔ finishDecoding s = .done t := by
  have hrun : RunsWithoutFault [.decEnd] s t ↔ ∃ u, finishDecoding s = .done u ∧ RunsWithoutFault [] u t :=
    runsWithoutFault_cons_iff (by simp) hf (admitted_decEnd_iff.2 hp) rfl
  rw [hrun]
  constructor
  · rintro ⟨u, hu, hrest, -⟩
    rwa [← runInstrs_nil.1 hrest]
  · intro ht
    obtain ⟨syms, rfl⟩ := finishDecoding_done ht
    exact ⟨_, ht, runInstrs_nil.2 rfl, hf⟩

theorem runsWithoutFault_decByte_iff (hf : s.fault = none) (hp : s.phase = .decode) :
    RunsWithoutFault (Pseudo.decBytes (v :: bytes) ++ [.decEnd]) s t ↔
      ∃ u, decodeByte v s = .done u ∧ RunsWithoutFault (Pseudo.decBytes bytes ++ [.decEnd]) u t := by
  have hclear : .clear ∉ Pseudo.decBytes (v :: bytes) ++ [.decEnd] := by simp [Pseudo.decBytes]
  rw [← commandRule_decByte]
  exact runsWithoutFault_cons_iff hclear hf (admitted_decByte_iff.2 hp) (operandLegal_decByte _ v)

theorem InDecodeRun.of_decodeByte_done (h : InDecodeRun s) (ht : decodeByte v s = .done t) : InDecodeRun t := by
  have hrule := inDecodeRun_decodeByte v h
  rwa [ht] at hrule

/-- What remains of a decode run completes exactly when the padding fits and the parse of the bits less the padding
leaves nothing (44_unpacker_decoder.md R177). -/
theorem InDecodeRun.runs_iff (h : InDecodeRun s) (hf : s.fault = none) :
    RunsWithoutFault (Pseudo.decBytes bytes ++ [.decEnd]) s t ↔
      s.pad.toNat ≤ (s.unfedBits bytes).length ∧ ∃ syms,
        GreedyParse s.cbValid s.cfg.maxLen (s.acc ++ (s.unfedBits bytes).rdrop s.pad.toNat) syms [] ∧
        t = { s with symOut := s.symOut ++ syms, acc := [], hold := bytes.getLastD s.hold, holdv := false,
                     phase := .ready } := by
  induction bytes generalizing s with
  | nil =>
    rw [pad_le_unfedBits_nil_iff, ← heldBits_pad_eq_rdrop]
    exact (runsWithoutFault_decEnd_iff hf h.phase).trans h.inv.walkReady.finishDecoding_done_iff
  | cons v bytes ih =>
    rw [runsWithoutFault_decByte_iff hf h.phase, rdrop_unfedBits_cons]
    constructor
    · rintro ⟨u, hu, hrest⟩
      obtain ⟨syms₁, mid, hp₁, rfl⟩ := h.inv.walkReady.decodeByte_done_iff.1 hu
      obtain ⟨-, syms₂, hp₂, rfl⟩ := (ih (h.of_decodeByte_done hu) hf).1 hrest
      refine ⟨pad_le_unfedBits_cons s, _, h.greedyParse_append_iff.2 ⟨syms₁, mid, syms₂, hp₁, hp₂, rfl⟩, ?_⟩
      rw [← List.append_assoc, List.getLastD_cons]
    · rintro ⟨-, syms, hp, rfl⟩
      obtain ⟨syms₁, mid, syms₂, hp₁, hp₂, rfl⟩ := h.greedyParse_append_iff.1 hp
      have hu := (h.inv.walkReady.decodeByte_done_iff (v := v)).2 ⟨syms₁, mid, hp₁, rfl⟩
      refine ⟨_, hu, (ih (h.of_decodeByte_done hu) hf).2 ⟨pad_le_of_byte s.pad v _, syms₂, hp₂, ?_⟩⟩
      rw [List.append_assoc, List.getLastD_cons]

/-- A whole decode run (44_unpacker_decoder.md R177). -/
theorem runsWithoutFault_decodeBytes_iff {p : BitVec 3} (h : s.Inv) (hf : s.fault = none) (hp : s.phase = .ready) :
    RunsWithoutFault (Pseudo.decodeBytes p bytes) s t ↔
      p.toNat ≤ 8 * bytes.length ∧ ∃ syms,
        GreedyParse s.cbValid s.cfg.maxLen ((bytes.flatMap byteBits).take (8 * bytes.length - p.toNat)) syms [] ∧
        t = { s with symOut := s.symOut ++ syms, pad := p, acc := [], hold := bytes.getLastD 0#8, holdv := false,
                     phase := .ready } := by
  have hbegin := exec_decBegin p hf hp
  have hrun : InDecodeRun (s.beginDecoding p) := ⟨inv_exec h hbegin, rfl⟩
  have hiff := hrun.runs_iff (bytes := bytes) (t := t) hf
  rw [← length_flatMap_byteBits]
  refine Iff.trans ⟨fun hall => ?_, fun hrest => ?_⟩ hiff
  · obtain ⟨u, hu, hrest⟩ := runInstrs_cons.1 hall.1
    exact ⟨Host.Outcome.next.inj (hbegin.symm.trans hu) ▸ hrest, hall.2⟩
  · exact ⟨runInstrs_cons.2 ⟨_, hbegin, hrest.1⟩, hrest.2⟩

end

/-- Settles O43: the run feeds the bits of all bytes less the padding. -/
theorem decodeRunIsTheGreedyParse : Obligations.DecodeRunIsTheGreedyParse := by
  intro s p bytes h hf hp
  refine ⟨fun syms hpad hparse => ?_, fun t hrun => ?_⟩
  · exact ⟨_, (runsWithoutFault_decodeBytes_iff h hf hp).2 ⟨hpad, syms, hparse, rfl⟩, rfl, rfl⟩
  · obtain ⟨hpad, syms, hparse, rfl⟩ := (runsWithoutFault_decodeBytes_iff h hf hp).1 hrun
    exact ⟨hpad, syms, hparse, rfl⟩

end Sys2Proof.Machine
end

section
/-! PROOF. The load of a codebook of distinct symbols and distinct codes completes and leaves its entries
(45_codebook_load.md R190 to R193, R196). -/

namespace Sys2Proof.Machine

/-! ### Codebooks that can be loaded -/

/-- Pairs the load takes without a fault (45_codebook_load.md R196). -/
structure LegalBook (c : Config) (entries : List CodeEntry) : Prop where
  size : entries.length ≤ c.nsym
  distinctSyms : (entries.map CodeEntry.sym).Nodup
  distinctCodes : (entries.map CodeEntry.code).Nodup
  legal : ∀ e ∈ entries, e.sym.toNat < 2 ^ c.symw ∧ e.code ≠ [] ∧ e.code.length ≤ c.maxLen

/-- The valid entries of a state that meets the invariant can be loaded again (10_state.md R40). -/
theorem State.Inv.legalBook {s : State} (h : s.Inv) : LegalBook s.cfg s.cbValid where
  size := (List.length_take_le _ _).trans h.codebook.size
  distinctSyms := h.codebook.distinctSyms
  distinctCodes := h.codebook.distinctCodes
  legal e he := ⟨h.widths.cbSyms e he, h.codebook.lengths e he⟩

theorem LegalBook.of_perm {c : Config} {entries entries' : List CodeEntry} (h : LegalBook c entries)
    (hp : entries'.Perm entries) : LegalBook c entries' where
  size := hp.length_eq ▸ h.size
  distinctSyms := (hp.map _).nodup_iff.2 h.distinctSyms
  distinctCodes := (hp.map _).nodup_iff.2 h.distinctCodes
  legal e he := h.legal e (hp.mem_iff.1 he)

/-- In a list of pairs taken from the front, the next pair has a new symbol and a new code. -/
theorem LegalBook.next {c : Config} {loaded rest : List CodeEntry} {e : CodeEntry}
    (h : LegalBook c (loaded ++ e :: rest)) :
    loaded.length < c.nsym ∧ ∀ d ∈ loaded, d.sym ≠ e.sym ∧ d.code ≠ e.code := by
  obtain ⟨hsize, hsyms, hcodes, -⟩ := h
  rw [List.map_append, List.nodup_append] at hsyms hcodes
  refine ⟨?_, fun d hd => ⟨?_, ?_⟩⟩
  · rw [List.length_append, List.length_cons] at hsize
    omega
  · exact hsyms.2.2 _ (List.mem_map_of_mem hd) _ List.mem_cons_self
  · exact hcodes.2.2 _ (List.mem_map_of_mem hd) _ List.mem_cons_self

/-! ### The commands of one entry -/

section
variable {s t : State} {sym : Symbol} {code bits : BitString}

/-- The state with an entry open, of which the bits `code` were given (45_codebook_load.md R190, R191). -/
def State.openedWith (sym : Symbol) (code : BitString) (s : State) : State :=
  { s with osym := sym, ocode := code, openv := true, phase := .load }

theorem openEntry_of_new (hn : s.cbn.toNat ≠ s.cfg.nsym) (hnew : ∀ e ∈ s.cbValid, e.sym ≠ sym) :
    openEntry sym s = .done (s.openedWith sym []) := by
  rw [openEntry, if_neg hn, cbFindSym_eq_none_iff.2 hnew]
  rfl

theorem appendCodeBit_of_room (b : Bool) (hl : s.ocode.length ≠ s.cfg.maxLen) :
    appendCodeBit b s = .done { s with ocode := s.ocode ++ [b] } := if_neg hl

theorem closeEntry_of_new (hc : s.ocode ≠ []) (hnew : ∀ e ∈ s.cbValid, e.code ≠ s.ocode) :
    closeEntry s = .done s.commitEntry := by
  rw [closeEntry, if_neg hc, cbFindCode_eq_none_iff.2 hnew]
  rfl

theorem admitted_cblOpen_iff {a : Word} :
    admitted (.cblOpen a) s = true ↔ (s.phase = .idle ∨ s.phase = .load) ∧ s.openv = false := by
  simp [admitted_iff, admittingPhases, neededOpenv]

theorem admitted_cblBit_iff {a : Word} : admitted (.cblBit a) s = true ↔ s.phase = .load ∧ s.openv = true := by
  simp [admitted_iff, admittingPhases, neededOpenv]

theorem admitted_cblClose_iff : admitted .cblClose s = true ↔ s.phase = .load ∧ s.openv = true := by
  simp [admitted_iff, admittingPhases, neededOpenv]

theorem admitted_cblEnd_iff :
    admitted .cblEnd s = true ↔ (s.phase = .idle ∨ s.phase = .load) ∧ s.openv = false := by
  simp [admitted_iff, admittingPhases, neededOpenv]

/-- In range the operand is the symbol itself, so `CBL_OPEN` ends as its rule for that symbol does. -/
theorem exec_cblOpen (hf : s.fault = none) (hp : s.phase = .idle ∨ s.phase = .load) (ho : s.openv = false)
    (hsym : sym.toNat < 2 ^ s.cfg.symw) :
    exec (.cblOpen sym) s = .next ((openEntry sym s).finish (encode (.cblOpen sym))) := by
  rw [exec_of_legal hf (admitted_cblOpen_iff.2 ⟨hp, ho⟩) (decide_eq_true hsym), commandRule,
    symbolOperand_eq s.cfg sym hsym]

theorem exec_cblBit (b : Bool) (hf : s.fault = none) (hp : s.phase = .load) (ho : s.openv = true) :
    exec (Pseudo.cblBit b) s = .next ((appendCodeBit b s).finish (encode (Pseudo.cblBit b))) := by
  have hl : operandLegal s.cfg (Pseudo.cblBit b) = true := by cases b <;> rfl
  have hb : bitOperand ((BitVec.ofBool b).zeroExtend 32) = b := by cases b <;> rfl
  have ha : admitted (Pseudo.cblBit b) s = true := admitted_cblBit_iff.2 ⟨hp, ho⟩
  have hrule : commandRule (Pseudo.cblBit b) s = appendCodeBit b s := by rw [Pseudo.cblBit, commandRule, hb]
  rw [exec_of_legal hf ha hl, hrule]

theorem exec_cblClose (hf : s.fault = none) (hp : s.phase = .load) (ho : s.openv = true) :
    exec .cblClose s = .next ((closeEntry s).finish (encode .cblClose)) :=
  exec_of_legal hf (admitted_cblClose_iff.2 ⟨hp, ho⟩) rfl

theorem exec_cblEnd (hf : s.fault = none) (hp : s.phase = .idle ∨ s.phase = .load) (ho : s.openv = false) :
    exec .cblEnd s = .next { s with phase := .ready } :=
  exec_of_legal hf (admitted_cblEnd_iff.2 ⟨hp, ho⟩) rfl

theorem exec_cblBit_openedWith (b : Bool) (hf : s.fault = none) (hl : code.length ≠ s.cfg.maxLen) :
    exec (Pseudo.cblBit b) (s.openedWith sym code) = .next (s.openedWith sym (code ++ [b])) := by
  have hbit : appendCodeBit b (s.openedWith sym code) = .done (s.openedWith sym (code ++ [b])) :=
    appendCodeBit_of_room b hl
  have hexec := exec_cblBit (s := s.openedWith sym code) b hf rfl rfl
  rwa [hbit] at hexec

theorem exec_cblClose_openedWith (hf : s.fault = none) (hc : code ≠ []) (hnew : ∀ e ∈ s.cbValid, e.code ≠ code) :
    exec .cblClose (s.openedWith sym code) = .next (s.openedWith sym code).commitEntry := by
  have hclose : closeEntry (s.openedWith sym code) = .done (s.openedWith sym code).commitEntry :=
    closeEntry_of_new hc hnew
  have hexec := exec_cblClose (s := s.openedWith sym code) hf rfl rfl
  rwa [hclose] at hexec

theorem cbValid_commitEntry_openedWith (hn : s.cbn.toNat < s.cfg.nsym) :
    (s.openedWith sym code).commitEntry.cbValid = s.cbValid ++ [⟨sym, code⟩] :=
  cbValid_commitEntry (s := s.openedWith sym code) hn

/-- `CBL_BIT` for each bit of a code that fits (45_codebook_load.md R191). -/
theorem runInstrs_cblBits (hf : s.fault = none) (hl : (code ++ bits).length ≤ s.cfg.maxLen) :
    runInstrs (bits.map Pseudo.cblBit) (s.openedWith sym code) = .next (s.openedWith sym (code ++ bits)) := by
  induction bits generalizing code with
  | nil =>
    rw [List.append_nil]
    rfl
  | cons b bits ih =>
    rw [List.append_cons] at hl ⊢
    have hroom : code.length ≠ s.cfg.maxLen := by
      rw [List.length_append, List.length_append, List.length_singleton] at hl
      omega
    exact runInstrs_cons.2 ⟨_, exec_cblBit_openedWith b hf hroom, ih hl⟩

/-! ### Entries one after another -/

/-- In `t` the entries `loaded` have been loaded and no entry is open, after a load that began in `s`
(45_codebook_load.md R196). -/
structure LoadedFrom (s : State) (loaded : List CodeEntry) (t : State) : Prop where
  inv : t.Inv
  entries : t.cbValid = loaded
  phase : t.phase = .idle ∨ t.phase = .load
  closed : t.openv = false
  frame : ∃ phase cb cbn osym ocode openv,
    t = { s with phase := phase, cb := cb, cbn := cbn, osym := osym, ocode := ocode, openv := openv }

theorem loadedFrom_nil (h : s.Inv) (hp : s.phase = .idle) : LoadedFrom s [] s where
  inv := h
  entries := by simp [State.cbValid, h.phase.codebook (.inl hp)]
  phase := .inl hp
  closed := h.phase.load (by simp [hp])
  frame := ⟨_, _, _, _, _, _, rfl⟩

/-- Every run keeps the invariant. -/
theorem inv_runInstrs {is : List Instr} (h : s.Inv) (hrun : runInstrs is s = .next t) : t.Inv := by
  induction is generalizing s with
  | nil => exact runInstrs_nil.1 hrun ▸ h
  | cons i is ih =>
    obtain ⟨u, hu, hrun⟩ := runInstrs_cons.1 hrun
    exact ih (inv_exec h hu) hrun

variable {loaded rest : List CodeEntry} {e : CodeEntry}

/-- `CBL_OPEN`, the bits and `CBL_CLOSE` of one more entry (45_codebook_load.md R190 to R192). -/
theorem LoadedFrom.cblEntry (h : LoadedFrom s loaded t) (hf : s.fault = none)
    (hbook : LegalBook s.cfg (loaded ++ e :: rest)) :
    ∃ u, runInstrs (Pseudo.cblEntry e.sym e.code) t = .next u ∧ LoadedFrom s (loaded ++ [e]) u := by
  obtain ⟨hlt, hnew⟩ := hbook.next
  obtain ⟨hsym, hne, hlen⟩ := hbook.legal e (by simp)
  obtain ⟨hcfg, hfault⟩ : t.cfg = s.cfg ∧ t.fault = none := by
    obtain ⟨_, _, _, _, _, _, rfl⟩ := h.frame
    exact ⟨rfl, hf⟩
  rw [← hcfg] at hlt hsym hlen
  rw [← h.entries] at hnew hlt
  rw [length_cbValid h.inv.stored] at hlt
  have hopen : exec (.cblOpen e.sym) t = .next (t.openedWith e.sym []) := by
    rw [exec_cblOpen hfault h.phase h.closed hsym, openEntry_of_new (Nat.ne_of_lt hlt) fun d hd => (hnew d hd).1,
      Progress.finish_done]
  have hclose := exec_cblClose_openedWith (sym := e.sym) hfault hne fun d hd => (hnew d hd).2
  have hrun : runInstrs (Pseudo.cblEntry e.sym e.code) t = .next (t.openedWith e.sym e.code).commitEntry :=
    runInstrs_append.2 ⟨_, runInstrs_cons.2 ⟨_, hopen, runInstrs_cblBits hfault hlen⟩,
      runInstrs_cons.2 ⟨_, hclose, rfl⟩⟩
  refine ⟨_, hrun, inv_runInstrs h.inv hrun, ?_, .inr rfl, rfl, ?_⟩
  · rw [cbValid_commitEntry_openedWith hlt, h.entries]
  · obtain ⟨_, _, _, _, _, _, rfl⟩ := h.frame
    exact ⟨_, _, _, _, _, _, rfl⟩

theorem LoadedFrom.entries_run (h : LoadedFrom s loaded t) (hf : s.fault = none)
    (hbook : LegalBook s.cfg (loaded ++ rest)) :
    ∃ u, runInstrs (rest.flatMap fun e => Pseudo.cblEntry e.sym e.code) t = .next u ∧
      LoadedFrom s (loaded ++ rest) u := by
  induction rest generalizing loaded t with
  | nil => exact ⟨t, rfl, by rwa [List.append_nil]⟩
  | cons e rest ih =>
    obtain ⟨u, hentry, hu⟩ := h.cblEntry hf hbook
    rw [List.append_cons] at hbook ⊢
    obtain ⟨v, hrest, hv⟩ := ih hu hbook
    exact ⟨v, runInstrs_append.2 ⟨u, hentry, hrest⟩, hv⟩

/-- A whole load (45_codebook_load.md R196). -/
theorem runsWithoutFault_loadCodebook {entries : List CodeEntry} (h : s.Inv) (hf : s.fault = none)
    (hp : s.phase = .idle) (hbook : LegalBook s.cfg entries) :
    ∃ t, RunsWithoutFault (Pseudo.loadCodebook entries) s t ∧ t.phase = .ready ∧ t.cbValid = entries ∧
      t.symOut = s.symOut := by
  obtain ⟨u, hrun, hu⟩ := (loadedFrom_nil h hp).entries_run hf hbook
  obtain ⟨hfault, hout⟩ : u.fault = none ∧ u.symOut = s.symOut := by
    obtain ⟨_, _, _, _, _, _, rfl⟩ := hu.frame
    exact ⟨hf, rfl⟩
  have hend := exec_cblEnd hfault hu.phase hu.closed
  exact ⟨_, ⟨runInstrs_append.2 ⟨u, hrun, runInstrs_cons.2 ⟨_, hend, rfl⟩⟩, hfault⟩, rfl, hu.entries, hout⟩

end

end Sys2Proof.Machine
end

section
/-! PROOF. The round trip (44_unpacker_decoder.md R179): a text within the capacities is counted and packed without a
fault, and the greedy parse of its codes in a prefix-free codebook is the text. -/

namespace Sys2Proof.Machine

section
variable {s t u : State} {text rest : List Symbol} {a : Symbol} {codes : List BitString}

/-! ### The counting pass completes -/

theorem CountedFrom.fault_eq (h : CountedFrom s text t) : t.fault = s.fault := by
  obtain ⟨_, _, _, _, rfl⟩ := h.frame
  rfl

theorem CountedFrom.phase_cases (h : CountedFrom s text t) : t.phase = .idle ∨ t.phase = .count := by
  rw [h.phase]
  split <;> simp

theorem length_eraseDups_le_append (text rest : List Symbol) :
    text.eraseDups.length ≤ (text ++ rest).eraseDups.length := by
  rw [List.eraseDups_append, List.length_append]
  exact Nat.le_add_right _ _

/-- One more `CNT_SYM` within the capacities (41_frequency_counter.md R120). -/
theorem CountedFrom.cntSym_completes (h : CountedFrom s text t) (hf : s.fault = none) (ha : a.toNat < 2 ^ s.cfg.symw)
    (hn : (text ++ [a]).eraseDups.length ≤ s.cfg.nsym) (hl : text.length < 2 ^ s.cfg.cntw - 1) :
    ∃ u, exec (.cntSym a) t = .next u ∧ CountedFrom s (text ++ [a]) u := by
  rw [← h.cfg_eq] at ha hn hl
  have hfault : t.fault = none := h.fault_eq.trans hf
  have ht : t.total ≠ t.cfg.cntMax := by
    rw [ne_eq, total_eq_cntMax_iff, h.total]
    omega
  obtain ⟨u, hdone, hu⟩ : ∃ u, countSymbol a t = .done u ∧ u.fault = t.fault := by
    cases hfind : t.ftFind a with
    | some i => exact ⟨_, countSymbol_of_known ht hfind, rfl⟩
    | none =>
      have hnew : a ∉ text := by simpa [h.mem_iff] using ftFind_eq_none_iff.1 hfind
      refine ⟨_, countSymbol_of_new ht hfind ?_, rfl⟩
      rw [eraseDups_concat_of_not_mem hnew, List.length_append, ← h.ftn_toNat, List.length_singleton] at hn
      omega
  have hexec : exec (.cntSym a) t = .next u := by
    rw [Machine.exec_cntSym hfault h.phase_cases ha, hdone, Progress.finish_done]
  exact ⟨u, hexec, h.exec_cntSym hexec (hu.trans hfault)⟩

/-- A counting pass within the capacities (41_frequency_counter.md R121). -/
theorem CountedFrom.cntStr_completes (h : CountedFrom s text t) (hf : s.fault = none)
    (ha : ∀ x ∈ rest, x.toNat < 2 ^ s.cfg.symw) (hn : (text ++ rest).eraseDups.length ≤ s.cfg.nsym)
    (hl : (text ++ rest).length ≤ 2 ^ s.cfg.cntw - 1) :
    ∃ u, runInstrs (Pseudo.cntStr rest) t = .next u ∧ CountedFrom s (text ++ rest) u := by
  induction rest generalizing text t with
  | nil => exact ⟨t, rfl, by rwa [List.append_nil]⟩
  | cons a rest ih =>
    obtain ⟨ha, hrest⟩ := List.forall_mem_cons.1 ha
    rw [List.append_cons] at hn hl ⊢
    obtain ⟨u, hu, hcounted⟩ := h.cntSym_completes hf ha ((length_eraseDups_le_append _ _).trans hn) (by
      rw [List.length_append, List.length_append, List.length_singleton] at hl
      omega)
    obtain ⟨v, hv, hall⟩ := ih hcounted hrest hn hl
    exact ⟨v, runInstrs_cons.2 ⟨u, hu, hv⟩, hall⟩

/-! ### The codes of a text -/

/-- Every symbol of the counted text has a code in the codebook built (10_state.md R40 (d)). -/
theorem CountedFrom.exists_codes (h : CountedFrom s text t) :
    ∃ codes, List.Forall₂ (fun x c => (⟨x, c⟩ : CodeEntry) ∈ (buildCodebook t).cbValid) text codes := by
  have hsyms := (buildCodebook_bookFor h.inv.stored).2.syms
  have hcode : ∀ x ∈ text, ∃ c, (⟨x, c⟩ : CodeEntry) ∈ (buildCodebook t).cbValid := by
    intro x hx
    have hx : x ∈ t.ftValid.map FtSlot.sym := by rwa [h.syms, List.mem_eraseDups]
    obtain ⟨e, he, rfl⟩ := List.mem_map.1 (hsyms.mem_iff.2 hx)
    exact ⟨e.code, he⟩
  choose! code hcode using hcode
  exact ⟨text.map code, by simpa [List.forall₂_map_right_iff, List.forall₂_same] using hcode⟩

/-- The greedy parse of the codes of a text is the text, if no entry begins with another one
(42_tree_builder.md R137). -/
theorem greedyParse_flatten {book : List CodeEntry} {maxLen : Nat} (hreach : ∀ e ∈ book, Reachable book e)
    (hne : ∀ e ∈ book, e.code ≠ []) (hcodes : List.Forall₂ (fun x c => (⟨x, c⟩ : CodeEntry) ∈ book) text codes) :
    GreedyParse book maxLen codes.flatten text [] := by
  induction hcodes with
  | nil => exact .rest [] (Nat.zero_le _) (unmatched_of_acc_nil hne rfl)
  | @cons x c _ _ he _ ih => exact .symbol ⟨x, c⟩ _ _ _ he (hreach _ he) ih

/-- Bytes that spell the codes of a text and the padding decode to the text (44_unpacker_decoder.md R177). -/
theorem decodeBytes_completes {p : BitVec 3} {bytes : List Byte} (h : s.Inv) (hf : s.fault = none)
    (hp : s.phase = .ready) (hreach : ∀ e ∈ s.cbValid, Reachable s.cbValid e)
    (hcodes : List.Forall₂ (fun x c => (⟨x, c⟩ : CodeEntry) ∈ s.cbValid) text codes)
    (hbits : bytes.flatMap byteBits = codes.flatten ++ List.replicate p.toNat false) :
    ∃ t, RunsWithoutFault (Pseudo.decodeBytes p bytes) s t ∧ t.symOut = s.symOut ++ text := by
  have hlen : 8 * bytes.length = codes.flatten.length + p.toNat := by
    rw [← length_flatMap_byteBits, hbits, List.length_append, List.length_replicate]
  refine ⟨_, (runsWithoutFault_decodeBytes_iff h hf hp).2 ⟨by omega, text, ?_, rfl⟩, rfl⟩
  rw [hbits, hlen, Nat.add_sub_cancel, List.take_left' rfl]
  exact greedyParse_flatten hreach (code_ne_nil h) hcodes

/-! ### The encoding run completes -/

/-- Commands that write neither the codebook nor the configuration (10_state.md R20). -/
theorem runInstrs_sameCodebook {is : List Instr} (his : ∀ i ∈ is, i ≠ .clear ∧ i ≠ .build ∧ i ≠ .cblClose)
    (hrun : runInstrs is s = .next t) : t.cfg = s.cfg ∧ t.cbValid = s.cbValid := by
  induction is generalizing s with
  | nil => simp [runInstrs_nil.1 hrun]
  | cons i is ih =>
    obtain ⟨⟨hclear, hbuild, hclose⟩, his⟩ := List.forall_mem_cons.1 his
    obtain ⟨u, hu, hrun⟩ := runInstrs_cons.1 hrun
    have hw := exec_writes hclear hu
    obtain ⟨hcb, hcbn⟩ : SameCodebook s u := by
      by_contra hne
      exact (hw.codebook hne).elim hbuild hclose
    obtain ⟨hcfg, -⟩ := hw.hostSide
    obtain ⟨hcfg', hbook'⟩ := ih his hrun
    exact ⟨hcfg'.trans hcfg, by rw [hbook', State.cbValid, State.cbValid, hcb, hcbn]⟩

/-- What `ENCODE` leaves: a complete prefix-free codebook with the symbols of the text, and the bytes that spell their
codes and the padding (42_tree_builder.md R137; 43_bit_packer.md R157). -/
structure EncodedFrom (s : State) (text : List Symbol) (codes : List BitString) (bytes : List Byte) (t : State) :
    Prop where
  inv : t.Inv
  phase : t.phase = .ready
  cfg : t.cfg = s.cfg
  reachable : ∀ e ∈ t.cbValid, Reachable t.cbValid e
  coded : List.Forall₂ (fun x c => (⟨x, c⟩ : CodeEntry) ∈ t.cbValid) text codes
  byteOut : t.byteOut = s.byteOut ++ bytes
  bits : bytes.flatMap byteBits = codes.flatten ++ List.replicate t.pad.toNat false

theorem encodeText_completes (h : s.Inv) (hf : s.fault = none) (hp : s.phase = .idle)
    (ha : ∀ x ∈ text, x.toNat < 2 ^ s.cfg.symw) (hn : text.eraseDups.length ≤ s.cfg.nsym)
    (hl : text.length ≤ 2 ^ s.cfg.cntw - 1) :
    ∃ t codes bytes, RunsWithoutFault (Pseudo.encodeText text) s t ∧ EncodedFrom s text codes bytes t := by
  obtain ⟨u, hcount, hu⟩ := (countedFrom_nil h hp).cntStr_completes hf ha hn hl
  have hfault : u.fault = none := hu.fault_eq.trans hf
  have hbuild := exec_build_eq hfault hu.phase_cases
  obtain ⟨codes, hcodes⟩ := hu.exists_codes
  have hready : (buildCodebook u).fault = none ∧ (buildCodebook u).phase = .ready := by
    rw [buildCodebook_frame]
    exact ⟨hfault, rfl⟩
  obtain ⟨-, t, bytes, ⟨hpack, ht⟩, htp, -, hbytes, -, hbits⟩ :=
    packRunProducesThePaddedBitstream _ text codes (inv_exec hu.inv hbuild) hready.1 hready.2 hcodes
  obtain ⟨hcfg, hbook⟩ := runInstrs_sameCodebook (by simp [Pseudo.packStr, or_imp, forall_and]) hpack
  have hrun : runInstrs (Pseudo.encodeText text) s = .next t := by
    rw [Pseudo.encodeText, List.append_assoc]
    exact runInstrs_append.2 ⟨u, hcount, runInstrs_cons.2 ⟨_, hbuild, hpack⟩⟩
  refine ⟨t, codes, bytes, ⟨hrun, ht⟩, inv_runInstrs h hrun, htp, ?_, ?_, ?_, ?_, hbits⟩
  · rw [hcfg, buildCodebook_cfg, hu.cfg_eq]
  · rw [hbook]
    exact fun e he => (buildCodebook_bookFor hu.inv.stored).2.prefixFree.reachable he
  · rwa [hbook]
  · rw [hbytes, buildCodebook_byteOut, hu.byteOut_eq]

/-! ### Two runs one after another -/

theorem RunsWithoutFault.trans {is js : List Instr} (h : RunsWithoutFault is s t) (h' : RunsWithoutFault js t u) :
    RunsWithoutFault (is ++ js) s u :=
  ⟨runInstrs_append.2 ⟨t, h.1, h'.1⟩, h'.2⟩

end

/-- Settles O44: both decoders have the codes of the text in a codebook without shadowed entries, in whatever order. -/
theorem encodedTextDecodesToItself : Obligations.EncodedTextDecodesToItself := by
  intro s text h hf hp ha hn hl
  obtain ⟨t, codes, bytes, hrun, ht⟩ := encodeText_completes h hf hp ha hn hl
  refine ⟨t, bytes, hrun, ht.byteOut, decodeBytes_completes ht.inv hrun.2 ht.phase ht.reachable ht.coded ht.bits, ?_⟩
  intro v entries hv hcfg hvf hvp hperm
  have hbook : LegalBook v.cfg entries := by
    rw [hcfg, ← ht.cfg]
    exact ht.inv.legalBook.of_perm hperm
  obtain ⟨w, hload, hwp, hentries, hout⟩ := runsWithoutFault_loadCodebook hv hvf hvp hbook
  have hreach : ∀ e ∈ w.cbValid, Reachable w.cbValid e := by
    simpa [Reachable, hentries, hperm.mem_iff] using ht.reachable
  have hcodes : List.Forall₂ (fun x c => (⟨x, c⟩ : CodeEntry) ∈ w.cbValid) text codes := by
    simpa [hentries, hperm.mem_iff] using ht.coded
  obtain ⟨u, hdecode, hu⟩ := decodeBytes_completes (inv_runInstrs hv hload.1) hload.2 hwp hreach hcodes ht.bits
  exact ⟨u, hload.trans hdecode, by rw [hu, hout]⟩

end Sys2Proof.Machine
end

section
/-! PROOF. The four commands of the codebook load (45_codebook_load.md R190 to R193), as the rules state them. -/

namespace Sys2Proof.Machine

section
variable {s : State}

/-! ### `CBL_OPEN` -/

theorem commandHeader_cblOpen (a : Word) :
    CommandHeader (.cblOpen a) (0x5000000000000000#64 ||| a.zeroExtend 64) [.idle, .load] [false]
      (fun c => 2 ^ c.symw) := by
  refine .of_admitted_iff (encode_eq_pattern_or rfl (by decide) (by decide)) (fun s => ?_) fun _ => not_operandLegal rfl
  simp [admitted_cblOpen_iff]

theorem openEntry_of_full {sym : Symbol} (hn : s.cbn.toNat = s.cfg.nsym) : openEntry sym s = .raised .tableFull s :=
  if_pos hn

theorem openEntry_of_known {sym : Symbol} (hn : s.cbn.toNat ≠ s.cfg.nsym) (h : ∃ e ∈ s.cbValid, e.sym = sym) :
    openEntry sym s = .raised .badCodebook s := by
  have hfound : (s.cbFindSym sym).isSome = true := by simpa [State.cbFindSym] using h
  rw [openEntry, if_neg hn, if_pos hfound]

/-! ### `CBL_BIT` -/

theorem commandHeader_cblBit (a : Word) :
    CommandHeader (.cblBit a) (0x5100000000000000#64 ||| a.zeroExtend 64) [.load] [true] (fun _ => 2) := by
  refine .of_admitted_iff (encode_eq_pattern_or rfl (by decide) (by decide)) (fun s => ?_) fun _ => not_operandLegal rfl
  simp [admitted_cblBit_iff]

theorem appendCodeBit_of_full (b : Bool) (hl : s.ocode.length = s.cfg.maxLen) :
    appendCodeBit b s = .raised .badCodebook s := if_pos hl

/-! ### `CBL_CLOSE` -/

theorem commandHeader_cblClose :
    CommandHeader .cblClose 0x5200000000000000#64 [.load] [true] (fun _ => 2 ^ 32) :=
  .of_admitted_iff (by decide) (fun s => by simp [admitted_cblClose_iff]) fun _ h => absurd h (by simp [Instr.arg])

theorem closeEntry_of_empty (hc : s.ocode = []) : closeEntry s = .raised .badCodebook s := if_pos hc

theorem closeEntry_of_known (hc : s.ocode ≠ []) (h : ∃ e ∈ s.cbValid, e.code = s.ocode) :
    closeEntry s = .raised .badCodebook s := by
  have hfound : (s.cbFindCode s.ocode).isSome = true := by simpa [State.cbFindCode] using h
  rw [closeEntry, if_neg hc, if_pos hfound]

/-! ### `CBL_END` -/

theorem commandHeader_cblEnd :
    CommandHeader .cblEnd 0x5300000000000000#64 [.idle, .load] [false] (fun _ => 2 ^ 32) :=
  .of_admitted_iff (by decide) (fun s => by simp [admitted_cblEnd_iff]) fun _ h => absurd h (by simp [Instr.arg])

end

/-! ### The four statements -/

/-- Settles O45: the two checks in their order, and the opened entry. -/
theorem cblOpenOpensAnEntry : Obligations.CblOpenOpensAnEntry := by
  refine ⟨commandHeader_cblOpen, fun s a hf hp ho ha => ?_⟩
  rw [exec_cblOpen hf hp ho ha]
  refine ⟨fun hn => ?_, fun hn hknown => ?_, fun hn hnew => ?_⟩
  · rw [openEntry_of_full hn, Progress.finish_raised, State.raise]
  · rw [openEntry_of_known hn hknown, Progress.finish_raised, State.raise]
  · rw [openEntry_of_new hn hnew, Progress.finish_done, State.openedWith]

/-- Settles O46: its check on the length, and the appended bit. -/
theorem cblBitAppendsABit : Obligations.CblBitAppendsABit := by
  refine ⟨commandHeader_cblBit, fun s b hf hp ho => ?_⟩
  rw [exec_cblBit b hf hp ho]
  refine ⟨fun hl => ?_, fun hl => ?_⟩
  · rw [appendCodeBit_of_full b hl, Progress.finish_raised, State.raise]
  · rw [appendCodeBit_of_room b hl, Progress.finish_done]

/-- Settles O47: the two checks in their order, and the slot written; that there is a free slot was checked when the
entry was opened. -/
theorem cblCloseCommitsTheEntry : Obligations.CblCloseCommitsTheEntry := by
  refine ⟨commandHeader_cblClose, fun s h hf hp ho => ?_⟩
  rw [exec_cblClose hf hp ho]
  refine ⟨fun hc => ?_, fun hc hknown => ?_, fun hc hnew => ?_⟩
  · rw [closeEntry_of_empty hc, Progress.finish_raised, State.raise]
  · rw [closeEntry_of_known hc hknown, Progress.finish_raised, State.raise]
  · rw [closeEntry_of_new hc hnew, Progress.finish_done]
    exact ⟨s.commitEntry, rfl, rfl, s.cfg.succ_toNat _ (h.codebook.openEntry ho).1,
      getElem?_writeSlot_self _ _ _ h.stored.cb, fun j => getElem?_writeSlot_ne _ _ _ h.stored.cb⟩

/-- Settles O48: only `PHASE` is written, and in READY the flag is that of the count. -/
theorem cblEndCompletesTheCodebook : Obligations.CblEndCompletesTheCodebook := by
  refine ⟨commandHeader_cblEnd, fun s hf hp ho => ⟨_, exec_cblEnd hf hp ho, rfl, ?_⟩⟩
  rw [State.emptyFlag_iff, ← BitVec.toNat_inj]
  exact and_iff_right (.inl rfl)

end Sys2Proof.Machine
end

section
/-! PROOF. A load that completes without a fault from IDLE leaves exactly the given entries, and a load of pairs with
distinct symbols and distinct codes completes (45_codebook_load.md R196, R198). -/

namespace Sys2Proof.Machine

section
variable {s t u : State} {sym : Symbol} {code bits : BitString} {loaded rest : List CodeEntry} {e : CodeEntry}
  {is : List Instr}

/-! ### The commands of one entry, when they complete -/

theorem commandRule_cblBit (b : Bool) (s : State) : commandRule (Pseudo.cblBit b) s = appendCodeBit b s := by
  have hb : bitOperand ((BitVec.ofBool b).zeroExtend 32) = b := by cases b <;> rfl
  rw [Pseudo.cblBit, commandRule, hb]

theorem clear_notMem_cblBits (bits : BitString) : .clear ∉ bits.map Pseudo.cblBit ++ [.cblClose] := by
  simp [Pseudo.cblBit]

theorem clear_notMem_loadCodebook (entries : List CodeEntry) : .clear ∉ Pseudo.loadCodebook entries := by
  simp [Pseudo.loadCodebook, Pseudo.cblEntry, Pseudo.cblBit]

/-- A `CBL_OPEN` that completes found a free slot, and its operand in range is the symbol it opens
(45_codebook_load.md R190). -/
theorem RunsWithoutFault.cblOpen (hclear : .clear ∉ is) (h : RunsWithoutFault (.cblOpen sym :: is) s t) :
    s.cbn.toNat ≠ s.cfg.nsym ∧ RunsWithoutFault is (s.openedWith sym []) t := by
  obtain ⟨hrun, ht⟩ := h
  obtain ⟨u, hopen, hrun⟩ := runInstrs_cons.1 hrun
  have hrest : RunsWithoutFault is u t := ⟨hrun, ht⟩
  obtain ⟨-, -, hl, hdone⟩ := exec_without_fault (by simp) hopen (hrest.fault_eq_none hclear)
  rw [commandRule, symbolOperand_eq _ sym (of_decide_eq_true hl)] at hdone
  rcases openEntry_cases sym s with ⟨f, e⟩ | ⟨hn, -, e⟩ <;> rw [e] at hdone <;> cases hdone
  exact ⟨hn, hrest⟩

/-- `CBL_CLOSE` after the bits of a code, when they complete (45_codebook_load.md R191, R192). -/
theorem RunsWithoutFault.cblBits_cblClose
    (h : RunsWithoutFault (bits.map Pseudo.cblBit ++ [.cblClose]) (s.openedWith sym code) t) :
    t = (s.openedWith sym (code ++ bits)).commitEntry := by
  have hclear := clear_notMem_cblBits bits
  induction bits generalizing code with
  | nil =>
    obtain ⟨u, hdone, hrest⟩ := h.cons hclear
    obtain rfl := runInstrs_nil.1 hrest.1
    rw [commandRule] at hdone
    rcases closeEntry_cases (s.openedWith sym code) with ⟨f, e⟩ | ⟨-, -, e⟩ <;> rw [e] at hdone <;> cases hdone
    rw [List.append_nil]
  | cons b bits ih =>
    obtain ⟨u, hdone, hrest⟩ := h.cons hclear
    rw [commandRule_cblBit] at hdone
    rcases appendCodeBit_cases b (s.openedWith sym code) with ⟨f, e⟩ | ⟨-, e⟩ <;> rw [e] at hdone <;> cases hdone
    rw [List.append_cons]
    exact ih hrest (clear_notMem_cblBits bits)

/-! ### Entries one after another -/

/-- An entry whose commands complete is the next one loaded (45_codebook_load.md R190 to R192). -/
theorem LoadedFrom.of_cblEntry (h : LoadedFrom s loaded t)
    (hrun : RunsWithoutFault (Pseudo.cblEntry e.sym e.code) t u) : LoadedFrom s (loaded ++ [e]) u := by
  have hinv := inv_runInstrs h.inv hrun.1
  obtain ⟨hn, hbits⟩ := RunsWithoutFault.cblOpen (clear_notMem_cblBits e.code) hrun
  obtain rfl := hbits.cblBits_cblClose
  refine ⟨hinv, ?_, .inr rfl, rfl, ?_⟩
  · rw [List.nil_append, cbValid_commitEntry_openedWith (Nat.lt_of_le_of_ne h.inv.codebook.size hn), h.entries]
  · obtain ⟨_, _, _, _, _, _, rfl⟩ := h.frame
    exact ⟨_, _, _, _, _, _, rfl⟩

theorem LoadedFrom.of_loadCodebook (h : LoadedFrom s loaded t) (hrun : RunsWithoutFault (Pseudo.loadCodebook rest) t u) :
    ∃ v, LoadedFrom s (loaded ++ rest) v ∧ RunsWithoutFault [.cblEnd] v u := by
  induction rest generalizing loaded t with
  | nil => exact ⟨t, by rwa [List.append_nil], hrun⟩
  | cons e rest ih =>
    rw [Pseudo.loadCodebook, List.flatMap_cons, List.append_assoc] at hrun
    obtain ⟨w, hentry, hrest⟩ := hrun.append (clear_notMem_loadCodebook rest)
    rw [List.append_cons]
    exact ih (h.of_cblEntry hentry) hrest

end

/-- Settles O49: a completed load is its entries one after another and `CBL_END`; `FTN` and `TOTAL` are 0 in IDLE and
LOAD (10_state.md R47), and `CBL_END` keeps them. -/
theorem loadProducesTheEntries : Obligations.LoadProducesTheEntries := by
  intro s entries h hf hp
  refine ⟨fun t hrun => ?_, fun hsize hsyms hcodes hlegal => ?_⟩
  · obtain ⟨u, hu, hend⟩ := (loadedFrom_nil h hp).of_loadCodebook hrun
    obtain ⟨v, hdone, hnil⟩ := hend.cons (by simp)
    obtain rfl := runInstrs_nil.1 hnil.1
    obtain rfl := Progress.done.inj hdone
    obtain ⟨hftn, htotal⟩ := hu.inv.phase.frequency hu.phase
    exact ⟨by rw [← length_cbValid hu.inv.stored, hu.entries, List.nil_append], hu.entries, hftn, htotal, rfl⟩
  · obtain ⟨t, hrun, -⟩ := runsWithoutFault_loadCodebook h hf hp ⟨hsize, hsyms, hcodes, hlegal⟩
    exact ⟨t, hrun⟩

end Sys2Proof.Machine
end

section
/-! PROOF. The faults of the block: what their entry writes, which command raises which one, what they leave as it was,
and the faulted state (60_exceptions.md R210, R212, R213, R214). -/

namespace Sys2Proof.Machine

/-! ### The faults of the commands' own checks -/

section
variable {s t u : State} {f : FaultCode} {i : Instr}

theorem countSymbol_raised {sym : Symbol} (h : countSymbol sym s = .raised f u) :
    f ∈ [.countOverflow, .tableFull] ∧ u = s := by
  rw [countSymbol] at h
  split at h
  · cases h; simp
  · split at h
    · split at h
      · cases h; simp
      · cases h
    · cases h

theorem packSymbol_raised {sym : Symbol} (h : packSymbol sym s = .raised f u) : f ∈ [.missingCode] ∧ u = s := by
  rw [packSymbol] at h
  split at h
  · cases h; simp
  · cases h

theorem openEntry_raised {sym : Symbol} (h : openEntry sym s = .raised f u) :
    f ∈ [.tableFull, .badCodebook] ∧ u = s := by
  rw [openEntry] at h
  split at h
  · cases h; simp
  · split at h
    · cases h; simp
    · cases h

theorem appendCodeBit_raised {b : Bool} (h : appendCodeBit b s = .raised f u) : f ∈ [.badCodebook] ∧ u = s := by
  rw [appendCodeBit] at h
  split at h
  · cases h; simp
  · cases h

theorem closeEntry_raised (h : closeEntry s = .raised f u) : f ∈ [.badCodebook] ∧ u = s := by
  rw [closeEntry] at h
  split at h
  · cases h; simp
  · split at h
    · cases h; simp
    · cases h

/-- The faults of a command's own checks, in the order of its rule: the column "raised by" for the faults 4 to 8
(60_exceptions.md R210, R215). -/
def ownFaults : Instr → List FaultCode
  | .cntSym _ => [.countOverflow, .tableFull]
  | .packSym _ => [.missingCode]
  | .decByte _ | .decEnd => [.malformedStream]
  | .cblOpen _ => [.tableFull, .badCodebook]
  | .cblBit _ | .cblClose => [.badCodebook]
  | .nop | .clear | .build | .packBegin | .packEnd | .decBegin _ | .cblEnd => []

/-- A rule that faults does so by one of its own checks, and only the bit feeds write before they check
(60_exceptions.md R213). -/
theorem commandRule_raised (h : commandRule i s = .raised f u) :
    f ∈ ownFaults i ∧ (f ≠ .malformedStream → u = s) := by
  cases i with
  | nop | clear | build | packBegin | packEnd | decBegin | cblEnd => cases h
  | cntSym a => exact (countSymbol_raised h).imp_right fun e _ => e
  | packSym a => exact (packSymbol_raised h).imp_right fun e _ => e
  | decByte a =>
    obtain rfl := (decodeByte_raised h).1
    exact ⟨List.mem_singleton_self _, fun hne => absurd rfl hne⟩
  | decEnd =>
    obtain rfl := (finishDecoding_raised h).1
    exact ⟨List.mem_singleton_self _, fun hne => absurd rfl hne⟩
  | cblOpen a => exact (openEntry_raised h).imp_right fun e _ => e
  | cblBit a => exact (appendCodeBit_raised h).imp_right fun e _ => e
  | cblClose => exact (closeEntry_raised h).imp_right fun e _ => e

/-! ### Which command raises which fault -/

/-- A fault a command leaves was entered with the command's word: by admission or by the operand check, in the state
before, or by the command's own rule (60_exceptions.md R215). -/
theorem exec_raised (hf : s.fault = none) (h : exec i s = .next t) (ht : t.fault = some f) :
    ∃ u, t = u.raise f (encode i) ∧
      (f = .badPhase ∧ admitted i s = false ∧ u = s ∨ f = .badOperand ∧ operandLegal s.cfg i = false ∧ u = s ∨
        commandRule i s = .raised f u) := by
  rcases exec_cases h with
    ⟨-, rfl⟩ | ⟨hi, ⟨hne, -⟩ | ⟨-, ha, rfl⟩ | ⟨-, -, hl, rfl⟩ | ⟨-, -, -, hd | ⟨g, u, hr, rfl⟩⟩⟩
  · cases ht
  · exact absurd hf hne
  · cases ht
    exact ⟨s, rfl, .inl ⟨rfl, ha, rfl⟩⟩
  · cases ht
    exact ⟨s, rfl, .inr (.inl ⟨rfl, hl, rfl⟩)⟩
  · have hreg := (commandRule_writes hi s).2.1
    rw [hd, Progress.state_done, hf, ht] at hreg
    cases hreg
  · cases ht
    exact ⟨u, rfl, .inr (.inr hr)⟩

/-- Only a command with an operand can have it out of range (30_encoding.md R97). -/
theorem hasOperand_of_not_legal (hl : operandLegal s.cfg i = false) :
    ∃ a, i = .cntSym a ∨ i = .packSym a ∨ i = .cblOpen a ∨ i = .cblBit a ∨ i = .decByte a ∨ i = .decBegin a := by
  cases i with
  | nop | clear | build | packBegin | packEnd | decEnd | cblClose | cblEnd => cases hl
  | cntSym a | packSym a | decBegin a | decByte a | cblOpen a | cblBit a => exact ⟨a, by simp⟩

/-! ### What a fault leaves as it was -/

/-- With padding declared and no byte given `DEC_END` feeds nothing; otherwise it feeds the held bits without the
padding, none where no byte is held (44_unpacker_decoder.md R176). -/
theorem feedLastByte_eq (hpad : ¬ (s.holdv = false ∧ s.pad ≠ 0#3)) :
    feedLastByte s = (s.feedBits (s.heldBits s.pad.toNat)).andThen fun t => .done { t with holdv := false } := by
  cases hv : s.holdv with
  | true => rw [feedLastByte_of_held hv, heldBits_of_held hv]
  | false =>
    have hp : s.pad = 0#3 := by_contra fun hp => hpad ⟨hv, hp⟩
    rw [feedLastByte_of_empty hv hp, heldBits_of_empty hv, feedBits_nil, Progress.andThen_done, ← hv]

/-- A feed that faults stops at the bit that finds the accumulator full (44_unpacker_decoder.md R172). -/
theorem feedBits_stops_full {bits : BitString} (h : s.feedBits bits = .raised f u) :
    ∃ k, s.feedBits (bits.take k) = .done u ∧ k < bits.length ∧ u.acc.length = s.cfg.maxLen := by
  obtain ⟨k, hk, hfed⟩ := feedBits_raised_at h
  obtain ⟨-, hfull, syms, acc, rfl⟩ := feedBits_raised h
  exact ⟨k, hfed, hk, hfull⟩

/-- `DEC_BYTE` faults in the feed of the held byte (44_unpacker_decoder.md R174). -/
theorem decodeByte_stops_full {v : Byte} (h : decodeByte v s = .raised f u) :
    ∃ k, s.feedBits ((s.heldBits 0).take k) = .done u ∧ k < (s.heldBits 0).length ∧
      u.acc.length = s.cfg.maxLen := by
  rw [decodeByte_eq, Progress.andThen_eq_raised] at h
  obtain h | ⟨_, -, h⟩ := h
  · exact feedBits_stops_full h
  · cases h

/-- `DEC_END` faults in the feed of the held bits, or after it, with `HOLDV` 0 (44_unpacker_decoder.md R176). -/
theorem finishDecoding_stops (h : finishDecoding s = .raised f u) :
    ∃ k v, s.feedBits ((s.heldBits s.pad.toNat).take k) = .done v ∧
      (k < (s.heldBits s.pad.toNat).length ∧ v.acc.length = s.cfg.maxLen ∧ u = v ∨
        k = (s.heldBits s.pad.toNat).length ∧ (v.acc ≠ [] ∨ s.holdv = false ∧ s.pad ≠ 0#3) ∧
          u = { v with holdv := false }) := by
  by_cases hpad : s.holdv = false ∧ s.pad ≠ 0#3
  · obtain ⟨hv, hp⟩ := hpad
    rw [finishDecoding_of_raised (feedLastByte_of_padding hv hp)] at h
    obtain ⟨-, rfl⟩ := Progress.raised.inj h
    rw [heldBits_of_empty hv]
    exact ⟨0, s, rfl, .inr ⟨rfl, .inr ⟨hv, hp⟩, by rw [← hv]⟩⟩
  · rw [finishDecoding, feedLastByte_eq hpad, Progress.andThen_eq_raised] at h
    obtain h | ⟨w, hw, h⟩ := h
    · obtain h | ⟨_, -, h⟩ := Progress.andThen_eq_raised.1 h
      · obtain ⟨k, hfed, hk, hfull⟩ := feedBits_stops_full h
        exact ⟨k, u, hfed, .inl ⟨hk, hfull, rfl⟩⟩
      · cases h
    · obtain ⟨v, hfed, hv⟩ := Progress.andThen_eq_done.1 hw
      obtain rfl := Progress.done.inj hv
      by_cases hacc : v.acc = []
      · rw [if_pos hacc] at h; cases h
      · rw [if_neg hacc] at h
        obtain ⟨-, rfl⟩ := Progress.raised.inj h
        exact ⟨_, v, by rwa [List.take_length], .inr ⟨rfl, .inl hacc, rfl⟩⟩

/-- Where a bit feed stops: the bits it was given, how many of them were fed, and what they left. -/
theorem commandRule_malformed (h : commandRule i s = .raised .malformedStream u) :
    ∃ (bits : BitString) (k : Nat) (v : State),
      ((∃ a, i = .decByte a) ∧ bits = s.heldBits 0 ∨ i = .decEnd ∧ bits = s.heldBits s.pad.toNat) ∧
      s.feedBits (bits.take k) = .done v ∧
      (k < bits.length ∧ v.acc.length = s.cfg.maxLen ∧ u = v ∨
        k = bits.length ∧ i = .decEnd ∧ (v.acc ≠ [] ∨ s.holdv = false ∧ s.pad ≠ 0#3) ∧
          u = { v with holdv := false }) := by
  have hown := (commandRule_raised h).1
  cases i with
  | decByte a =>
    obtain ⟨k, hfed, hk, hfull⟩ := decodeByte_stops_full h
    exact ⟨_, k, u, .inl ⟨⟨a, rfl⟩, rfl⟩, hfed, .inl ⟨hk, hfull, rfl⟩⟩
  | decEnd =>
    obtain ⟨k, v, hfed, hk | ⟨hk, hleft, hu⟩⟩ := finishDecoding_stops h
    · exact ⟨_, k, v, .inr ⟨rfl, rfl⟩, hfed, .inl hk⟩
    · exact ⟨_, k, v, .inr ⟨rfl, rfl⟩, hfed, .inr ⟨hk, rfl, hleft, hu⟩⟩
  | _ => simp [ownFaults] at hown

end

/-! ### The four statements -/

/-- Settles O13: the entry is one update of the two fault registers, and the pin and `FAULTED` say that `FAULT` is
not 0. -/
theorem faultEntryWritesFaultAndFcmdOnly : Obligations.FaultEntryWritesFaultAndFcmdOnly := by
  intro f cmd s
  have hfaulted : (s.raise f cmd).faultedFlag = true := (State.faultedFlag_iff _).2 (by simp)
  exact ⟨rfl, rfl, rfl, hfaulted, (State.getLsbD_statusWord _ (by decide)).trans hfaulted, rfl, rfl, rfl,
    ⟨rfl, rfl, rfl⟩, ⟨rfl, rfl⟩, ⟨rfl, rfl⟩, ⟨rfl, rfl, rfl⟩, ⟨rfl, rfl, rfl⟩, ⟨rfl, rfl⟩, ⟨rfl, rfl, rfl, rfl⟩⟩

/-- Settles O14: a refused phase, a refused operand, or a row of `ownFaults`. -/
theorem faultsComeFromTheirCommands : Obligations.FaultsComeFromTheirCommands := by
  refine ⟨by decide, fun i s t f hf h ht => ?_⟩
  obtain ⟨u, rfl, ⟨rfl, ha, -⟩ | ⟨rfl, hl, -⟩ | hr⟩ := exec_raised hf h ht
  · have hne : i ≠ .nop ∧ i ≠ .clear := by
      constructor <;> rintro rfl
      · simp [admitted_nop] at ha
      · simp [admitted_clear] at ha
    simpa using hne
  · simpa using hasOperand_of_not_legal hl
  · have hown := (commandRule_raised hr).1
    cases i with
    | nop | clear | build | packBegin | packEnd | decBegin | cblEnd => cases hown
    | cntSym a | cblOpen a =>
      simp only [ownFaults, List.mem_cons, List.not_mem_nil, or_false] at hown
      obtain rfl | rfl := hown <;> simp
    | packSym a | decByte a | decEnd | cblBit a | cblClose =>
      obtain rfl := List.mem_singleton.1 hown
      simp

/-- Settles O15: the checks behind the faults 1 to 7 come before any write, and a bit feed that faults has written what
its earlier bits wrote. -/
theorem faultsArePrecise : Obligations.FaultsArePrecise := by
  intro i s t f hf h ht
  obtain ⟨u, rfl, ⟨rfl, -, rfl⟩ | ⟨rfl, -, rfl⟩ | hr⟩ := exec_raised hf h ht
  · exact ⟨fun _ => rfl, nofun⟩
  · exact ⟨fun _ => rfl, nofun⟩
  · refine ⟨fun hne => by rw [(commandRule_raised hr).2 hne, State.raise], ?_⟩
    rintro rfl
    obtain ⟨bits, k, v, horigin, hfed, hstop⟩ := commandRule_malformed hr
    obtain ⟨syms, acc, rfl⟩ := feedBits_done hfed
    obtain ⟨hk, hfull, rfl⟩ | ⟨hk, hi, hleft, rfl⟩ := hstop
    · exact ⟨⟨syms, rfl⟩, fun hne => absurd rfl hne, bits, k, _, horigin, hfed, .inl ⟨hk, hfull, rfl⟩⟩
    · refine ⟨⟨syms, rfl⟩, fun hne => ⟨hi, ?_⟩, bits, k, _, horigin, hfed, .inr ⟨hk, hi, hleft, rfl⟩⟩
      exact hleft.resolve_right fun hnone => hne hnone.1.symm

/-- Settles O16: a faulted block discards the word, a read writes no element of the block, and an idle step writes
nothing. -/
theorem faultStaysUntilClearOrReset : Obligations.FaultStaysUntilClearOrReset := by
  refine ⟨fun w s hf hw => acceptCommand_of_faulted (encode_clear ▸ hw) hf, fun s t f hf h => ?_⟩
  cases hhost : s.host with
  | nil =>
    rw [step_of_host_nil hhost] at h
    cases h
    exact .inl ⟨hf, rfl⟩
  | cons a rest =>
    rw [step_of_host_cons hhost] at h
    cases a with
    | command w =>
      by_cases hw : w = encode .clear
      · exact .inr (.inl (by rw [List.head?_cons, hw, encode_clear]))
      · have hfault : (s.withHost rest).fault ≠ none := by simp [State.withHost, hf]
        rw [serve, acceptCommand_of_faulted hw hfault] at h
        cases h
        exact .inl ⟨hf, rfl⟩
    | read address =>
      cases h
      exact .inl ⟨hf, rfl⟩
    | reset => exact .inr (.inr rfl)

end Sys2Proof.Machine
end

section
/-! PROOF. No word and no other action of the host stops the machine (70_reset_and_hazards.md R252). -/

namespace Sys2Proof.Machine

theorem serve_next (a : HostAction) (s : State) : ∃ t, serve a s = .next t := by
  cases a with
  | command w => exact acceptCommand_next w s
  | read address => exact ⟨serveRead address s, rfl⟩
  | reset => exact ⟨s.resetPin, rfl⟩

/-- Settles O12: an idle block waits, and each of the three actions of the host is served; for a command this is the
totality of the decoder and of every command. -/
theorem everyStepHasANextState : Obligations.EveryStepHasANextState := by
  refine ⟨fun s => ?_, acceptCommand_next⟩
  cases hhost : s.host with
  | nil => exact ⟨s, step_of_host_nil hhost⟩
  | cons a rest =>
    rw [step_of_host_cons hhost]
    exact serve_next a (s.withHost rest)

end Sys2Proof.Machine
end
